-- ==== Sys2Proof/Word.lean ====
section
/-! DEFINITION. The word types of AN-CORE: the 64-bit command word (R12, R65), the byte of a
transport (R51), and FLT (R9, R11): its formats, and a value as the pattern a format gives it. -/

namespace Sys2Proof

/-- A command word (R12): bit 0 is the least significant. -/
abbrev Word := BitVec 64

/-- A byte of a transport that carries words or samples as bytes (R51). -/
abbrev Byte := BitVec 8

/-- The parameter `FLT` (R9, D5): a number format. It is an IEEE-754 binary format, said by how many
exponent bits and fraction bits it has beyond binary32's 8 and 23: `toFLT` of R70 is given for binary32
and for wider formats only. The precision goes up to binary256's (log entry 1). -/
structure FltFormat where
  extraExp  : Nat
  extraFrac : Fin 214
  deriving DecidableEq, Repr

/-- The default FLT (R9, D5). -/
def FltFormat.binary32 : FltFormat := ⟨0, 0⟩

def FltFormat.binary64 : FltFormat := ⟨3, 29⟩

/-- An FLT value, as its format's pattern: the sign bit, and the exponent and fraction fields read as one
number, the exponent in the high bits (R51). What a pattern says depends on the format, which stands in
the parameters. -/
structure Flt where
  sgn : Bool
  mag : Nat
  deriving DecidableEq, Repr, Inhabited

end Sys2Proof
end

