-- ==== Sys2Proof/Config.lean ====
section
/-! DEFINITION. What an implementation of AN-CORE fixes (the parameters of R9) and the free values:
what the spec leaves without a value is an opaque constant here, with no body, so that no proof can
lean on a value of it. -/

namespace Sys2Proof

/-- The waveform selector of P.WAVE (R35): SINE = 0, SQUARE = 1, SAW = 2, TRI = 3. -/
inductive Wave where
  | sine | square | saw | tri
  deriving DecidableEq, Repr

/-- `NAN_POLICY` (R9, D16): what a setter does with a NaN payload (R111). -/
inductive NanPolicy where
  /-- store +0.0 -/
  | clampLow
  /-- refuse the word with NaNPayload -/
  | refuse
  deriving DecidableEq, Repr

/-- The parameters of R9 that a machine fixes and no other field of State holds.
SR and CAP0 are inputs of RESET; SIN and POW2 are not data. -/
structure Config where
  /-- FLT -/
  fmt            : FltFormat
  nanPolicy      : NanPolicy
  mixGainInit    : Flt
  outputClamp    : Bool
  defaultWave    : Wave
  defaultDecay   : Flt
  defaultSustain : Flt
  defaultRelease : Flt
  /-- in milliseconds (R9, R223) -/
  defaultGlideMs : Flt
  defaultGain    : Flt
  deriving DecidableEq, Repr

/-- The parameters of the machine that `State.reset` is: FLT, NAN_POLICY, MIX_GAIN_INIT and OUTPUT_CLAMP at
the defaults R9 gives (log entries 1 and 8); the OPEN ones at the values named in log entries 5 and 6
(DESIGN CHOICE, unsafe). The pattern 0x3F800000 is binary32's 1.0. -/
def Config.default : Config where
  fmt            := .binary32
  nanPolicy      := .clampLow
  mixGainInit    := ⟨false, 0x3F800000⟩
  outputClamp    := false
  defaultWave    := .sine
  defaultDecay   := ⟨false, 0⟩
  defaultSustain := ⟨false, 0⟩
  defaultRelease := ⟨false, 0⟩
  defaultGlideMs := ⟨false, 0⟩
  defaultGain    := ⟨false, 0x3F800000⟩

/-- The FLT operations that can produce a NaN from their operands. Subtraction is not one of its own: `a - b` is
`a + (-b)` (log entry 3, DESIGN CHOICE). -/
inductive FltOp where
  | add | mul | div
  deriving DecidableEq, Repr

/-- FREE VALUE (log entry 3): the sign and the fraction of a NaN result, for a format, an operation and its
operands. The spec does not say which NaN an invalid operation gives. `FltFormat.nanResult` makes a NaN
of whatever this is. -/
opaque Config.nanBits : FltFormat → FltOp → Flt → Flt → Flt

/-- FREE VALUE (log entry 2): `SIN` of R15 before its two properties are imposed (`Machine.SIN`). -/
opaque Config.sinRaw : FltFormat → Flt → Flt

/-- FREE VALUE (log entry 2): `POW2` of R15 before its two properties are imposed (`Machine.POW2`). -/
opaque Config.pow2Raw : FltFormat → Flt → Flt

/-- FREE VALUE (log entry 4): `fmod` outside the domain R14 defines it on. -/
opaque Config.fmodOpen : FltFormat → Flt → Flt → Flt

/-- FREE VALUE (log entry 4): `floor` of an infinity or a NaN, which R14 does not define. -/
opaque Config.floorOpen : FltFormat → Flt → Flt

end Sys2Proof
end

