-- ==== Sys2Proof/Syntax.lean ====
section
/-! DEFINITION. The command set of AN-CORE (R73): one constructor per row of
spec/opcode_table.json, and the reasons a word or a RESET can be refused (R201). -/

namespace Sys2Proof

/-- A command with its operands assembled (R67 to R72). `note`, `vel` and `u` are the integers of
R67, R68 and R71; `imm` is the binary32 pattern of R70, any 32 bits; `down` is R69's truth value. -/
inductive Instr where
  | noteOn (note vel : Nat)
  | noteOff (note : Nat)
  | sustainPedal (down : Bool)
  | setWave (u : Nat)
  | setAttack (imm : BitVec 32)
  | setDecay (imm : BitVec 32)
  | setSustain (imm : BitVec 32)
  | setRelease (imm : BitVec 32)
  | setGlide (imm : BitVec 32)
  | setGain (imm : BitVec 32)
  | setPoly (u : Nat)
  | tick
  | render (u : Nat)
  deriving DecidableEq, Repr

/-- The closed list of refusal reasons (R201). -/
inductive RefusalReason where
  /-- decode: the OP field names no command (R76) -/
  | unassignedOpcode
  /-- decode: an assigned OP with a reserved bit set (R77) -/
  | reservedBitNonZero
  /-- a real-valued setter's payload is a NaN and NAN_POLICY = Refuse (R111) -/
  | nanPayload
  /-- RESET with an SR that is not positive and finite (R221) -/
  | badResetConfig
  deriving DecidableEq, Repr

/-- The codes of R201. -/
def RefusalReason.code : RefusalReason → Nat
  | .unassignedOpcode => 1
  | .reservedBitNonZero => 2
  | .nanPayload => 3
  | .badResetConfig => 4

end Sys2Proof
end

