-- ==== Sys2Proof/WellFormed.lean ====
section
/-! DEFINITION. Which commands can be spelled: an integer operand lies in its field (R67, R68, R71;
the refusals of R81). -/

namespace Sys2Proof

/-- A NOTE or VEL operand fits its 7-bit field (R67). -/
def fits7 (n : Nat) : Bool := decide (n ≤ 127)

/-- An FMT_U operand fits its 32-bit field (R71). -/
def fits32 (u : Nat) : Bool := decide (u ≤ 4294967295)

/-- The command has an encoding: every integer operand lies in its field. A binary32 payload and a
pedal bit always do. -/
def Instr.wf : Instr → Bool
  | .noteOn note vel => fits7 note && fits7 vel
  | .noteOff note => fits7 note
  | .sustainPedal _ => true
  | .setWave u => fits32 u
  | .setAttack _ => true
  | .setDecay _ => true
  | .setSustain _ => true
  | .setRelease _ => true
  | .setGlide _ => true
  | .setGain _ => true
  | .setPoly u => fits32 u
  | .tick => true
  | .render u => fits32 u

end Sys2Proof
end

