-- ==== Sys2Proof/Decode.lean ====
section
/-! DEFINITION. The decoder, total on every 64-bit word (R75) and on any bytes (R51, R52), and after
it the encoder, both from the layout of R65 and R66 and the opcode map of R73 and R74. -/

namespace Sys2Proof

/-- `w[hi:lo]` (R12): the unsigned field of bits hi down to lo. -/
def field (w : Word) (hi lo : Nat) : Nat := (w.extractLsb' lo (hi + 1 - lo)).toNat

/-- The rows of the opcode map, by mnemonic (R73). -/
inductive Op where
  | noteOn | noteOff | sustainPedal
  | setWave | setAttack | setDecay | setSustain | setRelease | setGlide | setGain | setPoly
  | tick | render
  deriving DecidableEq, Repr

/-- One row of R74. -/
structure Row where
  op : Op
  matchWord : Word
  mask : Word
  deriving DecidableEq, Repr

/-- The table of R74, in its order. -/
def opcodeTable : List Row :=
  [ ⟨.noteOn,       0x0100000000000000#64, 0xFF8080FFFFFFFFFF#64⟩,
    ⟨.noteOff,      0x0200000000000000#64, 0xFF80FFFFFFFFFFFF#64⟩,
    ⟨.sustainPedal, 0x0300000000000000#64, 0xFFFFFFFFFFFFFFFE#64⟩,
    ⟨.setWave,      0x1000000000000000#64, 0xFFFFFFFF00000000#64⟩,
    ⟨.setAttack,    0x1100000000000000#64, 0xFFFFFFFF00000000#64⟩,
    ⟨.setDecay,     0x1200000000000000#64, 0xFFFFFFFF00000000#64⟩,
    ⟨.setSustain,   0x1300000000000000#64, 0xFFFFFFFF00000000#64⟩,
    ⟨.setRelease,   0x1400000000000000#64, 0xFFFFFFFF00000000#64⟩,
    ⟨.setGlide,     0x1500000000000000#64, 0xFFFFFFFF00000000#64⟩,
    ⟨.setGain,      0x1600000000000000#64, 0xFFFFFFFF00000000#64⟩,
    ⟨.setPoly,      0x1700000000000000#64, 0xFFFFFFFF00000000#64⟩,
    ⟨.tick,         0x2000000000000000#64, 0xFFFFFFFFFFFFFFFF#64⟩,
    ⟨.render,       0x2100000000000000#64, 0xFFFFFFFF00000000#64⟩ ]

/-- The NOTE field (R67, R68). -/
def noteField (w : Word) : Nat := field w 54 48

/-- The VEL field (R67). -/
def velField (w : Word) : Nat := field w 46 40

/-- The IMM field as a pattern (R70). -/
def immBits (w : Word) : BitVec 32 := w.extractLsb' 0 32

/-- The IMM field as an unsigned integer (R71). -/
def immNat (w : Word) : Nat := field w 31 0

/-- Operand assembly (R67 to R72). -/
def Op.assemble (w : Word) : Op → Instr
  | .noteOn => .noteOn (noteField w) (velField w)
  | .noteOff => .noteOff (noteField w)
  | .sustainPedal => .sustainPedal (field w 0 0 == 1)
  | .setWave => .setWave (immNat w)
  | .setAttack => .setAttack (immBits w)
  | .setDecay => .setDecay (immBits w)
  | .setSustain => .setSustain (immBits w)
  | .setRelease => .setRelease (immBits w)
  | .setGlide => .setGlide (immBits w)
  | .setGain => .setGain (immBits w)
  | .setPoly => .setPoly (immNat w)
  | .tick => .tick
  | .render => .render (immNat w)

/-- What decoding a word gives (R75). -/
inductive Decoded where
  | ok (i : Instr)
  | illegal (r : RefusalReason)
  deriving DecidableEq, Repr

/-- The row whose opcode is the word's OP field, if any (R75). -/
def rowOf (w : Word) : Option Row :=
  opcodeTable.find? fun r => field r.matchWord 63 56 == field w 63 56

/-- The decoder of R75: OP is looked up first, then the reserved bits are checked (R203). -/
def decode (w : Word) : Decoded :=
  match rowOf w with
  | none => .illegal .unassignedOpcode
  | some r =>
    if w &&& r.mask = r.matchWord then .ok (r.op.assemble w) else .illegal .reservedBitNonZero

/-- Eight bytes make a word, least significant byte first (R51). -/
def wordOfBytes (b0 b1 b2 b3 b4 b5 b6 b7 : Byte) : Word :=
  b7 ++ b6 ++ b5 ++ b4 ++ b3 ++ b2 ++ b1 ++ b0

/-- The bytes of a word, least significant first (R51). -/
def bytesOfWord (w : Word) : List Byte :=
  (List.range 8).map fun k => w.extractLsb' (8 * k) 8

/-- The first word of a byte transport, decoded, with the bytes after it. A partial word is no
command (R52). -/
def decodeBytes : List Byte → Option (Decoded × List Byte)
  | b0 :: b1 :: b2 :: b3 :: b4 :: b5 :: b6 :: b7 :: rest =>
    some (decode (wordOfBytes b0 b1 b2 b3 b4 b5 b6 b7), rest)
  | _ => none

/-- The command words a byte transport delivers (R51); the bytes of a partial word at its end deliver
nothing (R52, log entry 18). -/
def wordsOfBytes : List Byte → List Word
  | b0 :: b1 :: b2 :: b3 :: b4 :: b5 :: b6 :: b7 :: rest =>
    wordOfBytes b0 b1 b2 b3 b4 b5 b6 b7 :: wordsOfBytes rest
  | _ => []

/-! ### The encoder -/

/-- The opcode of a command (R73). -/
def Instr.opcode : Instr → BitVec 8
  | .noteOn _ _ => 0x01#8
  | .noteOff _ => 0x02#8
  | .sustainPedal _ => 0x03#8
  | .setWave _ => 0x10#8
  | .setAttack _ => 0x11#8
  | .setDecay _ => 0x12#8
  | .setSustain _ => 0x13#8
  | .setRelease _ => 0x14#8
  | .setGlide _ => 0x15#8
  | .setGain _ => 0x16#8
  | .setPoly _ => 0x17#8
  | .tick => 0x20#8
  | .render _ => 0x21#8

/-- The word layout of R65: OP, RA, NOTE, RB, VEL, RC, IMM from bit 63 down, the reserved fields 0. -/
def layout (op : BitVec 8) (note vel : BitVec 7) (imm : BitVec 32) : Word :=
  op ++ 0#1 ++ note ++ 0#1 ++ vel ++ 0#8 ++ imm

/-- The word of a command, by its format (R66). Meant for a well-formed command. -/
def encode (i : Instr) : Word :=
  match i with
  | .noteOn note vel => layout i.opcode (BitVec.ofNat 7 note) (BitVec.ofNat 7 vel) 0#32
  | .noteOff note => layout i.opcode (BitVec.ofNat 7 note) 0#7 0#32
  | .sustainPedal down => layout i.opcode 0#7 0#7 (if down then 1#32 else 0#32)
  | .setWave u => layout i.opcode 0#7 0#7 (BitVec.ofNat 32 u)
  | .setAttack imm => layout i.opcode 0#7 0#7 imm
  | .setDecay imm => layout i.opcode 0#7 0#7 imm
  | .setSustain imm => layout i.opcode 0#7 0#7 imm
  | .setRelease imm => layout i.opcode 0#7 0#7 imm
  | .setGlide imm => layout i.opcode 0#7 0#7 imm
  | .setGain imm => layout i.opcode 0#7 0#7 imm
  | .setPoly u => layout i.opcode 0#7 0#7 (BitVec.ofNat 32 u)
  | .tick => layout i.opcode 0#7 0#7 0#32
  | .render u => layout i.opcode 0#7 0#7 (BitVec.ofNat 32 u)

/-! ### The table's numbering -/

/-- The word whose bits, numbered as spec/opcode_table.json numbers them, are `w` up to `nbits`, and 0
above. Its one word is the whole command, so the numbering is that of R12. -/
def tableWord (nbits w : Nat) : Word := BitVec.ofNat 64 (w % 2 ^ nbits)

/-- What the decoder reads from the bytes of that word (`none` where it refuses). -/
def decodeTableWord (nbits w : Nat) : Option Instr :=
  match decodeBytes (bytesOfWord (tableWord nbits w)) with
  | some (.ok i, _) => some i
  | _ => none

end Sys2Proof
end

