-- ==== Sys2Proof/Machine/Float.lean ====
section
/-! DEFINITION. FLT arithmetic (R14) in the format a machine has (R9): IEEE-754 operations, each computed
exactly and rounded once to nearest, ties to even. A finite magnitude is an integer number of units, a
unit being the format's least positive value (2^-149 in binary32), so sums, products and quotients are
exact integers or fractions of units before the one rounding. Named constants: R10, R16. -/

namespace Sys2Proof

namespace Flt

/-! ### What no format decides -/

def zero : Flt := ⟨false, 0⟩
def negZero : Flt := ⟨true, 0⟩

def isZero (x : Flt) : Bool := x.mag == 0

/-- `-x`: the sign bit inverted. -/
def negate (x : Flt) : Flt := ⟨!x.sgn, x.mag⟩

/-- `abs(x)` clears the sign (R14). -/
def abs (x : Flt) : Flt := ⟨false, x.mag⟩

/-- An integer that orders the values that are not NaN; both zeros are 0. -/
def key (x : Flt) : Int := if x.sgn then -(x.mag : Int) else (x.mag : Int)

/-- The value of a binary32 pattern in the layout of R51: sign in bit 31, then exponent and fraction. -/
def ofBits32 (b : BitVec 32) : Flt := ⟨decide (2147483648 ≤ b.toNat), b.toNat % 2147483648⟩

/-- The binary32 pattern of a binary32 value (R51). -/
def bits32 (x : Flt) : BitVec 32 := BitVec.ofNat 32 (if x.sgn then 2147483648 + x.mag else x.mag)

end Flt

namespace FltFormat

variable (F : FltFormat)

/-! ### The format (R51) -/

def expBits : Nat := 8 + F.extraExp

def fracBits : Nat := 23 + F.extraFrac.val

/-- What the exponent field of 1.0 holds. -/
def bias : Nat := 2 ^ (F.expBits - 1) - 1

/-- The magnitude pattern of infinity: exponent all ones, fraction zero. Above it stand the NaNs. -/
def infMag : Nat := (2 ^ F.expBits - 1) * 2 ^ F.fracBits

/-- One, in units: the least positive value is `2 ^ (1 - bias - fracBits)`. -/
def unitsPerOne : Nat := 2 ^ (F.bias + F.fracBits - 1)

def isNaN (x : Flt) : Bool := decide (F.infMag < x.mag)

def isInf (x : Flt) : Bool := x.mag == F.infMag

/-- False for NaN and for both infinities (R14). -/
def isFinite (x : Flt) : Bool := decide (x.mag < F.infMag)

def posInf : Flt := ⟨false, F.infMag⟩
def negInf : Flt := ⟨true, F.infMag⟩

/-- 1.0: exponent field at the bias, fraction zero. -/
def one : Flt := ⟨false, F.bias * 2 ^ F.fracBits⟩
def negOne : Flt := ⟨true, F.bias * 2 ^ F.fracBits⟩

/-! ### Exact values and the one rounding (R14) -/

/-- The units in a finite magnitude pattern. -/
def unitsOf (m : Nat) : Nat :=
  if m < 2 ^ F.fracBits then m else (2 ^ F.fracBits + m % 2 ^ F.fracBits) * 2 ^ (m / 2 ^ F.fracBits - 1)

/-- The magnitude of a finite value, in units. -/
def units (x : Flt) : Nat := F.unitsOf x.mag

/-- A finite value, in units. -/
def val (x : Flt) : Int := if x.sgn then -(F.units x : Int) else (F.units x : Int)

/-- The exponent of the spacing of the format at `q` whole units: spacing is `2^spacing q` units, and is
one unit as far as the significand reaches. -/
def spacing (q : Nat) : Nat := Nat.log2 q - F.fracBits

end FltFormat

/-- `n / d` rounded to the nearest integer, ties to even. -/
def divRound (n d : Nat) : Nat :=
  if d < 2 * (n % d) ∨ (d = 2 * (n % d) ∧ n / d % 2 = 1) then n / d + 1 else n / d

namespace FltFormat

variable (F : FltFormat)

/-- The magnitude pattern nearest to `n / d` units, ties to even. A multiple of the spacing that carries
into the next binade is that binade's first pattern, and what lies above the largest finite
magnitude is infinity. -/
def roundMag (n d : Nat) : Nat :=
  min (F.spacing (n / d) * 2 ^ F.fracBits + divRound n (d * 2 ^ F.spacing (n / d))) F.infMag

/-- An exact value of `v` units, rounded; an exact zero is +0.0. -/
def ofUnits (v : Int) : Flt := ⟨decide (v < 0), F.roundMag v.natAbs 1⟩

/-- `toF(n)` for a natural number (R14). -/
def ofNat (n : Nat) : Flt := F.ofUnits ((n * F.unitsPerOne : Nat) : Int)

/-- `toF(n)` for an integer (R14). -/
def ofInt (n : Int) : Flt := F.ofUnits (n * (F.unitsPerOne : Int))

/-- The FLT value nearest to the rational `n / d` with this sign (R10, R81). -/
def ofRat (s : Bool) (n d : Nat) : Flt := ⟨s, F.roundMag (n * F.unitsPerOne) d⟩

/-! ### Operations (R14) -/

/-- The NaN an invalid operation gives: a quiet NaN whose sign and other fraction bits are a free value
(log entry 3). -/
def nanResult (op : FltOp) (a b : Flt) : Flt :=
  ⟨(Config.nanBits F op a b).sgn,
    F.infMag + 2 ^ (F.fracBits - 1) + (Config.nanBits F op a b).mag % 2 ^ (F.fracBits - 1)⟩

/-- The sum of two finite values, rounded once; an exact zero sum is +0.0, and -0.0 only of two
negative zeros (round to nearest). -/
def addFinite (a b : Flt) : Flt :=
  if F.val a + F.val b = 0 then (if a.sgn && b.sgn then Flt.negZero else Flt.zero)
  else F.ofUnits (F.val a + F.val b)

/-- `a + b` (R14). -/
def add (a b : Flt) : Flt :=
  if F.isNaN a || F.isNaN b then F.nanResult .add a b
  else if F.isInf a then (if F.isInf b && (a.sgn != b.sgn) then F.nanResult .add a b else a)
  else if F.isInf b then b
  else F.addFinite a b

/-- `a - b` (R14), computed as `a + (-b)`. That a NaN result is then the NaN of `a + (-b)`, with no free
value of its own, is the model's choice, the spec being silent on it (log entry 3, DESIGN CHOICE). -/
def sub (a b : Flt) : Flt := F.add a b.negate

/-- `a * b` (R14). -/
def mul (a b : Flt) : Flt :=
  if F.isNaN a || F.isNaN b then F.nanResult .mul a b
  else if F.isInf a || F.isInf b then
    (if a.isZero || b.isZero then F.nanResult .mul a b else ⟨a.sgn != b.sgn, F.infMag⟩)
  else ⟨a.sgn != b.sgn, F.roundMag (F.units a * F.units b) F.unitsPerOne⟩

/-- `a / b` (R14). A finite non-zero value over a zero is an infinity. -/
def div (a b : Flt) : Flt :=
  if F.isNaN a || F.isNaN b then F.nanResult .div a b
  else if F.isInf a then
    (if F.isInf b then F.nanResult .div a b else ⟨a.sgn != b.sgn, F.infMag⟩)
  else if F.isInf b then ⟨a.sgn != b.sgn, 0⟩
  else if b.isZero then
    (if a.isZero then F.nanResult .div a b else ⟨a.sgn != b.sgn, F.infMag⟩)
  else ⟨a.sgn != b.sgn, F.roundMag (F.units a * F.unitsPerOne) (F.units b)⟩

/-! ### Comparisons: IEEE, false when an operand is a NaN (R14) -/

def lt (a b : Flt) : Bool := !F.isNaN a && !F.isNaN b && decide (a.key < b.key)

def le (a b : Flt) : Bool := !F.isNaN a && !F.isNaN b && decide (a.key ≤ b.key)

def gt (a b : Flt) : Bool := F.lt b a

def ge (a b : Flt) : Bool := F.le b a

/-- `a == b`. -/
def eqv (a b : Flt) : Bool := !F.isNaN a && !F.isNaN b && decide (a.key = b.key)

/-- `min(a,b)` is `a` if `a <= b` else `b` (R14). -/
def min (a b : Flt) : Flt := if F.le a b then a else b

/-- `max(a,b)` is `a` if `a >= b` else `b` (R14). -/
def max (a b : Flt) : Flt := if F.ge a b then a else b

/-! ### floor and fmod (R14) -/

/-- `floor(x)`: the greatest integer not above `x`, as an FLT value. Of a value that is not finite the
spec says nothing: a free value (log entry 4). -/
def floor (x : Flt) : Flt :=
  if F.isFinite x then F.ofUnits (F.val x / (F.unitsPerOne : Int) * (F.unitsPerOne : Int))
  else Config.floorOpen F x

/-- In [0, y): what `fmod` by `y` must give, and where the phase must stay (R32 item 4, R96). -/
def inRange (y r : Flt) : Bool := !r.sgn && F.lt r y

/-- `fmod(x, y)` (R14): the exact remainder, for finite `x >= 0` and `y > 0`. R14 gives no sign to a zero remainder:
`fmod(-0.0, y)` is +0.0 by the model's choice (log entry 4, DESIGN CHOICE). Outside that domain the
spec gives no value: a free value, kept in [0, y) when `y` is positive (R32 item 4; log entry 4). -/
def fmod (x y : Flt) : Flt :=
  if F.isFinite x && F.isFinite y && F.ge x Flt.zero && F.gt y Flt.zero then
    F.ofUnits ((F.units x % F.units y : Nat) : Int)
  else if F.inRange y (Config.fmodOpen F x y) then Config.fmodOpen F x y
  else Flt.zero

/-! ### Named constants (R10, R16): each the FLT value nearest to it -/

def half : Flt := F.ofRat false 1 2
def three : Flt := F.ofNat 3
def four : Flt := F.ofNat 4
/-- `ATTACK_DEFAULT`, 0.005 s (R10). -/
def attackDefault : Flt := F.ofRat false 5 1000
/-- `TAU_MIX`, 0.005 s (R10). -/
def tauMix : Flt := F.ofRat false 5 1000
/-- `A4_FREQ`, 440 Hz (R10). -/
def a4Freq : Flt := F.ofNat 440
/-- `A4_NOTE`, 69 (R10). -/
def a4Note : Flt := F.ofNat 69
/-- `SEMITONES`, 12 (R10). -/
def semitones : Flt := F.ofNat 12
/-- `GLIDE_EPS`, 1e-6 Hz (R10). -/
def glideEps : Flt := F.ofRat false 1 1000000
/-- `GLIDE_FLOOR`, 20 Hz (R10). -/
def glideFloor : Flt := F.ofNat 20
/-- `VEL_MAX`, 127 (R10). -/
def velMax : Flt := F.ofNat 127
/-- `MS_PER_S`, 1000 (R10). -/
def msPerS : Flt := F.ofNat 1000

end FltFormat

/-- Pi to 100 decimals, in units of 10^-100: enough to round to every format of `FltFormat` (log entry 30). -/
def piDigits : Nat :=
  31415926535897932384626433832795028841971693993751058209749445923078164062862089986280348253421170679

namespace FltFormat

variable (F : FltFormat)

/-- `PI`, the FLT value nearest to pi (R16). -/
def pi : Flt := F.ofRat false piDigits (10 ^ 100)

/-- `TWO_PI`, `2 * PI` computed in FLT (R16). -/
def twoPi : Flt := F.mul (F.ofNat 2) F.pi

/-! ### Ranges of the registers (R32, R34) -/

/-- +0.0, positive or +inf: the legal values of a time register (R34). -/
def nonneg (x : Flt) : Bool := !x.sgn && decide (x.mag ≤ F.infMag)

/-- +0.0 to 1.0: the legal values of a level, a gain and an envelope (R32, R34). -/
def unit (x : Flt) : Bool := !x.sgn && decide (x.mag ≤ F.one.mag)

/-- Not below zero: a NaN, or sign clear. -/
def notNeg (x : Flt) : Bool := F.isNaN x || !x.sgn

/-- Positive and finite: what SR must be (R44, R221). -/
def posFinite (x : Flt) : Bool := F.isFinite x && F.gt x Flt.zero

/-! ### To and from binary32 (R51, R70) -/

/-- `toFLT(x)` of the binary32 value of a payload (R70): the exact widening conversion, which is the
identity when FLT is binary32. A NaN stays a NaN, its fraction's bits at the top. -/
def toFLT (imm : BitVec 32) : Flt :=
  ⟨(Flt.ofBits32 imm).sgn,
    if binary32.isNaN (Flt.ofBits32 imm) then
      F.infMag + ((Flt.ofBits32 imm).mag - binary32.infMag) * 2 ^ F.extraFrac.val
    else if binary32.isInf (Flt.ofBits32 imm) then F.infMag
    else F.roundMag (binary32.units (Flt.ofBits32 imm) * F.unitsPerOne) binary32.unitsPerOne⟩

/-- The binary32 encoding of a value (R51): its own pattern when FLT is binary32; of a wider FLT the nearest
binary32 value's (log entry 30). OUT holds no NaN (R185): one would be sent as the quiet NaN with no
other fraction bit. -/
def toBits32 (y : Flt) : BitVec 32 :=
  Flt.bits32 ⟨y.sgn,
    if F.isNaN y then 0x7FC00000
    else if F.isInf y then binary32.infMag
    else binary32.roundMag (F.units y * binary32.unitsPerOne) F.unitsPerOne⟩

end FltFormat

end Sys2Proof
end

