-- ==== Sys2Proof/Machine/State.lean ====
section
/-! DEFINITION. The state of AN-CORE (R20), plain data: the voice file, the parameter registers, SR and
DT, MIX, OUT, STATUS and CP; with what the block is given, the host's moves not yet taken, and the
parameters of R9. -/

namespace Sys2Proof.Machine

/-- One slot of the voice file (R22 to R30). Every `Flt` of the state is a value of the machine's FLT. -/
structure Voice where
  note        : BitVec 7
  active      : Bool
  keyDown     : Bool
  gate        : Bool
  freqTarget  : Flt
  freqCurrent : Flt
  env         : Flt
  phase       : Flt
  velocity    : Flt
  deriving DecidableEq, Repr

/-- The reset slot (R31). -/
def Voice.reset : Voice where
  note        := 0#7
  active      := false
  keyDown     := false
  gate        := false
  freqTarget  := Flt.zero
  freqCurrent := Flt.zero
  env         := Flt.zero
  phase       := Flt.zero
  velocity    := Flt.zero

/-- The configuration a RESET carries (R8, R220): the sample rate and the initial capacity. -/
structure ResetConfig where
  sr   : Flt
  cap0 : Int
  deriving DecidableEq, Repr

/-- What a refusal records (R48, R201): the refused word, or a RESET's configuration. -/
inductive RefusalInfo where
  | word (w : Word)
  | config (c : ResetConfig)
  deriving DecidableEq, Repr

/-- STATUS (R48). -/
inductive Status where
  | running
  | refused (info : RefusalInfo) (reason : RefusalReason)
  deriving DecidableEq, Repr

/-- One move of the host (R8, R212): a RESET or a command word. -/
inductive HostInput where
  | reset (c : ResetConfig)
  | command (w : Word)
  deriving DecidableEq, Repr

/-- The machine's state. CAP (R42) is the number of slots: `State.cap` (log entry 13). -/
structure State where
  /-- V[0..CAP-1] (R22) -/
  voices  : List Voice
  /-- P.WAVE (R35) -/
  wave    : Wave
  /-- P.ATTACK, seconds (R36) -/
  attack  : Flt
  /-- P.DECAY, seconds (R37) -/
  decay   : Flt
  /-- P.SUSTAIN (R38) -/
  sustain : Flt
  /-- P.RELEASE, seconds (R39) -/
  release : Flt
  /-- P.GLIDE, seconds (R40) -/
  glide   : Flt
  /-- P.GAIN (R41) -/
  gain    : Flt
  /-- P.PEDAL (R43) -/
  pedal   : Bool
  /-- SR (R44) -/
  sr      : Flt
  /-- DT = 1/SR, computed at reset (R44) -/
  dt      : Flt
  /-- MIX (R45) -/
  mix     : Flt
  /-- OUT, oldest sample first (R46) -/
  out     : List Flt
  /-- STATUS (R48) -/
  status  : Status
  /-- CP (R47): how many commands have completed since RESET -/
  cp      : Nat
  /-- the host's moves not yet taken, in order (R55, R212; log entry 10) -/
  input   : List HostInput
  /-- the parameters of R9 (log entry 9) -/
  cfg     : Config
  deriving DecidableEq, Repr

/-- FLT (R9): the format of every real-valued field. -/
def State.fmt (s : State) : FltFormat := s.cfg.fmt

/-- CAP (R42), the number of slots. -/
def State.cap (s : State) : Nat := s.voices.length

/-- Why a step could fault. No behaviour of this hardware is treated as a fault (R200;
93_implementation_defined.md), so there is no constructor: no step of the model answers a fault (safe). -/
inductive Fault where
  deriving DecidableEq, Repr

/-- Why a step could have no meaning in the model. A refusal of the hardware (R201) is not one of
these: it is a next state whose STATUS is Refused (R79, R202; log entry 14). -/
inductive Refusal where
  /-- Raised by an arm of `exec` for an instruction that has no meaning yet (safe); none is left. -/
  | notModelled (mnemonic : String)
  deriving DecidableEq, Repr

/-- The machine right after RESET(48000, 8), the construction of R8, with the parameters of
`Config.default` (R220, R223; log entries 5 to 8) and nothing sent by the host yet.
The lemma `reset_is_reset_of_default` says that it is what RESET leaves. -/
def State.reset : State where
  voices  := List.replicate 8 Voice.reset
  wave    := Config.default.defaultWave
  attack  := Config.default.fmt.attackDefault
  decay   := Config.default.defaultDecay
  sustain := Config.default.defaultSustain
  release := Config.default.defaultRelease
  glide   := Config.default.fmt.div Config.default.defaultGlideMs Config.default.fmt.msPerS
  gain    := Config.default.defaultGain
  pedal   := false
  sr      := Config.default.fmt.ofNat 48000
  dt      := Config.default.fmt.div Config.default.fmt.one (Config.default.fmt.ofNat 48000)
  mix     := Config.default.mixGainInit
  out     := []
  status  := .running
  cp      := 0
  input   := []
  cfg     := Config.default

end Sys2Proof.Machine
end

