-- ==== Sys2Proof/Machine/Flags.lean ====
section
/-! DEFINITION. The flags of a slot (R24 to R26) and the predicates over them that the rules test. The
hardware has no condition codes. -/

namespace Sys2Proof.Machine

/-- An active slot holding `note` (R151, R156). -/
def Voice.holds (note : Nat) (v : Voice) : Bool := v.active && v.note.toNat == note

/-- NOTE_ON's flag writes: key_down and gate true (R151, R152). -/
def Voice.press (v : Voice) : Voice := { v with keyDown := true, gate := true }

/-- NOTE_OFF's flag writes: key_down false, and gate false unless the pedal is held (R156). -/
def Voice.keyUp (pedal : Bool) (v : Voice) : Voice :=
  { v with keyDown := false, gate := if pedal then v.gate else false }

/-- The pedal's release of one slot: gate false where key_down is false (R158). -/
def Voice.pedalUp (v : Voice) : Voice :=
  { v with gate := if v.keyDown then v.gate else false }

/-- The slot has finished its release: gate false and env at 0 (R116). -/
def Voice.finished (F : FltFormat) (v : Voice) : Bool := !v.gate && F.le v.env Flt.zero

/-- Deactivation (R116): the only rule that clears `active`. -/
def Voice.deactivate (F : FltFormat) (v : Voice) : Voice :=
  { v with active := if v.finished F then false else v.active }

/-- A slot the mixer counts, judged after the slot's update (R182). -/
def Voice.contributes (F : FltFormat) (v : Voice) : Bool := v.active || F.gt v.env Flt.zero

end Sys2Proof.Machine
end

