-- ==== Sys2Proof/Machine/Operands.lean ====
section
/-! DEFINITION. From a command's operands to the values the rules use: SIN and POW2 (R15), the note map
FREQ (R130), VELSCALE (R150), the setter sanitisation (R111), the waveform selector (R97)
and the capacity clamp (R160, R220). -/

namespace Sys2Proof.Machine

/-- `SIN(x)` (R15): the free function, limited by SIN_ZERO and SIN_RANGE and by nothing else.
Every function with those two properties is `SIN` for some `Config.sinRaw` (log entry 2). -/
def SIN (F : FltFormat) (x : Flt) : Flt :=
  if x = Flt.zero then Flt.zero
  else if F.isFinite x && !(F.le F.negOne (Config.sinRaw F x) && F.le (Config.sinRaw F x) F.one) then Flt.zero
  else Config.sinRaw F x

/-- The exponents of POW2_INT, -6 to 5, each with its power of two (R15). -/
def pow2Table (F : FltFormat) : List (Flt × Flt) :=
  (List.range 12).map fun (k : Nat) => (F.ofInt ((k : Int) - 6), F.ofRat false (2 ^ k) 64)

/-- `POW2(x)` (R15): the free function, limited by POW2_INT and POW2_POS and by nothing else.
Every function with those two properties is `POW2` for some `Config.pow2Raw` (log entry 2). -/
def POW2 (F : FltFormat) (x : Flt) : Flt :=
  match (pow2Table F).lookup x with
  | some y => y
  | none => if F.isFinite x && !F.posFinite (Config.pow2Raw F x) then F.one else Config.pow2Raw F x

/-- `FREQ(note) = 440.0 * POW2((toF(note) - 69.0) / 12.0)` (R130). -/
def FREQ (F : FltFormat) (note : Nat) : Flt :=
  F.mul F.a4Freq (POW2 F (F.div (F.sub (F.ofNat note) F.a4Note) F.semitones))

/-- `VELSCALE(vel) = toF(vel) / 127.0` (R150). -/
def VELSCALE (F : FltFormat) (vel : Nat) : Flt := F.div (F.ofNat vel) F.velMax

/-- `sanNaN` (R111): +0.0 under ClampLow; `none` where the rule raises Refused(w, NaNPayload). -/
def sanNaN (p : NanPolicy) : Option Flt :=
  match p with
  | .clampLow => some Flt.zero
  | .refuse => none

/-- `sanTime` (R111). -/
def sanTime (F : FltFormat) (p : NanPolicy) (x : Flt) : Option Flt :=
  if F.isNaN x then sanNaN p
  else if F.le x Flt.zero then some Flt.zero
  else some x

/-- `sanUnit` (R111). -/
def sanUnit (F : FltFormat) (p : NanPolicy) (x : Flt) : Option Flt :=
  if F.isNaN x then sanNaN p
  else if F.le x Flt.zero then some Flt.zero
  else if F.ge x F.one then some F.one
  else some x

/-- Milliseconds to seconds, rounded once (R134, R220). -/
def msToS (F : FltFormat) (x : Flt) : Flt := F.div x F.msPerS

/-- The waveform an SET_WAVE operand selects; any value above 3 selects SINE (R97). -/
def waveOf (u : Nat) : Wave :=
  match u with
  | 0 => .sine
  | 1 => .square
  | 2 => .saw
  | 3 => .tri
  | _ => .sine

/-- `CAP_MIN` and `CAP_MAX` (R10). -/
def capMin : Nat := 1
def capMax : Nat := 32

/-- The capacity a requested integer gives: clamped to [1, 32] (R160, R220). -/
def clampCap (n : Int) : Nat :=
  if n < capMin then capMin else if n > capMax then capMax else n.toNat

end Sys2Proof.Machine
end

