-- ==== Sys2Proof/Machine/Ops.lean ====
section
/-! DEFINITION. The named operations over the state that the commands share: completing a command,
being refused (the hardware's one exception, R202) and RESET, the one way back (R206, R220); writing a
slot; resizing the voice file; appending to OUT; the setter template. -/

namespace Sys2Proof.Machine

/-! ### Completing, being refused, and RESET -/

/-- A command that completes advances CP by 1 (R47, R80). -/
def State.advance (s : State) : State := { s with cp := s.cp + 1 }

/-- TAKING A REFUSAL (R202, R79): STATUS records what was refused and why; every other piece of state,
CP and OUT included, stays. -/
def State.refuse (info : RefusalInfo) (reason : RefusalReason) (s : State) : State :=
  { s with status := .refused info reason }

/-- What a valid RESET(SR, CAP0) leaves (R220), the host's later moves and the parameters apart. -/
def State.restart (c : ResetConfig) (s : State) : State where
  voices  := List.replicate (clampCap c.cap0) Voice.reset
  wave    := s.cfg.defaultWave
  attack  := s.fmt.attackDefault
  decay   := s.cfg.defaultDecay
  sustain := s.cfg.defaultSustain
  release := s.cfg.defaultRelease
  glide   := msToS s.fmt s.cfg.defaultGlideMs
  gain    := s.cfg.defaultGain
  pedal   := false
  sr      := c.sr
  dt      := s.fmt.div s.fmt.one c.sr
  mix     := s.cfg.mixGainInit
  out     := []
  status  := .running
  cp      := 0
  input   := s.input
  cfg     := s.cfg

/-- RESET (R220, R221), in any STATUS: refused, and nothing else changed, unless SR is positive and
finite. -/
def State.doReset (c : ResetConfig) (s : State) : State :=
  if s.fmt.posFinite c.sr then s.restart c else s.refuse (.config c) .badResetConfig

/-! ### Slots, OUT, MIX -/

/-- Write the voice file. -/
def State.setVoices (vs : List Voice) (s : State) : State := { s with voices := vs }

/-- Rewrite slot `k`; an index with no slot writes nothing (log entry 16). -/
def State.modifySlot (k : Nat) (f : Voice → Voice) (s : State) : State :=
  s.setVoices (s.voices.modify k f)

/-- The voice file resized to `n` slots (R160): dropped from the end, or reset slots appended. -/
def resize (n : Nat) (vs : List Voice) : List Voice :=
  if n < vs.length then vs.take n else vs ++ List.replicate (n - vs.length) Voice.reset

/-- `emit(y)` (R13, R46). -/
def State.emit (y : Flt) (s : State) : State := { s with out := s.out ++ [y] }

/-- Write MIX (R45). -/
def State.setMix (m : Flt) (s : State) : State := { s with mix := m }

/-! ### The host's side -/

/-- The moves left after the first is taken. -/
def State.withInput (ms : List HostInput) (s : State) : State := { s with input := ms }

/-- The host sends command words, after what it has already sent (R212). -/
def State.send (ws : List Word) (s : State) : State :=
  s.withInput (s.input ++ ws.map HostInput.command)

/-- The host reads a prefix of OUT (R212). -/
def State.readOut (n : Nat) (s : State) : List Flt := s.out.take n

/-- An OUT sample as the bytes of its binary32 encoding, least significant first (R51). -/
def sampleBytes (F : FltFormat) (y : Flt) : List Byte :=
  (List.range 4).map fun k => (F.toBits32 y).extractLsb' (8 * k) 8

/-! ### The setter template (R111, R118 to R121, R134, R188) -/

/-- The end of a real-valued setter: write the sanitised value and complete, or, where sanitisation
raises it, take the refusal NaNPayload with the setter's own word and write nothing (R202). -/
def finishSetter (i : Instr) (v : Option Flt) (write : Flt → State → State) (s : State) :
    Host.Outcome State Fault Refusal :=
  match v with
  | some x => .next (write x s).advance
  | none => .next (s.refuse (.word (encode i)) .nanPayload)

end Sys2Proof.Machine
end

