-- ==== Sys2Proof/Machine/Envelope.lean ====
section
/-! DEFINITION. The envelope generator (41_envelope.md): ENV_STEP (R110, R112 to R114) and the ADSR
setters (R118 to R121). Deactivation (R116) is `Voice.deactivate` of Flags. -/

namespace Sys2Proof.Machine

/-- The attack branch (R112). -/
def attackStep (F : FltFormat) (dt attack e : Flt) : Flt :=
  if F.le attack Flt.zero then F.one
  else F.min (F.add e (F.div dt attack)) F.one

/-- The decay branch (R113); the step is `(DT * (1.0 - s)) / DECAY`. -/
def decayStep (F : FltFormat) (dt decay sustain e : Flt) : Flt :=
  if F.le decay Flt.zero then sustain
  else F.max (F.sub e (F.div (F.mul dt (F.sub F.one sustain)) decay)) sustain

/-- The release branch (R114). -/
def releaseStep (F : FltFormat) (dt release e : Flt) : Flt :=
  if F.le release Flt.zero then Flt.zero
  else F.max (F.sub e (F.div dt release)) Flt.zero

/-- The envelope's next level (R110): the transition rule, branch for branch. Under a gate it attacks
whenever it is below 1, so it does not hold at the sustain level (R115; 90_conflicts.md C1). -/
def envNext (s : State) (gate : Bool) (e : Flt) : Flt :=
  if gate && s.fmt.lt e s.fmt.one then attackStep s.fmt s.dt s.attack e
  else if gate && s.fmt.gt e s.sustain then decayStep s.fmt s.dt s.decay s.sustain e
  else if !gate then releaseStep s.fmt s.dt s.release e
  else e

/-- `ENV_STEP` (R110): writes only `env`. -/
def envStep (s : State) (v : Voice) : Voice := { v with env := envNext s v.gate v.env }

/-- SET_ATTACK (R118). -/
def execSetAttack (imm : BitVec 32) (s : State) : Host.Outcome State Fault Refusal :=
  finishSetter (.setAttack imm) (sanTime s.fmt s.cfg.nanPolicy (s.fmt.toFLT imm)) (fun x t => { t with attack := x }) s

/-- SET_DECAY (R119). -/
def execSetDecay (imm : BitVec 32) (s : State) : Host.Outcome State Fault Refusal :=
  finishSetter (.setDecay imm) (sanTime s.fmt s.cfg.nanPolicy (s.fmt.toFLT imm)) (fun x t => { t with decay := x }) s

/-- SET_SUSTAIN (R120). -/
def execSetSustain (imm : BitVec 32) (s : State) : Host.Outcome State Fault Refusal :=
  finishSetter (.setSustain imm) (sanUnit s.fmt s.cfg.nanPolicy (s.fmt.toFLT imm)) (fun x t => { t with sustain := x }) s

/-- SET_RELEASE (R121). -/
def execSetRelease (imm : BitVec 32) (s : State) : Host.Outcome State Fault Refusal :=
  finishSetter (.setRelease imm) (sanTime s.fmt s.cfg.nanPolicy (s.fmt.toFLT imm)) (fun x t => { t with release := x }) s

end Sys2Proof.Machine
end

