-- ==== Sys2Proof/Machine/Glide.lean ====
section
/-! DEFINITION. The pitch glide (42_glide.md): GLIDE_STEP (R131), the glide-disabled predicate (R132)
and SET_GLIDE (R134). FREQ (R130) is in Operands. -/

namespace Sys2Proof.Machine

/-- Glide is disabled when P.GLIDE <= 0.0 (R132). -/
def State.glideOff (s : State) : Bool := s.fmt.le s.glide Flt.zero

/-- The fraction of the distance one tick covers: `min(DT / P.GLIDE, 1.0)` (R131). -/
def State.glideCoeff (s : State) : Flt := s.fmt.min (s.fmt.div s.dt s.glide) s.fmt.one

/-- The frequency after one glide step from `fc` towards `ft` (R131). -/
def glideNext (s : State) (ft fc : Flt) : Flt :=
  if s.glideOff || s.fmt.lt (Flt.abs (s.fmt.sub ft fc)) s.fmt.glideEps then ft
  else s.fmt.add fc (s.fmt.mul (s.fmt.sub ft fc) s.glideCoeff)

/-- `GLIDE_STEP` (R131): writes only `freq_current`. -/
def glideStep (s : State) (v : Voice) : Voice :=
  { v with freqCurrent := glideNext s v.freqTarget v.freqCurrent }

/-- SET_GLIDE (R134): milliseconds, stored in seconds. -/
def execSetGlide (imm : BitVec 32) (s : State) : Host.Outcome State Fault Refusal :=
  finishSetter (.setGlide imm) (sanTime s.fmt s.cfg.nanPolicy (s.fmt.toFLT imm)) (fun x t => { t with glide := msToS t.fmt x }) s

end Sys2Proof.Machine
end

