-- ==== Sys2Proof/Machine/Oscillator.lean ====
section
/-! DEFINITION. The oscillator and the phase accumulator (40_oscillator.md): OSC (R90 to R95),
PHASE_INC and PHASE_ADVANCE (R96), SET_WAVE (R97). -/

namespace Sys2Proof.Machine

/-- `OSC_SINE` (R91). -/
def oscSine (F : FltFormat) (phase : Flt) : Flt := SIN F phase

/-- `OSC_SQUARE` (R92): a zero sine gives +1.0. -/
def oscSquare (F : FltFormat) (phase : Flt) : Flt := if F.ge (SIN F phase) Flt.zero then F.one else F.negOne

/-- `OSC_SAW = (phase / PI) - 1.0` (R93). -/
def oscSaw (F : FltFormat) (phase : Flt) : Flt := F.sub (F.div phase F.pi) F.one

/-- The fractional part `t - floor(t)` (R94). -/
def fracPart (F : FltFormat) (t : Flt) : Flt := F.sub t (F.floor t)

/-- `OSC_TRI` (R94). -/
def oscTri (F : FltFormat) (phase : Flt) : Flt :=
  let t := fracPart F (F.div phase F.twoPi)
  if F.lt t F.half then F.sub (F.mul F.four t) F.one
  else F.sub F.three (F.mul F.four t)

/-- `OSC(wave, phase)` (R90). -/
def osc (F : FltFormat) (w : Wave) (phase : Flt) : Flt :=
  match w with
  | .sine => oscSine F phase
  | .square => oscSquare F phase
  | .saw => oscSaw F phase
  | .tri => oscTri F phase

/-- `PHASE_INC(f) = (TWO_PI * f) / SR` (R96). -/
def phaseInc (F : FltFormat) (sr f : Flt) : Flt := F.div (F.mul F.twoPi f) sr

/-- A phase sum brought back into [0, TWO_PI) (R96). -/
def wrapPhase (F : FltFormat) (x : Flt) : Flt := if F.ge x F.twoPi then F.fmod x F.twoPi else x

/-- `PHASE_ADVANCE` (R96). -/
def phaseAdvance (s : State) (v : Voice) : Voice :=
  { v with phase := wrapPhase s.fmt (s.fmt.add v.phase (phaseInc s.fmt s.sr v.freqCurrent)) }

/-- SET_WAVE (R97). -/
def execSetWave (u : Nat) (s : State) : Host.Outcome State Fault Refusal :=
  .next { s with wave := waveOf u }.advance

end Sys2Proof.Machine
end

