-- ==== Sys2Proof/Machine/Mixer.lean ====
section
/-! DEFINITION. The per-sample tick and the block mixer (44_mixer.md): TICK_PROC (R180 to R185), TICK
(R186), RENDER (R187) and SET_GAIN (R188). -/

namespace Sys2Proof.Machine

/-- A slot's contribution from an oscillator sample: `(s * env) * velocity` (R181). -/
def contribution (F : FltFormat) (sample : Flt) (v : Voice) : Flt := F.mul (F.mul sample v.env) v.velocity

/-- An active slot after steps 1, 2 and 4 of R180: glide, envelope, then the phase advance by the new
frequency. -/
def stepVoice (s : State) (v : Voice) : Voice := phaseAdvance s (envStep s (glideStep s v))

/-- One slot of TICK_PROC (R180 steps 1 to 6): the slot afterwards and its contribution. The sample is
taken at the phase before the advance and scaled by the envelope after this tick's step. -/
def tickSlot (s : State) (v : Voice) : Voice × Flt :=
  if v.active then
    ((stepVoice s v).deactivate s.fmt, contribution s.fmt (osc s.fmt s.wave v.phase) (stepVoice s v))
  else if s.fmt.gt v.env Flt.zero then (v, contribution s.fmt (osc s.fmt s.wave v.phase) v)
  else (v, Flt.zero)

/-- All the slots of a tick, in slot order. -/
def tickSlots (s : State) : List (Voice × Flt) := s.voices.map (tickSlot s)

/-- The mixer's sum (R180 step 7, R181): contributing slots only, in slot order, from +0.0. -/
def mixSum (F : FltFormat) (rs : List (Voice × Flt)) : Flt :=
  rs.foldl (fun acc r => if r.1.contributes F then F.add acc r.2 else acc) Flt.zero

/-- `voices_on`: how many slots contribute (R182). -/
def voicesOn (F : FltFormat) (rs : List (Voice × Flt)) : Nat := rs.countP fun r => r.1.contributes F

/-- The normalisation target (R183). -/
def mixTarget (F : FltFormat) (n : Nat) : Flt := if 0 < n then F.div F.one (F.ofNat n) else F.one

/-- `MIX_UPDATE` (R184): `MIX + ((target - MIX) * DT) / (TAU_MIX + DT)`. -/
def mixNext (F : FltFormat) (dt mix target : Flt) : Flt :=
  F.add mix (F.div (F.mul (F.sub target mix) dt) (F.add F.tauMix dt))

/-- The scrub of a sample that is not finite (R185). -/
def scrub (F : FltFormat) (y : Flt) : Flt := if F.isFinite y then y else Flt.zero

/-- The optional clamp of a sample to [-1, 1] (R185, OUTPUT_CLAMP). -/
def clampOut (F : FltFormat) (on : Bool) (y : Flt) : Flt := if on then F.max F.negOne (F.min y F.one) else y

/-- `OUTPUT(sum)` (R185). -/
def output (F : FltFormat) (clamp : Bool) (gain mix sum : Flt) : Flt :=
  clampOut F clamp (scrub F (F.mul (F.mul sum gain) mix))

/-- MIX after this tick (R183, R184). -/
def State.tickMix (s : State) : Flt := mixNext s.fmt s.dt s.mix (mixTarget s.fmt (voicesOn s.fmt (tickSlots s)))

/-- The sample of this tick (R185), with the MIX of this tick. -/
def State.tickSample (s : State) : Flt :=
  output s.fmt s.cfg.outputClamp s.gain s.tickMix (mixSum s.fmt (tickSlots s))

/-- `TICK_PROC` (R180). -/
def State.tickProc (s : State) : State :=
  ((s.setVoices ((tickSlots s).map Prod.fst)).setMix s.tickMix).emit s.tickSample

/-- TICK (R186). -/
def execTick (s : State) : Host.Outcome State Fault Refusal := .next s.tickProc.advance

/-- `u` ticks in a row (R187). -/
def State.ticks : Nat → State → State
  | 0, s => s
  | u + 1, s => State.ticks u s.tickProc

/-- RENDER (R187): one command, so CP advances once. -/
def execRender (u : Nat) (s : State) : Host.Outcome State Fault Refusal := .next (s.ticks u).advance

/-- SET_GAIN (R188). -/
def execSetGain (imm : BitVec 32) (s : State) : Host.Outcome State Fault Refusal :=
  finishSetter (.setGain imm) (sanUnit s.fmt s.cfg.nanPolicy (s.fmt.toFLT imm)) (fun x t => { t with gain := x }) s

end Sys2Proof.Machine
end

