-- ==== Sys2Proof/Machine/VoicePool.lean ====
section
/-! DEFINITION. The voice pool (43_voice_pool.md): RETRIGGER, CLAIM, STEAL_INDEX (R151 to R153), NOTE_ON
(R154), NOTE_OFF (R156), SUSTAIN_PEDAL (R158) and SET_POLY (R160). -/

namespace Sys2Proof.Machine

/-- `RETRIGGER` (R151) of one slot: the note, `active` and the phase are not written. -/
def retrigger (s : State) (f vel : Flt) (v : Voice) : Voice :=
  { v.press with
    freqTarget := f
    freqCurrent := if s.glideOff then f else v.freqCurrent
    env := Flt.zero
    velocity := vel }

/-- `CLAIM` (R152) of one slot; with glide on, the old pitch is kept but floored at 20 Hz. -/
def claim (s : State) (note : Nat) (f vel : Flt) (v : Voice) : Voice :=
  { v.press with
    note := BitVec.ofNat 7 note
    active := true
    freqTarget := f
    freqCurrent := if s.glideOff then f else s.fmt.max v.freqCurrent s.fmt.glideFloor
    phase := Flt.zero
    env := Flt.zero
    velocity := vel }

/-- The scan of STEAL_INDEX (R153) over the slots from index `i` on, `best` being the index of the
lowest envelope so far, `bestEnv`. The comparison is strict: the first minimum wins. -/
def stealScan (F : FltFormat) (best : Nat) (bestEnv : Flt) (i : Nat) : List Voice → Nat
  | [] => best
  | v :: vs =>
    if F.lt v.env bestEnv then stealScan F i v.env (i + 1) vs else stealScan F best bestEnv (i + 1) vs

/-- `STEAL_INDEX` (R153). -/
def stealIndex (F : FltFormat) : List Voice → Nat
  | [] => 0
  | v :: vs => stealScan F 0 v.env 1 vs

/-- The slot an active voice of the note holds, the lowest (R154 step 1, D24). -/
def State.findNote (note : Nat) (s : State) : Option Nat := s.voices.findIdx? (Voice.holds note)

/-- The first inactive slot (R154 step 2). -/
def State.findFree (s : State) : Option Nat := s.voices.findIdx? fun v => !v.active

/-- NOTE_ON's effect on the state, CP apart (R154). -/
def State.noteOn (note vel : Nat) (s : State) : State :=
  match s.findNote note with
  | some j => s.modifySlot j (retrigger s (FREQ s.fmt note) (VELSCALE s.fmt vel))
  | none =>
    match s.findFree with
    | some k => s.modifySlot k (claim s note (FREQ s.fmt note) (VELSCALE s.fmt vel))
    | none => s.modifySlot (stealIndex s.fmt s.voices) (claim s note (FREQ s.fmt note) (VELSCALE s.fmt vel))

/-- NOTE_ON (R154). -/
def execNoteOn (note vel : Nat) (s : State) : Host.Outcome State Fault Refusal :=
  .next (s.noteOn note vel).advance

/-- One slot under NOTE_OFF (R156). -/
def releaseNote (note : Nat) (pedal : Bool) (v : Voice) : Voice :=
  if v.holds note then v.keyUp pedal else v

/-- NOTE_OFF (R156). -/
def execNoteOff (note : Nat) (s : State) : Host.Outcome State Fault Refusal :=
  .next (s.setVoices (s.voices.map (releaseNote note s.pedal))).advance

/-- The voice file after SUSTAIN_PEDAL: the release loop runs only on a transition to released, and over
every slot (R158, D33). -/
def pedalVoices (was down : Bool) (vs : List Voice) : List Voice :=
  if was && !down then vs.map Voice.pedalUp else vs

/-- SUSTAIN_PEDAL (R158). -/
def execSustainPedal (down : Bool) (s : State) : Host.Outcome State Fault Refusal :=
  .next { s.setVoices (pedalVoices s.pedal down s.voices) with pedal := down }.advance

/-- SET_POLY (R160). -/
def execSetPoly (u : Nat) (s : State) : Host.Outcome State Fault Refusal :=
  .next (s.setVoices (resize (clampCap u) s.voices)).advance

end Sys2Proof.Machine
end

