-- ==== Sys2Proof/Machine/Dispatch.lean ====
section
/-! DEFINITION. The dispatch of a decoded command to its meaning, one arm per command (R73). -/

namespace Sys2Proof.Machine

def exec (i : Instr) (s : State) : Host.Outcome State Fault Refusal :=
  match i with
  | .noteOn note vel => Sys2Proof.Machine.execNoteOn note vel s
  | .noteOff note => Sys2Proof.Machine.execNoteOff note s
  | .sustainPedal down => Sys2Proof.Machine.execSustainPedal down s
  | .setWave u => Sys2Proof.Machine.execSetWave u s
  | .setAttack imm => Sys2Proof.Machine.execSetAttack imm s
  | .setDecay imm => Sys2Proof.Machine.execSetDecay imm s
  | .setSustain imm => Sys2Proof.Machine.execSetSustain imm s
  | .setRelease imm => Sys2Proof.Machine.execSetRelease imm s
  | .setGlide imm => Sys2Proof.Machine.execSetGlide imm s
  | .setGain imm => Sys2Proof.Machine.execSetGain imm s
  | .setPoly u => Sys2Proof.Machine.execSetPoly u s
  | .tick => Sys2Proof.Machine.execTick s
  | .render u => Sys2Proof.Machine.execRender u s

end Sys2Proof.Machine
end

