-- ==== Sys2Proof/Machine/Step.lean ====
section
/-! DEFINITION. One step of the block: the first of the host's moves not yet taken (R53, R55, R80). -/

namespace Sys2Proof.Machine

/-- One step. With nothing sent, the block does nothing and keeps all state (R216). A RESET is taken in
any STATUS (R220). A command word executes only while STATUS is Running (R80): it is decoded, an
illegal word is refused (R79), and a decoded command has its meaning. While Refused a word has no
effect (R202; log entry 11). -/
def step (s : State) : Host.Outcome State Fault Refusal :=
  match s.input with
  | [] => .next s
  | .reset c :: rest => .next ((s.withInput rest).doReset c)
  | .command w :: rest =>
    match s.status with
    | .refused _ _ => .next (s.withInput rest)
    | .running =>
      match decode w with
      | .illegal r => .next ((s.withInput rest).refuse (.word w) r)
      | .ok i => exec i (s.withInput rest)

/-- The state with the word, numbered as the opcode table numbers it, as the host's next move, and
STATUS Running, without which no word executes (R80). -/
def State.withFetchWord (s : State) (nbits w : Nat) : State :=
  { s with input := .command (tableWord nbits w) :: s.input, status := .running }

end Sys2Proof.Machine
end

