-- ==== Sys2Proof/Machine/Assembler.lean ====
section
/-! DEFINITION. The assembler of R81 and the pseudo-commands of R82, over lists of characters. It is how
a program is written for the block; no step of the block uses it. What R81 leaves open about the text
(where blanks may stand, the shape of a decimal literal) is log entry 19. -/

namespace Sys2Proof.Machine

/-! ### Characters and numbers -/

def isBlank (c : Char) : Bool := c == ' ' || c == '\t'

/-- The text before a comment (R81). -/
def stripComment (cs : List Char) : List Char := cs.takeWhile fun c => c != ';'

/-- Without blanks at either end. -/
def trimBlanks (cs : List Char) : List Char :=
  ((cs.dropWhile isBlank).reverse.dropWhile isBlank).reverse

/-- The pieces between the separators `sep`. -/
def splitAtChar (sep : Char) : List Char → List (List Char)
  | [] => [[]]
  | c :: cs =>
    if c == sep then [] :: splitAtChar sep cs
    else
      match splitAtChar sep cs with
      | [] => [[c]]
      | p :: ps => (c :: p) :: ps

/-- The value of a hexadecimal digit. -/
def hexDigit (c : Char) : Option Nat :=
  if '0' ≤ c ∧ c ≤ '9' then some (c.toNat - '0'.toNat)
  else if 'a' ≤ c ∧ c ≤ 'f' then some (c.toNat - 'a'.toNat + 10)
  else if 'A' ≤ c ∧ c ≤ 'F' then some (c.toNat - 'A'.toNat + 10)
  else none

/-- The value of digits in `base`, most significant first, after a prefix worth `acc`. -/
def digitsFrom (base acc : Nat) : List Char → Option Nat
  | [] => some acc
  | c :: cs =>
    match hexDigit c with
    | some d => if d < base then digitsFrom base (acc * base + d) cs else none
    | none => none

/-- At least one digit. -/
def parseDigits (base : Nat) (cs : List Char) : Option Nat :=
  if cs.isEmpty then none else digitsFrom base 0 cs

/-- An integer operand: decimal or `0x` hexadecimal (R81). -/
def parseInt : List Char → Option Nat
  | '0' :: 'x' :: cs => parseDigits 16 cs
  | cs => parseDigits 10 cs

/-- A decimal literal without its sign, rounded to the nearest binary32, ties to even (R81). -/
def parseDecimal (neg : Bool) (cs : List Char) : Option (BitVec 32) :=
  match splitAtChar '.' cs with
  | [whole] => (parseDigits 10 whole).map fun n => (FltFormat.binary32.ofRat neg n 1).bits32
  | [whole, frac] =>
    if whole.isEmpty || frac.isEmpty then none
    else (parseDigits 10 (whole ++ frac)).map fun n => (FltFormat.binary32.ofRat neg n (10 ^ frac.length)).bits32
  | _ => none

/-- A float operand: a decimal literal, or `f:0xHHHHHHHH`, the 32 bits exactly (R81). -/
def parseFloat : List Char → Option (BitVec 32)
  | 'f' :: ':' :: '0' :: 'x' :: cs =>
    if cs.length == 8 then (parseDigits 16 cs).map (BitVec.ofNat 32) else none
  | '-' :: cs => parseDecimal true cs
  | cs => parseDecimal false cs

/-! ### Pseudo-commands (R82) -/

inductive Pseudo where
  | pedalDown
  | pedalUp
  | setAdsr (a d s r : BitVec 32)
  | setWave (w : Wave)
  deriving DecidableEq, Repr

/-- The code of a waveform (R35). -/
def waveCode : Wave → Nat
  | .sine => 0
  | .square => 1
  | .saw => 2
  | .tri => 3

/-- The commands a pseudo-command stands for, in order (R82). -/
def Pseudo.expand : Pseudo → List Instr
  | .pedalDown => [.sustainPedal true]
  | .pedalUp => [.sustainPedal false]
  | .setAdsr a d s r => [.setAttack a, .setDecay d, .setSustain s, .setRelease r]
  | .setWave w => [.setWave (waveCode w)]

/-! ### Lines -/

/-- A mnemonic's text (R73), or a pseudo-command's (R82). -/
inductive Head where
  | op (o : Op)
  | pedalDown | pedalUp | setAdsr
  | setWave (w : Wave)
  deriving DecidableEq, Repr

/-- Every mnemonic with its text. -/
def heads : List (List Char × Head) :=
  [ ("NOTE_ON".toList, .op .noteOn), ("NOTE_OFF".toList, .op .noteOff),
    ("SUSTAIN_PEDAL".toList, .op .sustainPedal), ("SET_WAVE".toList, .op .setWave),
    ("SET_ATTACK".toList, .op .setAttack), ("SET_DECAY".toList, .op .setDecay),
    ("SET_SUSTAIN".toList, .op .setSustain), ("SET_RELEASE".toList, .op .setRelease),
    ("SET_GLIDE".toList, .op .setGlide), ("SET_GAIN".toList, .op .setGain),
    ("SET_POLY".toList, .op .setPoly), ("TICK".toList, .op .tick), ("RENDER".toList, .op .render),
    ("PEDAL_DOWN".toList, .pedalDown), ("PEDAL_UP".toList, .pedalUp), ("SET_ADSR".toList, .setAdsr),
    ("SET_WAVE_SINE".toList, .setWave .sine), ("SET_WAVE_SQUARE".toList, .setWave .square),
    ("SET_WAVE_SAW".toList, .setWave .saw), ("SET_WAVE_TRI".toList, .setWave .tri) ]

/-- A pedal operand: 0 or 1 (R81). -/
def parsePedal (cs : List Char) : Option Bool :=
  match parseInt cs with
  | some 0 => some false
  | some 1 => some true
  | _ => none

/-- The commands of one line, from its mnemonic and its operands, by format (R81, R82). -/
def parseLine (h : Head) (ops : List (List Char)) : Option (List Instr) :=
  match h, ops with
  | .op .noteOn, [a, b] => (parseInt a).bind fun n => (parseInt b).map fun v => [.noteOn n v]
  | .op .noteOff, [a] => (parseInt a).map fun n => [.noteOff n]
  | .op .sustainPedal, [a] => (parsePedal a).map fun d => [.sustainPedal d]
  | .op .setWave, [a] => (parseInt a).map fun u => [.setWave u]
  | .op .setAttack, [a] => (parseFloat a).map fun x => [.setAttack x]
  | .op .setDecay, [a] => (parseFloat a).map fun x => [.setDecay x]
  | .op .setSustain, [a] => (parseFloat a).map fun x => [.setSustain x]
  | .op .setRelease, [a] => (parseFloat a).map fun x => [.setRelease x]
  | .op .setGlide, [a] => (parseFloat a).map fun x => [.setGlide x]
  | .op .setGain, [a] => (parseFloat a).map fun x => [.setGain x]
  | .op .setPoly, [a] => (parseInt a).map fun u => [.setPoly u]
  | .op .tick, [] => some [.tick]
  | .op .render, [a] => (parseInt a).map fun u => [.render u]
  | .pedalDown, [] => some Pseudo.pedalDown.expand
  | .pedalUp, [] => some Pseudo.pedalUp.expand
  | .setAdsr, [a, d, s, r] =>
    (parseFloat a).bind fun a => (parseFloat d).bind fun d => (parseFloat s).bind fun s =>
      (parseFloat r).map fun r => (Pseudo.setAdsr a d s r).expand
  | .setWave w, [] => some (Pseudo.setWave w).expand
  | _, _ => none

/-- The operand texts after a mnemonic: none, or comma-separated. -/
def operandTexts (cs : List Char) : List (List Char) :=
  if (trimBlanks cs).isEmpty then [] else (splitAtChar ',' cs).map trimBlanks

/-- A line without its comment and its outer blanks. -/
def lineText (line : List Char) : List Char := trimBlanks (stripComment line)

/-- The mnemonic of a line. -/
def lineHead (line : List Char) : Option Head := heads.lookup ((lineText line).takeWhile fun c => !isBlank c)

/-- The operand texts of a line. -/
def lineOperands (line : List Char) : List (List Char) :=
  operandTexts ((lineText line).dropWhile fun c => !isBlank c)

/-- The commands a line spells, whatever integers it gives them. An empty line or a comment spells none. -/
def spelledCommands (line : List Char) : Option (List Instr) :=
  if (lineText line).isEmpty then some [] else (lineHead line).bind fun h => parseLine h (lineOperands line)

/-- The commands of one line of text; `none` where the assembler refuses it: where it spells no command, or
gives one an integer operand outside its field (R81). -/
def assembleLine (line : List Char) : Option (List Instr) :=
  (spelledCommands line).bind fun is => if is.all Instr.wf then some is else none

/-- The command words of a program's lines, in order; `none` where a line is refused. -/
def assembleLines : List (List Char) → Option (List Word)
  | [] => some []
  | l :: ls =>
    match assembleLine l, assembleLines ls with
    | some is, some ws => some (is.map encode ++ ws)
    | _, _ => none

/-- The command words of a program's text, one line each. -/
def assemble (text : List Char) : Option (List Word) := assembleLines (splitAtChar '\n' text)

end Sys2Proof.Machine
end

