-- ==== Sys2Proof/Safety.lean ====
section
/-! DEFINITION. What holds of the block between commands (R32, R33, R34), in the terms the claims use,
and what a completed run is (R202). -/

namespace Sys2Proof.Machine

/-- A slot's invariants: the envelope is in [0,1] (R32 item 2), the velocity too (R30); key_down implies
gate and gate implies active (R33 items 1, 2); an inactive slot's envelope is 0 (R32 item 3, R33 item 3). -/
structure Voice.Ok (F : FltFormat) (v : Voice) : Prop where
  env      : F.unit v.env = true
  velocity : F.unit v.velocity = true
  key_gate : v.keyDown = true → v.gate = true
  gate_act : v.gate = true → v.active = true
  silent   : v.active = false → v.env = Flt.zero

/-- At most one active slot holds a note (R32 item 1). -/
abbrev uniqueNotes (vs : List Voice) : Prop :=
  vs.Pairwise fun a b => ¬(a.active = true ∧ b.active = true ∧ a.note = b.note)

/-- The parameters of R9 are in their ranges: times at least 0, sustain and gain in [0,1]. -/
structure ConfigOk (c : Config) : Prop where
  decay   : c.fmt.nonneg c.defaultDecay = true
  sustain : c.fmt.unit c.defaultSustain = true
  release : c.fmt.nonneg c.defaultRelease = true
  glide   : c.fmt.nonneg c.defaultGlideMs = true
  gain    : c.fmt.unit c.defaultGain = true

/-- The parameter registers hold legal values (R34), SR is positive and finite and DT is 1/SR (R44). -/
structure ParamsOk (s : State) : Prop where
  attack  : s.fmt.nonneg s.attack = true
  decay   : s.fmt.nonneg s.decay = true
  sustain : s.fmt.unit s.sustain = true
  release : s.fmt.nonneg s.release = true
  glide   : s.fmt.nonneg s.glide = true
  gain    : s.fmt.unit s.gain = true
  sr      : s.fmt.posFinite s.sr = true
  dt      : s.dt = s.fmt.div s.fmt.one s.sr

/-- The invariant of the block: the capacity is 1 to 32 (R22, R42), every slot is as `Voice.Ok` says,
notes are unique among active slots, and the parameters are legal. -/
structure Inv (s : State) : Prop where
  cap_pos : 1 ≤ s.cap
  cap_max : s.cap ≤ 32
  voices  : ∀ v ∈ s.voices, v.Ok s.fmt
  unique  : uniqueNotes s.voices
  params  : ParamsOk s
  config  : ConfigOk s.cfg

/-- MIX is at least 1/32 and at most 1 (R33 item 5). -/
def mixInRange (F : FltFormat) (m : Flt) : Bool := F.le (F.ofRat false 1 32) m && F.le m F.one

/-- R33 item 5: MIX is in [1/32, 1] when MIX_GAIN_INIT is. The rule says so of exact arithmetic; in FLT it
holds of the stored values while DT is at most 1, that is from a sample rate of 1 Hz on (log entry 29). -/
structure MixInv (s : State) : Prop where
  init : mixInRange s.fmt s.cfg.mixGainInit = true
  mix  : s.fmt.le s.dt s.fmt.one = true → mixInRange s.fmt s.mix = true

/-- A slot's pitch, as R15 alone gives it: an active slot's target frequency is above zero (R33 item 4), no
frequency is below zero, and the phase is in [0, TWO_PI) (R32 item 4) or a NaN. A NaN needs a frequency
that is not finite, which only a POW2 far above the real 2^x can give: R15 does not exclude it (log
entry 21). -/
structure Voice.PitchOk (F : FltFormat) (v : Voice) : Prop where
  above   : v.active = true → F.gt v.freqTarget Flt.zero = true
  target  : F.notNeg v.freqTarget = true
  current : F.notNeg v.freqCurrent = true
  phase   : F.isNaN v.phase = true ∨ F.inRange F.twoPi v.phase = true

/-- The pitch invariant of the block. -/
structure PitchInv (s : State) : Prop where
  voices : ∀ v ∈ s.voices, v.PitchOk s.fmt
  glide  : s.fmt.nonneg s.glide = true
  config : s.fmt.nonneg s.cfg.defaultGlideMs = true
  sr     : s.fmt.posFinite s.sr = true
  dt     : s.dt = s.fmt.div s.fmt.one s.sr

/-- From 8 Hz to 16384 Hz: where every note's frequency lies with a POW2 near the real 2^x (R130 gives
8.1757984 for note 0 and 12543.855 for note 127; log entry 21). -/
def tuned (F : FltFormat) (f : Flt) : Bool := F.le (F.ofNat 8) f && F.le f (F.ofNat 16384)

/-- A slot of a tuned block: an active slot's target is tuned and its current frequency is above zero, as its
target is (R33 item 4); every slot's current frequency is at most 32768 Hz, room for the rounding of a
glide step, and its phase is in [0, TWO_PI) (R32 item 4). -/
structure Voice.TunedOk (F : FltFormat) (v : Voice) : Prop where
  target  : v.active = true → tuned F v.freqTarget = true
  current : v.active = true → F.gt v.freqCurrent Flt.zero = true
  ceiling : F.le v.freqCurrent (F.ofNat 32768) = true
  phase   : F.inRange F.twoPi v.phase = true

/-- Every slot is that of a tuned block (R32 item 4, R33 item 4). -/
def TunedInv (s : State) : Prop := ∀ v ∈ s.voices, v.TunedOk s.fmt

/-- If the host's next move is a NOTE_ON, its note has a tuned frequency. -/
def State.movesInTune (s : State) : Prop :=
  ∀ (w : Word) (rest : List HostInput) (note vel : Nat),
    s.input = .command w :: rest → decode w = .ok (.noteOn note vel) → tuned s.fmt (FREQ s.fmt note) = true

/-- A run is complete when every move of the host has been taken and STATUS is Running: a refused state
is never final (R202). -/
def State.completed (s : State) : Prop := s.input = [] ∧ s.status = .running

/-- How many slots are active (R155). -/
def State.activeCount (s : State) : Nat := s.voices.countP fun v => v.active

end Sys2Proof.Machine
end

