-- ==== Sys2Proof/Certificates/Slice0/Obligations.lean ====
section
/-! DEFINITION. The statements about the model, each formalising what a rule of spec/ says an instruction
or the machine does. Values that are the model's choice (log entries 1 to 8) are held in `cfg` or are
free; a statement that rests on a choice says so. -/

open Sys2Proof Sys2Proof.Machine

/-! ### Encoding (30_encoding.md, 20_memory.md) -/

/-- R65 to R75: every command that can be spelled decodes to itself, each operand at every value its
field admits. -/
def Obligations.DecodeOfEncodeIsInstr : Prop :=
  ∀ i : Instr, i.wf = true → decode (encode i) = .ok i

/-- R65, R66, R75: what a word decodes to can be spelled, and its encoding is that word, so decoding
drops no bit. -/
def Obligations.EncodeOfDecodedIsWord : Prop :=
  ∀ (w : Word) (i : Instr), decode w = .ok i → i.wf = true ∧ encode i = w

/-- R74: the table, that its match and mask select the command, and that no two rows match one word. -/
def Obligations.MatchAndMaskSelectTheCommand : Prop :=
  (opcodeTable.map fun r => (r.op, r.matchWord, r.mask)) =
      [ (.noteOn,       0x0100000000000000#64, 0xFF8080FFFFFFFFFF#64),
        (.noteOff,      0x0200000000000000#64, 0xFF80FFFFFFFFFFFF#64),
        (.sustainPedal, 0x0300000000000000#64, 0xFFFFFFFFFFFFFFFE#64),
        (.setWave,      0x1000000000000000#64, 0xFFFFFFFF00000000#64),
        (.setAttack,    0x1100000000000000#64, 0xFFFFFFFF00000000#64),
        (.setDecay,     0x1200000000000000#64, 0xFFFFFFFF00000000#64),
        (.setSustain,   0x1300000000000000#64, 0xFFFFFFFF00000000#64),
        (.setRelease,   0x1400000000000000#64, 0xFFFFFFFF00000000#64),
        (.setGlide,     0x1500000000000000#64, 0xFFFFFFFF00000000#64),
        (.setGain,      0x1600000000000000#64, 0xFFFFFFFF00000000#64),
        (.setPoly,      0x1700000000000000#64, 0xFFFFFFFF00000000#64),
        (.tick,         0x2000000000000000#64, 0xFFFFFFFFFFFFFFFF#64),
        (.render,       0x2100000000000000#64, 0xFFFFFFFF00000000#64) ] ∧
    (∀ r ∈ opcodeTable, ∀ w : Word,
      w &&& r.mask = r.matchWord ↔ decode w = .ok (r.op.assemble w)) ∧
    (∀ r ∈ opcodeTable, ∀ r' ∈ opcodeTable, ∀ w : Word,
      w &&& r.mask = r.matchWord → w &&& r'.mask = r'.matchWord → r = r')

/-- R76: the unassigned opcodes, 243 of them, are exactly the illegal ones, and the all-zero word is
illegal. -/
def Obligations.UnassignedOpcodesAreIllegal : Prop :=
  (∀ w : Word, decode w = .illegal .unassignedOpcode ↔
    (field w 63 56 = 0x00 ∨ (0x04 ≤ field w 63 56 ∧ field w 63 56 ≤ 0x0F) ∨
      (0x18 ≤ field w 63 56 ∧ field w 63 56 ≤ 0x1F) ∨ 0x22 ≤ field w 63 56)) ∧
  ((List.range 256).countP fun op =>
    op == 0x00 || (0x04 ≤ op && op ≤ 0x0F) || (0x18 ≤ op && op ≤ 0x1F) || 0x22 ≤ op) = 243 ∧
  decode 0x0000000000000000#64 = .illegal .unassignedOpcode

/-- R66, R77: a word with an assigned OP is illegal exactly when a bit that its format marks 0 is set:
bit 55, bit 47 and bits 39:32 in every format; NOTE outside FMT_N and FMT_K; VEL outside FMT_N; IMM in
FMT_N, FMT_K and FMT_Z; bits 31:1 in FMT_B. -/
def Obligations.ReservedBitsAreIllegal : Prop :=
  ∀ w : Word, decode w = .illegal .reservedBitNonZero ↔
    (field w 63 56 ∈ [0x01, 0x02, 0x03, 0x10, 0x11, 0x12, 0x13, 0x14, 0x15, 0x16, 0x17, 0x20, 0x21] ∧
      (field w 55 55 ≠ 0 ∨ field w 47 47 ≠ 0 ∨ field w 39 32 ≠ 0 ∨
        (field w 63 56 ∉ [0x01, 0x02] ∧ field w 54 48 ≠ 0) ∨
        (field w 63 56 ≠ 0x01 ∧ field w 46 40 ≠ 0) ∨
        (field w 63 56 ∈ [0x01, 0x02, 0x20] ∧ field w 31 0 ≠ 0) ∨
        (field w 63 56 = 0x03 ∧ field w 31 1 ≠ 0)))

/-- R83: the worked encodings: each line assembles to its word, and each word decodes to its command. -/
def Obligations.WorkedEncodingsDecode : Prop :=
  assemble ("NOTE_ON 60, 100\nNOTE_ON 69, 127\nNOTE_ON 127, 127\nNOTE_OFF 60\nSUSTAIN_PEDAL 1\n" ++
    "SUSTAIN_PEDAL 0\nSET_WAVE 2\nSET_ATTACK 0.005\nSET_ATTACK -1.0\nSET_SUSTAIN 0.5\nSET_GLIDE 3.90625\n" ++
    "SET_GAIN 1.0\nSET_POLY 8\nTICK\nRENDER 100").toList =
      some [0x013C640000000000#64, 0x01457F0000000000#64, 0x017F7F0000000000#64, 0x023C000000000000#64,
        0x0300000000000001#64, 0x0300000000000000#64, 0x1000000000000002#64, 0x110000003BA3D70A#64,
        0x11000000BF800000#64, 0x130000003F000000#64, 0x15000000407A0000#64, 0x160000003F800000#64,
        0x1700000000000008#64, 0x2000000000000000#64, 0x2100000000000064#64] ∧
  decode 0x013C640000000000#64 = .ok (.noteOn 60 100) ∧
  decode 0x01457F0000000000#64 = .ok (.noteOn 69 127) ∧
  decode 0x017F7F0000000000#64 = .ok (.noteOn 127 127) ∧
  decode 0x023C000000000000#64 = .ok (.noteOff 60) ∧
  decode 0x0300000000000001#64 = .ok (.sustainPedal true) ∧
  decode 0x0300000000000000#64 = .ok (.sustainPedal false) ∧
  decode 0x1000000000000002#64 = .ok (.setWave 2) ∧
  decode 0x110000003BA3D70A#64 = .ok (.setAttack 0x3BA3D70A#32) ∧
  decode 0x11000000BF800000#64 = .ok (.setAttack 0xBF800000#32) ∧
  decode 0x130000003F000000#64 = .ok (.setSustain 0x3F000000#32) ∧
  decode 0x15000000407A0000#64 = .ok (.setGlide 0x407A0000#32) ∧
  decode 0x160000003F800000#64 = .ok (.setGain 0x3F800000#32) ∧
  decode 0x1700000000000008#64 = .ok (.setPoly 8) ∧
  decode 0x2000000000000000#64 = .ok .tick ∧
  decode 0x2100000000000064#64 = .ok (.render 100) ∧
  decode 0x0000000000000000#64 = .illegal .unassignedOpcode ∧
  decode 0x023C010000000000#64 = .illegal .reservedBitNonZero

/-- R51, R52: a word is carried as 8 bytes, least significant first; reading them back gives the word's
decoding and the bytes after it; fewer than 8 bytes deliver no command; a stream of words is read back
whole; an OUT sample is carried as the 4 bytes of its binary32 encoding, least significant first, and the
encoding of what a payload gives (R70) is that payload, a NaN apart: a binary32 sample's is its own pattern. -/
def Obligations.ByteTransportDeliversTheWords : Prop :=
  (∀ (w : Word) (k : Nat), k < 8 → (bytesOfWord w)[k]? = some (w.extractLsb' (8 * k) 8)) ∧
  (∀ (w : Word) (rest : List Byte), decodeBytes (bytesOfWord w ++ rest) = some (decode w, rest)) ∧
  (∀ bs : List Byte, bs.length < 8 → decodeBytes bs = none) ∧
  (∀ (ws : List Word) (bs : List Byte), bs.length < 8 → wordsOfBytes (ws.flatMap bytesOfWord ++ bs) = ws) ∧
  (∀ (F : FltFormat) (y : Flt) (k : Nat), k < 4 →
    (sampleBytes F y)[k]? = some ((F.toBits32 y).extractLsb' (8 * k) 8)) ∧
  (∀ (F : FltFormat) (b : BitVec 32), FltFormat.binary32.isNaN (Flt.ofBits32 b) = false →
    F.toBits32 (F.toFLT b) = b)

/-- R82: the pseudo-commands, as the assembler reads them. -/
def Obligations.PseudoCommandsExpand : Prop :=
  assembleLine "PEDAL_DOWN".toList = some [.sustainPedal true] ∧
  assembleLine "PEDAL_UP".toList = some [.sustainPedal false] ∧
  (∀ a d s r : BitVec 32, (Pseudo.setAdsr a d s r).expand =
    [.setAttack a, .setDecay d, .setSustain s, .setRelease r]) ∧
  assembleLine "SET_ADSR 0.0078125, 0.015625, 0.5, 0.00390625".toList =
    some [.setAttack 0x3C000000#32, .setDecay 0x3C800000#32, .setSustain 0x3F000000#32,
      .setRelease 0x3B800000#32] ∧
  assembleLine "SET_WAVE_SINE".toList = some [.setWave 0] ∧
  assembleLine "SET_WAVE_SQUARE".toList = some [.setWave 1] ∧
  assembleLine "SET_WAVE_SAW".toList = some [.setWave 2] ∧
  assembleLine "SET_WAVE_TRI".toList = some [.setWave 3]

/-- R81: the assembler refuses an integer operand outside its field (a note or velocity above 127, a pedal
operand other than 0 or 1, a `u` above 2^32-1) and takes every one inside it; it gives only commands that
can be spelled; a text with a refused line is refused, and every word of an accepted one is the encoding
of the command it decodes to. -/
def Obligations.AssembledWordsAreLegal : Prop :=
  (∀ (line a : List Char) (n : Nat), parseInt a = some n →
    (∀ (b : List Char) (v : Nat), lineHead line = some (.op .noteOn) → lineOperands line = [a, b] →
      parseInt b = some v → assembleLine line = if n ≤ 127 ∧ v ≤ 127 then some [.noteOn n v] else none) ∧
    (lineOperands line = [a] →
      (lineHead line = some (.op .noteOff) → assembleLine line = if n ≤ 127 then some [.noteOff n] else none) ∧
      (lineHead line = some (.op .sustainPedal) → assembleLine line =
        if n = 0 then some [.sustainPedal false] else if n = 1 then some [.sustainPedal true] else none) ∧
      (lineHead line = some (.op .setWave) →
        assembleLine line = if n ≤ 2 ^ 32 - 1 then some [.setWave n] else none) ∧
      (lineHead line = some (.op .setPoly) →
        assembleLine line = if n ≤ 2 ^ 32 - 1 then some [.setPoly n] else none) ∧
      (lineHead line = some (.op .render) →
        assembleLine line = if n ≤ 2 ^ 32 - 1 then some [.render n] else none))) ∧
  (∀ (line : List Char) (is : List Instr), spelledCommands line = some is →
    assembleLine line = if ∃ i ∈ is, i.wf = false then none else some is) ∧
  (∀ (text line : List Char), line ∈ splitAtChar '\n' text → assembleLine line = none → assemble text = none) ∧
  (∀ (text : List Char) (ws : List Word), assemble text = some ws →
    ∀ w ∈ ws, ∃ i : Instr, i.wf = true ∧ encode i = w ∧ decode w = .ok i)

/-! ### The step (R79, R80, R202, R216, R220, R221) -/

/-- R80: while STATUS is Running, a word that decodes runs as its command, the word being taken from
the host's moves first. -/
def Obligations.StepRunsDecodedCommand : Prop :=
  ∀ (s : State) (w : Word) (rest : List HostInput) (i : Instr),
    s.status = .running → s.input = .command w :: rest → decode w = .ok i →
    step s = exec i { s with input := rest }

/-- R79: an illegal word sets STATUS to Refused with the word and the decoder's reason and changes no
other state (that the word is taken from the host's moves is log entry 10, the model's reading); a word
sent next does not execute (that it too is taken, without effect, is log entry 11, the model's choice). -/
def Obligations.IllegalWordIsRefused : Prop :=
  ∀ (s : State) (w : Word) (rest : List HostInput) (r : RefusalReason),
    s.status = .running → s.input = .command w :: rest → decode w = .illegal r →
    step s = .next { s with input := rest, status := .refused (.word w) r } ∧
    (∀ (w' : Word) (later : List HostInput), rest = .command w' :: later →
      step { s with input := rest, status := .refused (.word w) r } =
        .next { s with input := later, status := .refused (.word w) r })

/-- R202, R216: after a refusal no command executes and STATUS stays Refused: a word sent then has no
effect (that it is taken is log entry 11, the model's choice); with nothing sent nothing changes. -/
def Obligations.RefusedBlockExecutesNothing : Prop :=
  (∀ (s : State) (w : Word) (rest : List HostInput) (info : RefusalInfo) (r : RefusalReason),
    s.status = .refused info r → s.input = .command w :: rest → step s = .next { s with input := rest }) ∧
  (∀ s : State, s.input = [] → step s = .next s)

/-- R220: RESET, in any STATUS, with SR positive and finite, sets every piece of state. Otherwise it is refused
(R221) and sets STATUS alone, as R202 says of a refusal: that the voices and OUT survive it is log entry
15, the model's reading. That the RESET is taken from the host's moves is log entry 10. -/
def Obligations.ResetSetsEveryRegister : Prop :=
  ∀ (s : State) (c : ResetConfig) (rest : List HostInput), s.input = .reset c :: rest →
    step s = .next (if s.fmt.isFinite c.sr && s.fmt.gt c.sr Flt.zero then
      { voices := List.replicate (min (max c.cap0 1) 32).toNat Voice.reset
        wave := s.cfg.defaultWave
        attack := s.fmt.ofRat false 5 1000
        decay := s.cfg.defaultDecay
        sustain := s.cfg.defaultSustain
        release := s.cfg.defaultRelease
        glide := s.fmt.div s.cfg.defaultGlideMs (s.fmt.ofNat 1000)
        gain := s.cfg.defaultGain
        pedal := false
        sr := c.sr
        dt := s.fmt.div s.fmt.one c.sr
        mix := s.cfg.mixGainInit
        out := []
        status := .running
        cp := 0
        input := rest
        cfg := s.cfg }
      else { s with input := rest, status := .refused (.config c) .badResetConfig })

/-- R221: an SR that is zero, negative, a NaN or infinite is refused with BadResetConfig, whatever CAP0
is, and a command sent next does not execute; with any other SR no CAP0 is refused: it is clamped. That the
refused RESET leaves every state but STATUS is log entry 15, and that the command sent next is taken without
effect is log entry 11: the model's reading and choice. -/
def Obligations.BadSampleRateIsRefused : Prop :=
  ∀ (s : State) (c : ResetConfig) (rest : List HostInput), s.input = .reset c :: rest →
    ((c.sr.isZero = true ∨ c.sr.sgn = true ∨ s.fmt.isNaN c.sr = true ∨ s.fmt.isInf c.sr = true) →
      step s = .next { s with input := rest, status := .refused (.config c) .badResetConfig } ∧
      (∀ (w : Word) (later : List HostInput), rest = .command w :: later →
        step { s with input := rest, status := .refused (.config c) .badResetConfig } =
          .next { s with input := later, status := .refused (.config c) .badResetConfig })) ∧
    (¬(c.sr.isZero = true ∨ c.sr.sgn = true ∨ s.fmt.isNaN c.sr = true ∨ s.fmt.isInf c.sr = true) →
      ∃ t, step s = .next t ∧ t.status = .running ∧ t.cap = (min (max c.cap0 1) 32).toNat)

/-- R200, R201: nothing the host sends raises an exception or makes the block fail: every state steps to a next
state. R201 gives a refused word, setter or RESET the outcome Refused; that this too is a next state, whose
STATUS is Refused, is the model's reading (log entry 14), on which the statement rests. -/
def Obligations.EveryStepAnswersNext : Prop :=
  ∀ s : State, ∃ t, step s = .next t

/-- R47, R80, R111: a command either completes, leaving STATUS and advancing CP by exactly 1, or is one of
the six real-valued setters with a NaN payload under NAN_POLICY = Refuse, which changes STATUS alone. -/
def Obligations.CpAdvancesPerCompletedCommand : Prop :=
  ∀ (i : Instr) (s t : State), exec i s = .next t →
    (t.status = s.status ∧ t.cp = s.cp + 1) ∨
      (∃ imm : BitVec 32,
        i ∈ [.setAttack imm, .setDecay imm, .setSustain imm, .setRelease imm, .setGlide imm, .setGain imm] ∧
        s.fmt.isNaN (s.fmt.toFLT imm) = true ∧ s.cfg.nanPolicy = .refuse ∧
        t = { s with status := .refused (.word (encode i)) .nanPayload })

/-- R45, R46: OUT only grows, by one sample per tick, and neither it nor MIX is touched by a command
other than TICK and RENDER. -/
def Obligations.OnlyTicksEmitAndMoveMix : Prop :=
  ∀ (i : Instr) (s t : State), exec i s = .next t →
    (∃ ys : List Flt, t.out = s.out ++ ys ∧
      ys.length = (match i with | .tick => 1 | .render u => u | _ => 0)) ∧
    (i ≠ .tick → (∀ u, i ≠ .render u) → t.mix = s.mix)

/-- R9, R44: no step changes the parameters, and only a RESET changes SR and DT. -/
def Obligations.RateAndParametersAreFixed : Prop :=
  ∀ s t : State, step s = .next t →
    t.cfg = s.cfg ∧ ((∀ c rest, s.input ≠ .reset c :: rest) → t.sr = s.sr ∧ t.dt = s.dt)

/-! ### Reset and the invariants (R32 to R34, R122) -/

/-- R9, R31, R220, R223: every piece of state after RESET(48000, 8), the source's construction, with the default
FLT, binary32. The values of P.WAVE, P.DECAY, P.SUSTAIN, P.RELEASE, P.GLIDE and P.GAIN are those of the
parameters, which log entries 5, 6 and 8 choose; SR and CAP0 are log entry 7. -/
def Obligations.ResetStateIsAsTheRulesSay : Prop :=
  State.reset.cfg.fmt = FltFormat.binary32 ∧
  State.reset.voices = List.replicate 8
    { note := 0#7, active := false, keyDown := false, gate := false, freqTarget := Flt.zero,
      freqCurrent := Flt.zero, env := Flt.zero, phase := Flt.zero, velocity := Flt.zero } ∧
  State.reset.wave = State.reset.cfg.defaultWave ∧ State.reset.attack = Flt.ofBits32 0x3BA3D70A#32 ∧
  State.reset.decay = State.reset.cfg.defaultDecay ∧ State.reset.sustain = State.reset.cfg.defaultSustain ∧
  State.reset.release = State.reset.cfg.defaultRelease ∧
  State.reset.glide = FltFormat.binary32.div State.reset.cfg.defaultGlideMs (Flt.ofBits32 0x447A0000#32) ∧
  State.reset.gain = State.reset.cfg.defaultGain ∧ State.reset.pedal = false ∧
  State.reset.sr = Flt.ofBits32 0x473B8000#32 ∧ State.reset.dt = Flt.ofBits32 0x37AEC33E#32 ∧
  State.reset.mix = Flt.ofBits32 0x3F800000#32 ∧ State.reset.out = [] ∧ State.reset.status = .running ∧
  State.reset.cp = 0

/-- The invariant of R32 to R34 and the bound on MIX of R33 item 5 hold at reset (with the parameters of log
entries 5, 6 and 8). -/
def Obligations.InvHoldsAtReset : Prop := Inv State.reset ∧ MixInv State.reset

/-- R32, R33, R34, R42, R122: from every state that meets the invariant, whatever the host's next move
is, the next state meets it: the capacity stays 1 to 32, every envelope and velocity in [0,1], key_down
implies gate implies active, an inactive slot is silent, no two active slots hold one note, and every
parameter register holds a legal value. With it, MIX stays in [1/32, 1] when MIX_GAIN_INIT is there (R33 item
5), for a DT of at most 1 (log entry 29). -/
def Obligations.StepKeepsInv : Prop :=
  ∀ s t : State, Inv s → step s = .next t → Inv t ∧ (MixInv s → MixInv t)

/-- R122: for every sequence of the host's moves, every slot keeps 0 <= env <= 1. -/
def Obligations.EnvelopeStaysInUnitRange : Prop :=
  ∀ (k : Nat) (s t : State), Inv s → Sys2Proof.core.run k s = .next t →
    ∀ v ∈ t.voices, s.fmt.le Flt.zero v.env = true ∧ s.fmt.le v.env s.fmt.one = true

/-- The pitch invariants hold at reset. -/
def Obligations.PitchInvHoldsAtReset : Prop := PitchInv State.reset ∧ TunedInv State.reset

/-- R32 item 4, R33 item 4, R96, whatever the host's next move is. From R15 alone: every active slot's target
frequency is above zero, no frequency falls below zero, and every phase stays in [0, TWO_PI) or is a NaN,
which needs a frequency that is not finite (log entry 21). Where moreover a NOTE_ON brings in only a
frequency from 8 Hz to 16384 Hz, every active slot's current frequency stays above zero too, and every
phase in [0, TWO_PI). Where a phase sum is infinite, that the wrapped phase is in range is the bound kept on
a free value (log entry 4). -/
def Obligations.StepKeepsPitchInv : Prop :=
  ∀ s t : State, PitchInv s → step s = .next t →
    PitchInv t ∧ (TunedInv s → s.movesInTune → TunedInv t)

/-! ### NOTE_ON, NOTE_OFF, SUSTAIN_PEDAL, SET_POLY (43_voice_pool.md) -/

/-- R151, R154 step 1: the lowest active slot that holds the note is retriggered in place, keeping its
note, activity and phase; with glide on it keeps its pitch. -/
def Obligations.NoteOnRetriggersTheHolder : Prop :=
  ∀ (s : State) (note vel j : Nat) (v : Voice),
    s.voices[j]? = some v → v.active = true → v.note.toNat = note →
    (∀ k < j, ∀ u, s.voices[k]? = some u → ¬(u.active = true ∧ u.note.toNat = note)) →
    exec (.noteOn note vel) s = .next { s with
      voices := s.voices.set j { v with
        keyDown := true
        gate := true
        freqTarget := FREQ s.fmt note
        freqCurrent := if s.fmt.le s.glide Flt.zero then FREQ s.fmt note else v.freqCurrent
        env := Flt.zero
        velocity := VELSCALE s.fmt vel }
      cp := s.cp + 1 }

/-- R152, R154 step 2: with no holder, the first inactive slot is claimed; with glide on its old pitch is
kept but floored at 20 Hz. -/
def Obligations.NoteOnClaimsTheFirstFreeSlot : Prop :=
  ∀ (s : State) (note vel k : Nat) (v : Voice),
    (∀ u ∈ s.voices, ¬(u.active = true ∧ u.note.toNat = note)) →
    s.voices[k]? = some v → v.active = false →
    (∀ i < k, ∀ u, s.voices[i]? = some u → u.active = true) →
    exec (.noteOn note vel) s = .next { s with
      voices := s.voices.set k
        { note := BitVec.ofNat 7 note
          active := true
          keyDown := true
          gate := true
          freqTarget := FREQ s.fmt note
          freqCurrent := if s.fmt.le s.glide Flt.zero then FREQ s.fmt note
            else s.fmt.max v.freqCurrent (s.fmt.ofNat 20)
          env := Flt.zero
          phase := Flt.zero
          velocity := VELSCALE s.fmt vel }
      cp := s.cp + 1 }

/-- R153, R154 step 3: with no holder and no free slot, the first slot of the numerically lowest envelope
is claimed. -/
def Obligations.NoteOnStealsTheQuietestSlot : Prop :=
  ∀ (s : State) (note vel k : Nat) (v : Voice),
    (∀ u ∈ s.voices, u.active = true ∧ u.note.toNat ≠ note ∧ s.fmt.isNaN u.env = false) →
    s.voices[k]? = some v →
    (∀ u ∈ s.voices, s.fmt.le v.env u.env = true) →
    (∀ i < k, ∀ u, s.voices[i]? = some u → s.fmt.lt v.env u.env = true) →
    exec (.noteOn note vel) s = .next { s with
      voices := s.voices.set k
        { note := BitVec.ofNat 7 note
          active := true
          keyDown := true
          gate := true
          freqTarget := FREQ s.fmt note
          freqCurrent := if s.fmt.le s.glide Flt.zero then FREQ s.fmt note
            else s.fmt.max v.freqCurrent (s.fmt.ofNat 20)
          env := Flt.zero
          phase := Flt.zero
          velocity := VELSCALE s.fmt vel }
      cp := s.cp + 1 }

/-- R155 items 1 to 3: after NOTE_ON exactly one active slot holds the note; a retrigger leaves the active
count, a claim of a free slot raises it by one, a steal leaves it at CAP. -/
def Obligations.NoteOnLeavesOneHolder : Prop :=
  ∀ (s : State) (note vel : Nat), Inv s → note ≤ 127 →
    ∃ t, exec (.noteOn note vel) s = .next t ∧
      (t.voices.countP fun v => v.active && v.note.toNat == note) = 1 ∧
      ((∃ v ∈ s.voices, v.active = true ∧ v.note.toNat = note) → t.activeCount = s.activeCount) ∧
      ((∀ v ∈ s.voices, ¬(v.active = true ∧ v.note.toNat = note)) →
        ((∃ v ∈ s.voices, v.active = false) → t.activeCount = s.activeCount + 1) ∧
        ((∀ v ∈ s.voices, v.active = true) → t.activeCount = s.cap))

/-- R154, R161 (frame): NOTE_ON writes one slot, the one its search finds, and CP; a slot it retriggers
keeps its note, activity and phase. -/
def Obligations.NoteOnFrame : Prop :=
  ∀ (s t : State) (note vel : Nat), exec (.noteOn note vel) s = .next t →
    t = { s with voices := t.voices, cp := s.cp + 1 } ∧ t.voices.length = s.voices.length ∧
    (∀ i, i ≠ (s.findNote note).getD (s.findFree.getD (stealIndex s.fmt s.voices)) → t.voices[i]? = s.voices[i]?) ∧
    (∀ j v, s.findNote note = some j → s.voices[j]? = some v →
      ∃ v', t.voices[j]? = some v' ∧ v'.note = v.note ∧ v'.active = v.active ∧ v'.phase = v.phase)

/-- R156: NOTE_OFF clears key_down in every active slot of the note, and gate only while the pedal is not
held; nothing else changes but CP. -/
def Obligations.NoteOffReleasesTheNote : Prop :=
  ∀ (s : State) (note : Nat), exec (.noteOff note) s = .next { s with
    voices := s.voices.map fun v =>
      if v.active && v.note.toNat == note then
        { v with keyDown := false, gate := if s.pedal then v.gate else false }
      else v
    cp := s.cp + 1 }

/-- R156, R158 (frame): NOTE_OFF and SUSTAIN_PEDAL write no slot field but key_down and gate, set
neither, write no slot's activity, envelope or phase, and of the rest of the state only CP and P.PEDAL. -/
def Obligations.ReleaseCommandsFrame : Prop :=
  ∀ (s t : State) (i : Instr), ((∃ n, i = .noteOff n) ∨ ∃ d, i = .sustainPedal d) → exec i s = .next t →
    t = { s with voices := t.voices, pedal := t.pedal, cp := s.cp + 1 } ∧
    ((∃ n, i = .noteOff n) → t.pedal = s.pedal) ∧
    t.voices.length = s.voices.length ∧
    ∀ (j : Nat) (v : Voice), s.voices[j]? = some v → ∃ v' : Voice, t.voices[j]? = some v' ∧
      v' = { v with keyDown := v'.keyDown, gate := v'.gate } ∧
      (v'.keyDown = true → v.keyDown = true) ∧ (v'.gate = true → v.gate = true) ∧
      ((∃ d, i = .sustainPedal d) → v'.keyDown = v.keyDown)

/-- R158: SUSTAIN_PEDAL writes P.PEDAL; on a transition to released it clears gate in every slot whose
key_down is false, and otherwise touches no slot. -/
def Obligations.SustainPedalReleases : Prop :=
  ∀ s : State,
    exec (.sustainPedal true) s = .next { s with pedal := true, cp := s.cp + 1 } ∧
    (s.pedal = false → exec (.sustainPedal false) s = .next { s with cp := s.cp + 1 }) ∧
    (s.pedal = true → exec (.sustainPedal false) s = .next { s with
      voices := s.voices.map fun v => if v.keyDown then v else { v with gate := false }
      pedal := false
      cp := s.cp + 1 })

/-- R159: with the pedal held NOTE_OFF leaves every gate; releasing the pedal afterwards clears the gate
of exactly the slots whose key is not held. -/
def Obligations.PedalHoldsUntilReleased : Prop :=
  ∀ (s : State) (note : Nat), s.pedal = true →
    ∃ t, exec (.noteOff note) s = .next t ∧
      (t.voices.map fun v => v.gate) = (s.voices.map fun v => v.gate) ∧
      ∃ t', exec (.sustainPedal false) t = .next t' ∧
        (t'.voices.map fun v => v.gate) = (t.voices.map fun v => v.gate && v.keyDown)

/-- R160: SET_POLY clamps to 1..32; slots below the new capacity keep every field, added slots are reset
slots, and nothing else changes but CP. -/
def Obligations.SetPolyResizesByPosition : Prop :=
  ∀ (s : State) (u : Nat), ∃ t, exec (.setPoly u) s = .next t ∧
    t = { s with voices := t.voices, cp := s.cp + 1 } ∧
    t.cap = (if u < 1 then 1 else if 32 < u then 32 else u) ∧
    ∀ i < t.cap, t.voices[i]? = if i < s.cap then s.voices[i]? else some Voice.reset

/-! ### The setters (R97, R111, R118 to R121, R134, R188) -/

/-- R97: SET_WAVE selects by its operand, any value above 3 selecting SINE, and writes P.WAVE and CP
alone. -/
def Obligations.SetWaveSelects : Prop :=
  ∀ s : State,
    exec (.setWave 0) s = .next { s with wave := .sine, cp := s.cp + 1 } ∧
    exec (.setWave 1) s = .next { s with wave := .square, cp := s.cp + 1 } ∧
    exec (.setWave 2) s = .next { s with wave := .saw, cp := s.cp + 1 } ∧
    exec (.setWave 3) s = .next { s with wave := .tri, cp := s.cp + 1 } ∧
    ∀ u, 3 < u → exec (.setWave u) s = .next { s with wave := .sine, cp := s.cp + 1 }

/-- R111, R118, R119, R121, R134: a time setter stores +0.0 for a NaN (under ClampLow) and for every value
<= 0, and any other value as it is; SET_GLIDE stores the result over 1000. Nothing else changes but CP. -/
def Obligations.TimeSettersStoreSanitised : Prop :=
  ∀ (s : State) (imm : BitVec 32) (x : Flt),
    (s.cfg.nanPolicy = .clampLow ∨ s.fmt.isNaN (s.fmt.toFLT imm) = false) →
    x = (if s.fmt.isNaN (s.fmt.toFLT imm) then Flt.zero
      else if s.fmt.le (s.fmt.toFLT imm) Flt.zero then Flt.zero else s.fmt.toFLT imm) →
    exec (.setAttack imm) s = .next { s with attack := x, cp := s.cp + 1 } ∧
    exec (.setDecay imm) s = .next { s with decay := x, cp := s.cp + 1 } ∧
    exec (.setRelease imm) s = .next { s with release := x, cp := s.cp + 1 } ∧
    exec (.setGlide imm) s = .next { s with glide := s.fmt.div x (s.fmt.ofNat 1000), cp := s.cp + 1 }

/-- R111, R120, R188: a unit setter stores +0.0 for a NaN (under ClampLow) and for every value <= 0, 1.0
for every value >= 1.0, and any other value as it is. Nothing else changes but CP. -/
def Obligations.UnitSettersStoreSanitised : Prop :=
  ∀ (s : State) (imm : BitVec 32) (x : Flt),
    (s.cfg.nanPolicy = .clampLow ∨ s.fmt.isNaN (s.fmt.toFLT imm) = false) →
    x = (if s.fmt.isNaN (s.fmt.toFLT imm) then Flt.zero
      else if s.fmt.le (s.fmt.toFLT imm) Flt.zero then Flt.zero else if s.fmt.ge (s.fmt.toFLT imm) s.fmt.one then s.fmt.one else s.fmt.toFLT imm) →
    exec (.setSustain imm) s = .next { s with sustain := x, cp := s.cp + 1 } ∧
    exec (.setGain imm) s = .next { s with gain := x, cp := s.cp + 1 }

/-- R111, R201, R202: under NAN_POLICY = Refuse, a NaN payload of any real-valued setter is refused with
the setter's own word and reason NaNPayload, and nothing else changes, CP included. -/
def Obligations.NanPayloadIsRefused : Prop :=
  ∀ (s : State) (imm : BitVec 32) (i : Instr),
    i ∈ [.setAttack imm, .setDecay imm, .setSustain imm, .setRelease imm, .setGlide imm, .setGain imm] →
    s.cfg.nanPolicy = .refuse → s.fmt.isNaN (s.fmt.toFLT imm) = true →
    exec i s = .next { s with status := .refused (.word (encode i)) .nanPayload }

/-- R111, R118 to R121, R134, R188, R97 (frame): a setter writes its own register, CP and, refused,
STATUS, and nothing else. -/
def Obligations.SettersFrame : Prop :=
  ∀ (s t : State) (u : Nat) (imm : BitVec 32),
    (exec (.setWave u) s = .next t → t = { s with wave := t.wave, cp := t.cp }) ∧
    (exec (.setAttack imm) s = .next t → t = { s with attack := t.attack, cp := t.cp, status := t.status }) ∧
    (exec (.setDecay imm) s = .next t → t = { s with decay := t.decay, cp := t.cp, status := t.status }) ∧
    (exec (.setSustain imm) s = .next t → t = { s with sustain := t.sustain, cp := t.cp, status := t.status }) ∧
    (exec (.setRelease imm) s = .next t → t = { s with release := t.release, cp := t.cp, status := t.status }) ∧
    (exec (.setGlide imm) s = .next t → t = { s with glide := t.glide, cp := t.cp, status := t.status }) ∧
    (exec (.setGain imm) s = .next t → t = { s with gain := t.gain, cp := t.cp, status := t.status })

/-- R53, R156, R158: every setter, SUSTAIN_PEDAL, NOTE_OFF and SET_POLY is idempotent: done twice, only CP
differs from done once. -/
def Obligations.SettersAndReleasesAreIdempotent : Prop :=
  ∀ (i : Instr) (s t t' : State), (∀ n v, i ≠ .noteOn n v) → i ≠ .tick → (∀ u, i ≠ .render u) →
    exec i s = .next t → exec i t = .next t' → t' = { t with cp := t'.cp }

/-! ### The tick (41_envelope.md, 42_glide.md, 40_oscillator.md, 44_mixer.md) -/

namespace Sys2Proof.Spec

/-- The waveform formulas, as R91 to R94 write them. -/
def waveform (F : FltFormat) (w : Wave) (p : Flt) : Flt :=
  match w with
  | .sine => SIN F p
  | .square => if F.ge (SIN F p) Flt.zero then F.one else F.negOne
  | .saw => F.sub (F.div p F.pi) F.one
  | .tri =>
    let t := F.sub (F.div p F.twoPi) (F.floor (F.div p F.twoPi))
    if F.lt t (F.ofRat false 1 2) then F.sub (F.mul (F.ofNat 4) t) F.one
    else F.sub (F.ofNat 3) (F.mul (F.ofNat 4) t)

/-- The body of R180's loop, written as the rule writes it: the slots done so far, the sum and the
count, and the next slot. -/
def tickBody (s : State) (acc : List Voice × Flt × Nat) (v : Voice) : List Voice × Flt × Nat :=
  let snap := s.fmt.le s.glide Flt.zero ||
    s.fmt.lt (Flt.abs (s.fmt.sub v.freqTarget v.freqCurrent)) (s.fmt.ofRat false 1 1000000)
  let fc :=
    if snap then v.freqTarget
    else s.fmt.add v.freqCurrent (s.fmt.mul (s.fmt.sub v.freqTarget v.freqCurrent)
      (s.fmt.min (s.fmt.div s.dt s.glide) s.fmt.one))
  let g := { v with freqCurrent := fc }
  let e := { g with env := envNext s g.gate g.env }
  let sample := waveform s.fmt s.wave e.phase
  let x := s.fmt.add e.phase (s.fmt.div (s.fmt.mul s.fmt.twoPi e.freqCurrent) s.sr)
  let p := { e with phase := if s.fmt.ge x s.fmt.twoPi then s.fmt.fmod x s.fmt.twoPi else x }
  let d := if !p.gate && s.fmt.le p.env Flt.zero then { p with active := false } else p
  let v' := if v.active then d else v
  let c :=
    if v.active then s.fmt.mul (s.fmt.mul sample p.env) p.velocity
    else if s.fmt.gt v.env Flt.zero then s.fmt.mul (s.fmt.mul (waveform s.fmt s.wave v.phase) v.env) v.velocity
    else Flt.zero
  if v'.active || s.fmt.gt v'.env Flt.zero then (acc.1 ++ [v'], s.fmt.add acc.2.1 c, acc.2.2 + 1)
  else (acc.1 ++ [v'], acc.2.1, acc.2.2)

end Sys2Proof.Spec

/-- R180 to R185, R186: TICK is the rule's loop over the slots in order, then the MIX update, then the
sample, and it changes nothing else but CP. -/
def Obligations.TickFollowsTheProcedure : Prop :=
  ∀ (s : State) (vs : List Voice) (sum : Flt) (n : Nat),
    s.voices.foldl (Sys2Proof.Spec.tickBody s) ([], Flt.zero, 0) = (vs, sum, n) →
    ∀ target m y : Flt,
    target = (if n > 0 then s.fmt.div s.fmt.one (s.fmt.ofNat n) else s.fmt.one) →
    m = s.fmt.add s.mix (s.fmt.div (s.fmt.mul (s.fmt.sub target s.mix) s.dt)
      (s.fmt.add (s.fmt.ofRat false 5 1000) s.dt)) →
    y = (if s.fmt.isFinite (s.fmt.mul (s.fmt.mul sum s.gain) m) then s.fmt.mul (s.fmt.mul sum s.gain) m else Flt.zero) →
    exec .tick s = .next { s with
      voices := vs
      mix := m
      out := s.out ++ [if s.cfg.outputClamp then s.fmt.max s.fmt.negOne (s.fmt.min y s.fmt.one) else y]
      cp := s.cp + 1 }

/-- R110, R112, R113, R114: the envelope of an active slot after a TICK, by the transition rule's branches. -/
def Obligations.EnvelopeTransitionRule : Prop :=
  ∀ (s t : State) (i : Nat) (v : Voice), exec .tick s = .next t → s.voices[i]? = some v → v.active = true →
    ∃ v', t.voices[i]? = some v' ∧
      (v.gate = true → s.fmt.lt v.env s.fmt.one = true →
        v'.env = if s.fmt.le s.attack Flt.zero then s.fmt.one
          else s.fmt.min (s.fmt.add v.env (s.fmt.div s.dt s.attack)) s.fmt.one) ∧
      (v.gate = true → s.fmt.lt v.env s.fmt.one = false → s.fmt.gt v.env s.sustain = true →
        v'.env = if s.fmt.le s.decay Flt.zero then s.sustain
          else s.fmt.max (s.fmt.sub v.env
            (s.fmt.div (s.fmt.mul s.dt (s.fmt.sub s.fmt.one s.sustain)) s.decay)) s.sustain) ∧
      (v.gate = false →
        v'.env = if s.fmt.le s.release Flt.zero then Flt.zero
          else s.fmt.max (s.fmt.sub v.env (s.fmt.div s.dt s.release)) Flt.zero) ∧
      (v.gate = true → s.fmt.lt v.env s.fmt.one = false → s.fmt.gt v.env s.sustain = false → v'.env = v.env)

/-- R123: with attack 0 one tick takes a gated envelope below 1 to 1.0; with release 0 one tick takes an
ungated envelope to +0.0. -/
def Obligations.ZeroTimesAreInstant : Prop :=
  ∀ (s t : State) (i : Nat) (v : Voice), exec .tick s = .next t → s.voices[i]? = some v → v.active = true →
    (s.attack = Flt.zero → v.gate = true → s.fmt.lt v.env s.fmt.one = true →
      ∃ v', t.voices[i]? = some v' ∧ v'.env = s.fmt.one) ∧
    (s.release = Flt.zero → v.gate = false → ∃ v', t.voices[i]? = some v' ∧ v'.env = Flt.zero)

/-- R115: with attack 0 a gated envelope at 1 does not settle at a sustain level below 1: it falls to
`max(1 - d, s)`, and where that is below 1 the next tick takes it back to 1. -/
def Obligations.GatedEnvelopeHovers : Prop :=
  ∀ (s t t' : State) (i : Nat) (v : Voice), Inv s → exec .tick s = .next t → exec .tick t = .next t' →
    s.voices[i]? = some v → v.gate = true → v.env = s.fmt.one → s.attack = Flt.zero →
    s.fmt.lt s.sustain s.fmt.one = true → s.fmt.gt s.decay Flt.zero = true →
    ∃ v1 v2, t.voices[i]? = some v1 ∧ t'.voices[i]? = some v2 ∧
      v1.env = s.fmt.max (s.fmt.sub s.fmt.one
        (s.fmt.div (s.fmt.mul s.dt (s.fmt.sub s.fmt.one s.sustain)) s.decay)) s.sustain ∧
      (s.fmt.lt v1.env s.fmt.one = true → v2.env = s.fmt.one)

/-- R24, R116: in a TICK a slot becomes inactive exactly when it was active, its gate is false and its new
envelope is at 0; an inactive slot is not touched. -/
def Obligations.DeactivationRule : Prop :=
  ∀ (s t : State) (i : Nat) (v : Voice), exec .tick s = .next t → s.voices[i]? = some v →
    ∃ v', t.voices[i]? = some v' ∧ (v.active = false → v' = v) ∧
      (v.active = true → v'.active = !(!v'.gate && s.fmt.le v'.env Flt.zero))

/-- R131: the glide step of an active slot in a TICK. -/
def Obligations.GlideStepRule : Prop :=
  ∀ (s t : State) (i : Nat) (v : Voice), exec .tick s = .next t → s.voices[i]? = some v → v.active = true →
    ∃ v', t.voices[i]? = some v' ∧ v'.freqTarget = v.freqTarget ∧
      v'.freqCurrent =
        if s.fmt.le s.glide Flt.zero = true ∨
            s.fmt.lt (Flt.abs (s.fmt.sub v.freqTarget v.freqCurrent)) (s.fmt.ofRat false 1 1000000) = true then
          v.freqTarget
        else s.fmt.add v.freqCurrent (s.fmt.mul (s.fmt.sub v.freqTarget v.freqCurrent)
          (s.fmt.min (s.fmt.div s.dt s.glide) s.fmt.one))

/-- R96: the phase of an active slot after a TICK, advanced by the frequency after the glide step; with a
frequency that is not below zero and not a NaN, the result is in [0, TWO_PI): where the sum is infinite,
only by the bound kept on a free value (log entry 4, the model's choice). -/
def Obligations.PhaseAdvanceRule : Prop :=
  ∀ (s t : State) (i : Nat) (v : Voice) (x : Flt), exec .tick s = .next t → s.voices[i]? = some v →
    v.active = true →
    ∃ v', t.voices[i]? = some v' ∧
      (x = s.fmt.add v.phase (s.fmt.div (s.fmt.mul s.fmt.twoPi v'.freqCurrent) s.sr) →
        v'.phase = if s.fmt.ge x s.fmt.twoPi then s.fmt.fmod x s.fmt.twoPi else x) ∧
      (s.fmt.posFinite s.sr = true → s.fmt.inRange s.fmt.twoPi v.phase = true →
        s.fmt.nonneg v'.freqCurrent = true →
        s.fmt.inRange s.fmt.twoPi v'.phase = true)

/-- R14: fmod of a finite phase sum by TWO_PI is exact and in [0, TWO_PI): with magnitudes counted in units
of the format's least positive value (2^-149 in binary32), the remainder is the remainder of the counts. -/
def Obligations.FmodIsExact : Prop :=
  ∀ (F : FltFormat) (x y : Flt), F.isFinite x = true → F.isFinite y = true → x.sgn = false → y.sgn = false → 0 < y.mag →
    F.units (F.fmod x y) = F.units x % F.units y ∧ F.inRange y (F.fmod x y) = true

/-- R16, R91 to R95, R98, in every format FLT can be (R9): the oscillator is the four waveform formulas as they
are written, with the values the rules name; for every phase in [0, TWO_PI) the saw is in [-1, 1), the triangle
in [-1, 1], the square -1 or +1, and the sine in [-1, 1]. TWO_PI is exactly twice PI, and in binary32 both are
the patterns R16 gives. -/
def Obligations.OscillatorRange : Prop :=
  FltFormat.binary32.pi = Flt.ofBits32 0x40490FDB#32 ∧ FltFormat.binary32.twoPi = Flt.ofBits32 0x40C90FDB#32 ∧
  ∀ F : FltFormat, (F.units F.twoPi = 2 * F.units F.pi ∧ F.isFinite F.twoPi = true) ∧
  (∀ p : Flt, osc F .sine p = SIN F p ∧
    osc F .square p = (if F.ge (SIN F p) Flt.zero then F.one else F.negOne) ∧
    osc F .saw p = F.sub (F.div p F.pi) F.one ∧
    ∀ t : Flt, t = F.sub (F.div p F.twoPi) (F.floor (F.div p F.twoPi)) →
      osc F .tri p = if F.lt t (F.ofRat false 1 2) then F.sub (F.mul (F.ofNat 4) t) F.one
        else F.sub (F.ofNat 3) (F.mul (F.ofNat 4) t)) ∧
  (osc F .sine Flt.zero = Flt.zero ∧ osc F .square Flt.zero = F.one ∧ osc F .saw Flt.zero = F.negOne ∧
    osc F .saw F.pi = Flt.zero ∧ osc F .tri Flt.zero = F.negOne ∧ osc F .tri F.pi = F.one) ∧
  ∀ p : Flt, F.inRange F.twoPi p = true →
    (F.le F.negOne (osc F .saw p) = true ∧ F.lt (osc F .saw p) F.one = true) ∧
    (F.le F.negOne (osc F .tri p) = true ∧ F.le (osc F .tri p) F.one = true) ∧
    (osc F .square p = F.negOne ∨ osc F .square p = F.one) ∧
    (F.le F.negOne (osc F .sine p) = true ∧ F.le (osc F .sine p) F.one = true)

/-- R94: for a phase in [0, TWO_PI) the normalised phase is already below 1, so the `mod 1` of the triangle
changes nothing. -/
def Obligations.TriangleModChangesNothing : Prop :=
  ∀ (F : FltFormat) (p : Flt), F.inRange F.twoPi p = true →
    F.lt (F.div p F.twoPi) F.one = true ∧
    F.sub (F.div p F.twoPi) (F.floor (F.div p F.twoPi)) = F.div p F.twoPi

/-- R182, R33: in a state that meets the invariant, the slots the mixer counts in a TICK are those active
after it. -/
def Obligations.ContributingIsActive : Prop :=
  ∀ s t : State, Inv s → exec .tick s = .next t → voicesOn s.fmt (tickSlots s) = t.activeCount

/-- R183, R184: when MIX equals the target of a TICK's count of contributing voices, and DT is finite,
the update leaves MIX unchanged (so with one voice at most, MIX stays 1.0). -/
def Obligations.MixAtTargetStays : Prop :=
  ∀ s t : State, exec .tick s = .next t → s.fmt.isFinite s.dt = true → s.dt.sgn = false →
    s.mix = mixTarget s.fmt (voicesOn s.fmt (tickSlots s)) → t.mix = s.mix

/-- R185: the sample a TICK emits is finite, and with OUTPUT_CLAMP it is in [-1, 1]. -/
def Obligations.EmittedSampleIsFinite : Prop :=
  ∀ s t : State, exec .tick s = .next t → ∃ y, t.out = s.out ++ [y] ∧ s.fmt.isFinite y = true ∧
    (s.cfg.outputClamp = true → s.fmt.le s.fmt.negOne y = true ∧ s.fmt.le y s.fmt.one = true)

/-- R187: `RENDER u` runs; with it the state is that of `u` TICK words in a row, but for CP, which RENDER
advances by 1 and the TICK words by `u`. -/
def Obligations.RenderIsTicksInARow : Prop :=
  ∀ (s : State) (u : Nat) (rest : List HostInput), s.status = .running →
    ∃ t, exec (.render u) { s with input := rest } = .next t ∧
      Sys2Proof.core.run u { s with input := List.replicate u (.command 0x2000000000000000#64) ++ rest } =
        .next { t with cp := s.cp + u } ∧
      t.cp = s.cp + 1

/-- R58, R180, R186, R187 (frame): TICK and RENDER write the slots, MIX, OUT and CP only, and in a slot
neither its note, key_down, gate, target frequency nor velocity; an inactive slot stays as it is. -/
def Obligations.TickAndRenderFrame : Prop :=
  ∀ (s t : State) (i : Instr), (i = .tick ∨ ∃ u, i = .render u) → exec i s = .next t →
    t = { s with voices := t.voices, mix := t.mix, out := t.out, cp := s.cp + 1 } ∧
    t.voices.length = s.voices.length ∧
    ∀ (j : Nat) (v : Voice), s.voices[j]? = some v → ∃ v' : Voice, t.voices[j]? = some v' ∧
      v' = { v with active := v'.active, freqCurrent := v'.freqCurrent, env := v'.env, phase := v'.phase } ∧
      (v.active = false → v' = v)

/-! ### Numbers (R14, R15, R130, R150) -/

/-- R14, in every format FLT can be (R9). With finite operands each operation is exact before one rounding, values
being counted in units of the format's least positive value (`unitsPerOne` units are 1.0; in binary32, 2^149),
and a comparison is that of the values; floor is the greatest integer not above (that floor(-0.0) is +0.0 is log
entry 4, the model's choice); toF is exact up to 2^24. A comparison with a NaN is false, an infinity lies beyond
every finite value, and min, max, abs and isFinite are as R14 writes them. The sign of a zero sum, and a result
with an infinite or NaN operand or a zero divisor, are those of IEEE-754 (log entry 1); so DT over +inf is +0.0
(R112). A payload's value is toFLT's (R70): its own pattern in binary32, and in every format the same value, an
infinity staying one and a NaN too (that a NaN keeps its sign in an FLT wider than binary32 is log entry 30, the
model's choice; that min and max follow R14's words with a NaN operand too is log entry 20, its reading). -/
def Obligations.FltOperationsRoundOnce : Prop :=
  (∀ (F : FltFormat) (a b : Flt),
    (F.isFinite a = true → F.isFinite b = true →
      (F.val a + F.val b ≠ 0 →
        F.add a b = ⟨decide (F.val a + F.val b < 0), F.roundMag (F.val a + F.val b).natAbs 1⟩) ∧
      (F.val a + F.val b = 0 → F.add a b = if a.sgn && b.sgn then Flt.negZero else Flt.zero) ∧
      (F.val a - F.val b ≠ 0 →
        F.sub a b = ⟨decide (F.val a - F.val b < 0), F.roundMag (F.val a - F.val b).natAbs 1⟩) ∧
      (F.val a - F.val b = 0 → F.sub a b = if a.sgn && !b.sgn then Flt.negZero else Flt.zero) ∧
      F.mul a b = ⟨a.sgn != b.sgn, F.roundMag (F.units a * F.units b) F.unitsPerOne⟩ ∧
      (b.mag ≠ 0 → F.div a b = ⟨a.sgn != b.sgn, F.roundMag (F.units a * F.unitsPerOne) (F.units b)⟩) ∧
      (∃ k : Int, F.floor a = F.ofUnits (k * (F.unitsPerOne : Int)) ∧
        k * (F.unitsPerOne : Int) ≤ F.val a ∧ F.val a < (k + 1) * (F.unitsPerOne : Int)) ∧
      (F.lt a b = true ↔ F.val a < F.val b) ∧ (F.le a b = true ↔ F.val a ≤ F.val b) ∧
      (F.gt a b = true ↔ F.val b < F.val a) ∧ (F.ge a b = true ↔ F.val b ≤ F.val a) ∧
      (F.eqv a b = true ↔ F.val a = F.val b)) ∧
    ((F.isNaN a = true ∨ F.isNaN b = true) →
      (F.lt a b = false ∧ F.le a b = false ∧ F.gt a b = false ∧ F.ge a b = false ∧ F.eqv a b = false) ∧
      F.isNaN (F.add a b) = true ∧ F.isNaN (F.sub a b) = true ∧ F.isNaN (F.mul a b) = true ∧
      F.isNaN (F.div a b) = true) ∧
    (F.isFinite a = true → F.lt a F.posInf = true ∧ F.gt a F.negInf = true) ∧
    F.lt F.negInf F.posInf = true ∧
    (F.le a b = true → F.min a b = a) ∧ (F.le a b = false → F.min a b = b) ∧
    (F.ge a b = true → F.max a b = a) ∧ (F.ge a b = false → F.max a b = b) ∧
    ((Flt.abs a).sgn = false ∧ (Flt.abs a).mag = a.mag) ∧
    (F.isFinite a = false ↔ F.isNaN a = true ∨ a = F.posInf ∨ a = F.negInf) ∧
    (F.isFinite a = true → F.isInf b = true →
      F.add a b = b ∧ F.add b a = b ∧ F.sub b a = b ∧ F.sub a b = Flt.negate b ∧
      F.div a b = ⟨a.sgn != b.sgn, 0⟩ ∧ F.div b a = ⟨a.sgn != b.sgn, F.infMag⟩ ∧
      (a.mag ≠ 0 → F.mul a b = ⟨a.sgn != b.sgn, F.infMag⟩ ∧ F.mul b a = ⟨a.sgn != b.sgn, F.infMag⟩) ∧
      (a.mag = 0 → F.isNaN (F.mul a b) = true ∧ F.isNaN (F.mul b a) = true)) ∧
    (F.isInf a = true → F.isInf b = true →
      (a.sgn = b.sgn → F.add a b = a ∧ F.isNaN (F.sub a b) = true) ∧
      (a.sgn ≠ b.sgn → F.isNaN (F.add a b) = true ∧ F.sub a b = a) ∧
      F.mul a b = ⟨a.sgn != b.sgn, F.infMag⟩ ∧ F.isNaN (F.div a b) = true) ∧
    (F.isFinite a = true → b.mag = 0 →
      (a.mag ≠ 0 → F.div a b = ⟨a.sgn != b.sgn, F.infMag⟩) ∧
      (a.mag = 0 → F.isNaN (F.div a b) = true))) ∧
  FltFormat.binary32.unitsPerOne = 2 ^ 149 ∧
  (∀ (F : FltFormat) (n : Int), n.natAbs ≤ 2 ^ 24 →
    F.val (F.ofInt n) = n * (F.unitsPerOne : Int) ∧ F.isFinite (F.ofInt n) = true) ∧
  (∀ imm : BitVec 32, FltFormat.binary32.toFLT imm = Flt.ofBits32 imm) ∧
  (∀ (F : FltFormat) (imm : BitVec 32) (x : Flt), x = Flt.ofBits32 imm →
    (F.toFLT imm).sgn = x.sgn ∧
    (FltFormat.binary32.isFinite x = true → F.isFinite (F.toFLT imm) = true ∧
      F.units (F.toFLT imm) * FltFormat.binary32.unitsPerOne = FltFormat.binary32.units x * F.unitsPerOne) ∧
    (FltFormat.binary32.isInf x = true → F.isInf (F.toFLT imm) = true) ∧
    (FltFormat.binary32.isNaN x = true → F.isNaN (F.toFLT imm) = true))

/-- R14: the one rounding of every FLT operation is to nearest, ties to even, in every format FLT can be (R9).
Magnitudes are counted in units of the format's least positive value: for an exact value of `n / d` units, no
finite pattern is nearer than the one chosen; where another is as near, the chosen one is even; and infinity is
chosen exactly from half a spacing above the largest finite value on. -/
def Obligations.RoundingIsToNearestEven : Prop :=
  ∀ (F : FltFormat) (n d : Nat), 0 < d →
    (∀ m < F.infMag, F.roundMag n d < F.infMag →
      (((F.unitsOf (F.roundMag n d) * d : Nat) : Int) - n).natAbs ≤
        (((F.unitsOf m * d : Nat) : Int) - n).natAbs ∧
      (m ≠ F.roundMag n d →
        (((F.unitsOf m * d : Nat) : Int) - n).natAbs =
          (((F.unitsOf (F.roundMag n d) * d : Nat) : Int) - n).natAbs →
        F.roundMag n d % 2 = 0)) ∧
    (F.roundMag n d = F.infMag ↔ (2 ^ (F.fracBits + 2) - 1) * 2 ^ (2 * F.bias - 2) * d ≤ n)

/-- R15: SIN_ZERO, SIN_RANGE, POW2_INT and POW2_POS. -/
def Obligations.SinAndPow2Properties : Prop :=
  ∀ F : FltFormat, SIN F Flt.zero = Flt.zero ∧
  (∀ x : Flt, F.isFinite x = true → F.le F.negOne (SIN F x) = true ∧ F.le (SIN F x) F.one = true) ∧
  (∀ k : Int, -6 ≤ k → k ≤ 5 → POW2 F (F.ofInt k) = F.ofRat false (2 ^ (k + 6).toNat) 64) ∧
  (∀ x : Flt, F.isFinite x = true → F.gt (POW2 F x) Flt.zero = true ∧ F.isFinite (POW2 F x) = true)

/-- R130: the formula, and the exact value `440 * 2^k` at every note `69 + 12 k` from 0 to 127. -/
def Obligations.OctaveFrequenciesAreExact : Prop :=
  ∀ F : FltFormat, (∀ note ≤ 127, FREQ F note =
    F.mul (F.ofNat 440) (POW2 F (F.div (F.sub (F.ofNat note) (F.ofNat 69)) (F.ofNat 12)))) ∧
  (∀ k : Int, -5 ≤ k → k ≤ 4 →
    FREQ F (69 + 12 * k).toNat = F.ofRat false (440 * 2 ^ (k + 5).toNat) 32)

/-- R150: VELSCALE is the velocity over 127.0; it sends 0 to 0.0, 127 to 1.0 and, in binary32, 100 to 0x3F499326,
and every velocity into [0,1]. -/
def Obligations.VelocityScale : Prop :=
  VELSCALE FltFormat.binary32 100 = Flt.ofBits32 0x3F499326#32 ∧
  ∀ F : FltFormat, VELSCALE F 0 = Flt.zero ∧ VELSCALE F 127 = F.one ∧
  ∀ vel ≤ 127, VELSCALE F vel = F.div (F.ofNat vel) (F.ofNat 127) ∧
    F.le Flt.zero (VELSCALE F vel) = true ∧ F.le (VELSCALE F vel) F.one = true
end

