-- ==== Sys2Proof/Laws/Float.lean ====
section
/-! SUPPORT. Laws of FLT arithmetic (R14), in every format (R9): the one rounding (monotone, exact on what is
representable), the constants, signs and bounds of the operations, comparisons of values that are not
negative. -/

namespace Sys2Proof

namespace Flt

theorem ext_sgn_mag {x y : Flt} (hs : x.sgn = y.sgn) (hm : x.mag = y.mag) : x = y := by
  cases x; cases y; simp_all

@[simp] theorem zero_sgn : zero.sgn = false := rfl
@[simp] theorem zero_mag : zero.mag = 0 := rfl
@[simp] theorem negZero_sgn : negZero.sgn = true := rfl
@[simp] theorem negZero_mag : negZero.mag = 0 := rfl
@[simp] theorem zero_key : zero.key = 0 := rfl
@[simp] theorem negate_sgn (x : Flt) : x.negate.sgn = !x.sgn := rfl
@[simp] theorem negate_mag (x : Flt) : x.negate.mag = x.mag := rfl

theorem key_of_sgn_false {x : Flt} (h : x.sgn = false) : x.key = (x.mag : Int) := by simp [key, h]

end Flt

namespace FltFormat

open Flt (zero negZero)

variable {F : FltFormat}

/-! ### The format -/

theorem fracBits_ge (F : FltFormat) : 23 ≤ F.fracBits := by unfold fracBits; omega

theorem fracBits_le (F : FltFormat) : F.fracBits ≤ 236 := by unfold fracBits; omega

theorem bias_ge (F : FltFormat) : 127 ≤ F.bias := by
  unfold bias
  have : 2 ^ 7 ≤ 2 ^ (F.expBits - 1) := Nat.pow_le_pow_right (by omega) (by unfold expBits; omega)
  omega

/-- The fraction field's size, at least binary32's. -/
theorem frac_ge (F : FltFormat) : 8388608 ≤ 2 ^ F.fracBits :=
  Nat.pow_le_pow_right (n := 2) (by omega) (fracBits_ge F)

theorem frac_pos (F : FltFormat) : 0 < 2 ^ F.fracBits := Nat.pow_pos (by omega)

theorem infMag_eq (F : FltFormat) : F.infMag = (2 * F.bias + 1) * 2 ^ F.fracBits := by
  unfold infMag bias
  have h : F.expBits = (F.expBits - 1) + 1 := by unfold expBits; omega
  have hp : 0 < 2 ^ (F.expBits - 1) := Nat.pow_pos (by omega)
  have e : 2 ^ F.expBits = 2 * 2 ^ (F.expBits - 1) := by
    conv_lhs => rw [h, Nat.pow_succ]
    omega
  rw [e]
  congr 1
  omega

theorem infMag_pos (F : FltFormat) : 0 < F.infMag := by
  rw [infMag_eq]; exact Nat.mul_pos (by omega) (frac_pos F)

theorem unitsPerOne_pos (F : FltFormat) : 0 < F.unitsPerOne := Nat.pow_pos (by omega)

theorem unitsPerOne_eq (F : FltFormat) : F.unitsPerOne = 2 ^ F.fracBits * 2 ^ (F.bias - 1) := by
  unfold unitsPerOne
  rw [← Nat.pow_add]
  congr 1
  have := bias_ge F
  omega

theorem one_mag_lt (F : FltFormat) : F.one.mag < F.infMag := by
  rw [infMag_eq]
  exact Nat.mul_lt_mul_of_pos_right (by omega) (frac_pos F)

theorem one_mag_pos (F : FltFormat) : 0 < F.one.mag :=
  Nat.mul_pos (Nat.lt_of_lt_of_le (by omega) (bias_ge F)) (frac_pos F)

@[simp] theorem one_sgn : F.one.sgn = false := rfl
@[simp] theorem negOne_sgn : F.negOne.sgn = true := rfl
theorem negOne_mag : F.negOne.mag = F.one.mag := rfl

/-! ### The rounding -/

theorem roundMag_le (n d : Nat) : F.roundMag n d ≤ F.infMag := Nat.min_le_right _ _

theorem divRound_bounds (n d : Nat) : n / d ≤ divRound n d ∧ divRound n d ≤ n / d + 1 := by
  unfold divRound
  split <;> omega

theorem div_le_div_of_cross {n d n' d' : Nat} (hd : 0 < d) (hd' : 0 < d') (h : n * d' ≤ n' * d) :
    n / d ≤ n' / d' := by
  rw [Nat.le_div_iff_mul_le hd']
  have : n / d * d' * d ≤ n' * d := by
    calc n / d * d' * d = n / d * d * d' := by ring
      _ ≤ n * d' := Nat.mul_le_mul_right _ (Nat.div_mul_le_self n d)
      _ ≤ n' * d := h
  exact Nat.le_of_mul_le_mul_right this hd

/-- Rounding to an integer is monotone in the fraction. -/
theorem divRound_mono {n d n' d' : Nat} (hd : 0 < d) (hd' : 0 < d') (h : n * d' ≤ n' * d) :
    divRound n d ≤ divRound n' d' := by
  rcases Nat.lt_or_eq_of_le (div_le_div_of_cross hd hd' h) with hlt | heq
  · have h1 := (divRound_bounds n d).2
    have h2 := (divRound_bounds n' d').1
    omega
  · have e1 := Nat.div_add_mod n d
    have e2 := Nat.div_add_mod n' d'
    have hr : n % d * d' ≤ n' % d' * d := by
      have h3 : (d * (n / d) + n % d) * d' ≤ (d' * (n' / d') + n' % d') * d := by rw [e1, e2]; exact h
      rw [← heq] at h3
      have h4 : d * (n / d) * d' = d' * (n / d) * d := by ring
      rw [Nat.add_mul, Nat.add_mul, h4] at h3
      omega
    unfold divRound
    rw [← heq]
    split
    · rename_i hup
      split
      · exact Nat.le_refl _
      · rename_i hno
        exfalso
        apply hno
        rcases hup with hup | ⟨hup, hodd⟩
        · left
          have : d * d' < 2 * (n' % d') * d := by
            calc d * d' < 2 * (n % d) * d' := Nat.mul_lt_mul_of_pos_right hup hd'
              _ = 2 * (n % d * d') := by ring
              _ ≤ 2 * (n' % d' * d) := Nat.mul_le_mul_left _ hr
              _ = 2 * (n' % d') * d := by ring
          rw [Nat.mul_comm d d'] at this
          exact Nat.lt_of_mul_lt_mul_right this
        · have : d * d' ≤ 2 * (n' % d') * d := by
            calc d * d' = 2 * (n % d) * d' := by rw [← hup]
              _ = 2 * (n % d * d') := by ring
              _ ≤ 2 * (n' % d' * d) := Nat.mul_le_mul_left _ hr
              _ = 2 * (n' % d') * d := by ring
          rw [Nat.mul_comm d d'] at this
          have := Nat.le_of_mul_le_mul_right this hd
          rcases Nat.lt_or_eq_of_le this with h5 | h5
          · exact Or.inl h5
          · exact Or.inr ⟨h5, hodd⟩
    · split <;> omega

theorem divRound_one (n : Nat) : divRound n 1 = n := by
  simp [divRound, Nat.mod_one]

/-- A whole number is rounded to itself. -/
theorem divRound_exact (k d : Nat) (hd : 0 < d) : divRound (k * d) d = k := by
  have h1 : k * d % d = 0 := Nat.mul_mod_left k d
  have h2 : k * d / d = k := Nat.mul_div_cancel k hd
  simp only [divRound, h1, h2]
  split
  · omega
  · rfl

theorem spacing_mono {p q : Nat} (h : p ≤ q) : F.spacing p ≤ F.spacing q := by
  unfold spacing
  rcases Nat.eq_zero_or_pos p with h0 | h0
  · subst h0; simp
  · have h1 : 2 ^ Nat.log2 p ≤ p := Nat.log2_self_le (by omega)
    have h2 : Nat.log2 p ≤ Nat.log2 q := (Nat.le_log2 (by omega)).2 (Nat.le_trans h1 h)
    omega

/-- As far as the significand reaches the spacing is one unit; beyond, `q` has a whole significand above it. -/
theorem spacing_spec (F : FltFormat) (q : Nat) :
    q < 2 ^ F.spacing q * (2 * 2 ^ F.fracBits) ∧
      (0 < F.spacing q → 2 ^ F.spacing q * 2 ^ F.fracBits ≤ q) := by
  unfold spacing
  generalize F.fracBits = f
  rcases Nat.eq_zero_or_pos q with h0 | hpos
  · subst h0; simp
  · have hlt : q < 2 ^ (Nat.log2 q + 1) := Nat.lt_log2_self
    have hge : 2 ^ Nat.log2 q ≤ q := Nat.log2_self_le (by omega)
    rw [← Nat.pow_succ', ← Nat.pow_add, ← Nat.pow_add]
    constructor
    · exact Nat.lt_of_lt_of_le hlt (Nat.pow_le_pow_right (by omega) (by omega))
    · intro h
      rw [Nat.sub_add_cancel (by omega)]
      exact hge

/-- What is rounded at the spacing of its binade lies in the binade, its upper end included. -/
theorem divRound_spacing (F : FltFormat) (n d : Nat) :
    divRound n (d * 2 ^ F.spacing (n / d)) ≤ 2 * 2 ^ F.fracBits ∧
      (0 < F.spacing (n / d) → 2 ^ F.fracBits ≤ divRound n (d * 2 ^ F.spacing (n / d))) := by
  obtain ⟨h1, h2⟩ := spacing_spec F (n / d)
  have hp : 0 < 2 ^ F.spacing (n / d) := Nat.pow_pos (by omega)
  have e : n / (d * 2 ^ F.spacing (n / d)) = n / d / 2 ^ F.spacing (n / d) := (Nat.div_div_eq_div_mul ..).symm
  constructor
  · have h3 : n / d / 2 ^ F.spacing (n / d) < 2 * 2 ^ F.fracBits :=
      (Nat.div_lt_iff_lt_mul hp).2 (by rw [Nat.mul_comm]; exact h1)
    have h4 := (divRound_bounds n (d * 2 ^ F.spacing (n / d))).2
    omega
  · intro h
    have h3 : 2 ^ F.fracBits ≤ n / d / 2 ^ F.spacing (n / d) :=
      (Nat.le_div_iff_mul_le hp).2 (by rw [Nat.mul_comm]; exact h2 h)
    have h4 := (divRound_bounds n (d * 2 ^ F.spacing (n / d))).1
    omega

/-- Rounding is monotone in the fraction. -/
theorem roundMag_mono {n d n' d' : Nat} (hd : 0 < d) (hd' : 0 < d') (h : n * d' ≤ n' * d) :
    F.roundMag n d ≤ F.roundMag n' d' := by
  have hs := spacing_mono (F := F) (div_le_div_of_cross hd hd' h)
  have hb := divRound_spacing F n d
  have hb' := divRound_spacing F n' d'
  unfold roundMag
  apply min_le_min_right
  rcases Nat.lt_or_eq_of_le hs with hlt | heq
  · have h1 := hb'.2 (by omega)
    have h2 : (F.spacing (n / d) + 1) * 2 ^ F.fracBits ≤ F.spacing (n' / d') * 2 ^ F.fracBits :=
      Nat.mul_le_mul_right _ hlt
    rw [Nat.add_mul] at h2
    omega
  · rw [heq]
    have hp : 0 < 2 ^ F.spacing (n' / d') := Nat.pow_pos (by omega)
    apply Nat.add_le_add_left
    apply divRound_mono (Nat.mul_pos hd hp) (Nat.mul_pos hd' hp)
    calc n * (d' * 2 ^ F.spacing (n' / d')) = n * d' * 2 ^ F.spacing (n' / d') := by ring
      _ ≤ n' * d * 2 ^ F.spacing (n' / d') := Nat.mul_le_mul_right _ h
      _ = n' * (d * 2 ^ F.spacing (n' / d')) := by ring

theorem roundMag_one_mono {n n' : Nat} (h : n ≤ n') : F.roundMag n 1 ≤ F.roundMag n' 1 :=
  roundMag_mono (by omega) (by omega) (by omega)

/-- Equal fractions are rounded alike. -/
theorem roundMag_congr {n d n' d' : Nat} (hd : 0 < d) (hd' : 0 < d') (h : n * d' = n' * d) :
    F.roundMag n d = F.roundMag n' d' :=
  Nat.le_antisymm (roundMag_mono hd hd' (Nat.le_of_eq h)) (roundMag_mono hd' hd (Nat.le_of_eq h.symm))

theorem spacing_eq_of {q k : Nat} (h1 : 2 ^ k * 2 ^ F.fracBits ≤ q) (h2 : q < 2 ^ k * (2 * 2 ^ F.fracBits)) :
    F.spacing q = k := by
  unfold spacing
  have hq : q ≠ 0 := by
    have : 0 < 2 ^ k * 2 ^ F.fracBits := Nat.mul_pos (Nat.pow_pos (by omega)) (frac_pos F)
    omega
  have : Nat.log2 q = k + F.fracBits := by
    rw [Nat.log2_eq_iff hq]
    constructor
    · rw [Nat.pow_add]; exact h1
    · rw [Nat.pow_succ, Nat.pow_add]
      calc q < 2 ^ k * (2 * 2 ^ F.fracBits) := h2
        _ = 2 ^ k * 2 ^ F.fracBits * 2 := by ring
  omega

/-! ### Patterns and their units -/

theorem unitsOf_small {m : Nat} (h : m < 2 ^ F.fracBits) : F.unitsOf m = m := if_pos h

theorem unitsOf_large {m : Nat} (h : 2 ^ F.fracBits ≤ m) :
    F.unitsOf m = (2 ^ F.fracBits + m % 2 ^ F.fracBits) * 2 ^ (m / 2 ^ F.fracBits - 1) := if_neg (Nat.not_lt.2 h)

@[simp] theorem unitsOf_zero : F.unitsOf 0 = 0 := unitsOf_small (frac_pos F)

/-- The pattern of a significand at a spacing. -/
theorem unitsOf_spacing {sp q : Nat} (hq : q < 2 * 2 ^ F.fracBits) (h2 : 0 < sp → 2 ^ F.fracBits ≤ q) :
    F.unitsOf (sp * 2 ^ F.fracBits + q) = q * 2 ^ sp := by
  rcases Nat.lt_or_ge q (2 ^ F.fracBits) with hlt | hge
  · have hsp : sp = 0 := by omega
    rw [hsp, Nat.zero_mul, Nat.zero_add, unitsOf_small hlt, Nat.pow_zero, Nat.mul_one]
  · obtain ⟨r, rfl⟩ : ∃ r, q = 2 ^ F.fracBits + r := ⟨q - 2 ^ F.fracBits, by omega⟩
    have hr : r < 2 ^ F.fracBits := by omega
    have e : sp * 2 ^ F.fracBits + (2 ^ F.fracBits + r) = r + (sp + 1) * 2 ^ F.fracBits := by ring
    rw [e, unitsOf_large (by rw [Nat.add_mul]; omega), Nat.add_mul_mod_self_right, Nat.mod_eq_of_lt hr,
      Nat.add_mul_div_right _ _ (frac_pos F), Nat.div_eq_of_lt hr, Nat.zero_add, Nat.add_sub_cancel]

/-- A pattern, taken apart as its spacing and its significand. -/
theorem mag_form (F : FltFormat) (m : Nat) : ∃ sp q, m = sp * 2 ^ F.fracBits + q ∧ q < 2 * 2 ^ F.fracBits ∧
    (0 < sp → 2 ^ F.fracBits ≤ q) ∧ F.unitsOf m = q * 2 ^ sp := by
  have key : ∀ sp q, m = sp * 2 ^ F.fracBits + q → q < 2 * 2 ^ F.fracBits → (0 < sp → 2 ^ F.fracBits ≤ q) →
      ∃ sp q, m = sp * 2 ^ F.fracBits + q ∧ q < 2 * 2 ^ F.fracBits ∧ (0 < sp → 2 ^ F.fracBits ≤ q) ∧
        F.unitsOf m = q * 2 ^ sp :=
    fun sp q h h1 h2 => ⟨sp, q, h, h1, h2, by rw [h]; exact unitsOf_spacing h1 h2⟩
  rcases Nat.lt_or_ge m (2 ^ F.fracBits) with hlt | hge
  · exact key 0 m (by omega) (by omega) (by omega)
  · have hd : 1 ≤ m / 2 ^ F.fracBits := (Nat.le_div_iff_mul_le (frac_pos F)).2 (by omega)
    have hm := Nat.mod_lt m (frac_pos F)
    have e := Nat.div_add_mod m (2 ^ F.fracBits)
    refine key (m / 2 ^ F.fracBits - 1) (2 ^ F.fracBits + m % 2 ^ F.fracBits) ?_ (by omega) (by omega)
    rw [Nat.sub_mul, Nat.one_mul, Nat.mul_comm]
    have : 2 ^ F.fracBits * 1 ≤ 2 ^ F.fracBits * (m / 2 ^ F.fracBits) := Nat.mul_le_mul_left _ hd
    omega

/-- A magnitude pattern is rounded to itself. -/
theorem roundMag_unitsOf {m : Nat} (h : m ≤ F.infMag) : F.roundMag (F.unitsOf m) 1 = m := by
  obtain ⟨sp, q, hm, hq, h2, hu⟩ := mag_form F m
  have hp : 0 < 2 ^ sp := Nat.pow_pos (by omega)
  have hs : F.spacing (q * 2 ^ sp) = sp := by
    rcases Nat.eq_zero_or_pos sp with h0 | h0
    · rw [h0, Nat.pow_zero, Nat.mul_one]
      have := spacing_spec F q
      by_contra hc
      have h3 := this.2 (by omega)
      have h4 : 2 * 2 ^ F.fracBits ≤ 2 ^ F.spacing q * 2 ^ F.fracBits := by
        apply Nat.mul_le_mul_right
        calc 2 = 2 ^ 1 := rfl
          _ ≤ 2 ^ F.spacing q := Nat.pow_le_pow_right (by omega) (by omega)
      omega
    · apply spacing_eq_of
      · rw [Nat.mul_comm]; exact Nat.mul_le_mul_right _ (h2 h0)
      · rw [Nat.mul_comm]; exact Nat.mul_lt_mul_of_pos_left hq hp
  unfold roundMag
  rw [hu, Nat.div_one, hs, Nat.one_mul, divRound_exact _ _ hp, ← hm]
  exact Nat.min_eq_left h

theorem unitsOf_mono {m m' : Nat} (h : m ≤ m') (h' : m' ≤ F.infMag) : F.unitsOf m ≤ F.unitsOf m' := by
  rcases Nat.le_total (F.unitsOf m) (F.unitsOf m') with hu | hu
  · exact hu
  · have h1 := roundMag_one_mono (F := F) hu
    rw [roundMag_unitsOf h', roundMag_unitsOf (Nat.le_trans h h')] at h1
    rw [Nat.le_antisymm h h1]

theorem le_of_unitsOf_le {m m' : Nat} (hm : m ≤ F.infMag) (h' : m' ≤ F.infMag)
    (h : F.unitsOf m ≤ F.unitsOf m') : m ≤ m' := by
  have h1 := roundMag_one_mono (F := F) h
  rwa [roundMag_unitsOf hm, roundMag_unitsOf h'] at h1

theorem roundMag_zero (d : Nat) : F.roundMag 0 d = 0 := by
  simp [roundMag, divRound, spacing]

theorem unitsOf_one : F.unitsOf 1 = 1 := unitsOf_small (by have := frac_ge F; omega)

/-- Only zero is rounded to zero when the fraction is a unit or more. -/
theorem roundMag_pos {n d : Nat} (hd : 0 < d) (h : d ≤ n) : 0 < F.roundMag n d := by
  have h1 : F.roundMag (F.unitsOf 1) 1 ≤ F.roundMag n d :=
    roundMag_mono (by omega) hd (by rw [unitsOf_one]; omega)
  rw [roundMag_unitsOf (infMag_pos F)] at h1
  omega

theorem roundMag_one_pos {n : Nat} (h : 0 < n) : 0 < F.roundMag n 1 := roundMag_pos (by omega) h

/-- A pattern that is not zero has a unit or more. -/
theorem unitsOf_pos {m : Nat} (h : 0 < m) (h' : m ≤ F.infMag) : 0 < F.unitsOf m := by
  have := unitsOf_mono (F := F) (m := 1) h h'
  rw [unitsOf_one] at this
  omega

/-- A whole number of units that a significand reaches is a magnitude: rounding does not change it. -/
theorem roundMag_exact {k e : Nat} (hk : k < 2 * 2 ^ F.fracBits) (he : e < 2 * F.bias) :
    F.unitsOf (F.roundMag (k * 2 ^ e) 1) = k * 2 ^ e ∧ F.roundMag (k * 2 ^ e) 1 < F.infMag := by
  rcases Nat.eq_zero_or_pos k with rfl | hpos
  · simp [roundMag_zero, infMag_pos]
  generalize hn : k * 2 ^ e = n
  have hn0 : 0 < n := by rw [← hn]; exact Nat.mul_pos hpos (Nat.pow_pos (by omega))
  have hs : F.spacing n ≤ e := by
    unfold spacing
    have h1 : n < 2 ^ (F.fracBits + 1 + e) := by
      rw [← hn, Nat.pow_add, Nat.pow_succ, Nat.mul_comm (2 ^ F.fracBits)]
      exact Nat.mul_lt_mul_of_pos_right hk (Nat.pow_pos (by omega))
    have := (Nat.log2_lt (by omega)).2 h1
    omega
  obtain ⟨q, hq⟩ : ∃ q, n = q * 2 ^ F.spacing n := by
    refine ⟨k * 2 ^ (e - F.spacing n), ?_⟩
    conv_lhs => rw [← hn]
    rw [Nat.mul_assoc, ← Nat.pow_add, Nat.sub_add_cancel hs]
  obtain ⟨h1, h2⟩ := spacing_spec F n
  generalize F.spacing n = sp at *
  have hp : 0 < 2 ^ sp := Nat.pow_pos (by omega)
  have hq1 : q < 2 * 2 ^ F.fracBits := by
    rw [hq, Nat.mul_comm] at h1
    exact Nat.lt_of_mul_lt_mul_left h1
  have hq2 : 0 < sp → 2 ^ F.fracBits ≤ q := fun h => by
    have := h2 h
    rw [hq, Nat.mul_comm q] at this
    exact Nat.le_of_mul_le_mul_left this hp
  have hu := unitsOf_spacing hq1 hq2
  rw [← hq] at hu
  have hm : sp * 2 ^ F.fracBits + q < F.infMag := by
    rw [infMag_eq]
    have : (sp + 2) * 2 ^ F.fracBits ≤ (2 * F.bias + 1) * 2 ^ F.fracBits :=
      Nat.mul_le_mul_right _ (by omega)
    rw [Nat.add_mul] at this
    omega
  rw [← hu, roundMag_unitsOf (Nat.le_of_lt hm)]
  exact ⟨rfl, hm⟩

/-- The units of a finite magnitude, as a significand at the pattern's exponent. -/
theorem unitsOf_form {m : Nat} (h : m < F.infMag) : ∃ k e, k < 2 * 2 ^ F.fracBits ∧ e < 2 * F.bias ∧
    F.unitsOf m = k * 2 ^ e ∧ (0 < e → 2 ^ F.fracBits ≤ k) := by
  obtain ⟨sp, q, hm, hq, h2, hu⟩ := mag_form F m
  refine ⟨q, sp, hq, ?_, hu, h2⟩
  rw [infMag_eq] at h
  by_contra hc
  have hb := bias_ge F
  have h3 := h2 (by omega)
  have : (2 * F.bias + 1) * 2 ^ F.fracBits ≤ (sp + 1) * 2 ^ F.fracBits := Nat.mul_le_mul_right _ (by omega)
  rw [Nat.add_mul sp] at this
  omega

/-- The remainder of two finite magnitudes is a finite magnitude: `fmod` needs no rounding (R14). -/
theorem unitsOf_mod_exact {a b : Nat} (ha : a < F.infMag) (hb : b < F.infMag) (hb0 : 0 < b) :
    F.unitsOf (F.roundMag (F.unitsOf a % F.unitsOf b) 1) = F.unitsOf a % F.unitsOf b ∧
      F.roundMag (F.unitsOf a % F.unitsOf b) 1 < b := by
  have hbp : 0 < F.unitsOf b := unitsOf_pos hb0 (Nat.le_of_lt hb)
  have hlt := Nat.mod_lt (F.unitsOf a) hbp
  have key : ∃ k e, k < 2 * 2 ^ F.fracBits ∧ e < 2 * F.bias ∧ F.unitsOf a % F.unitsOf b = k * 2 ^ e := by
    obtain ⟨ka, ea, h1, h2, h3, h4⟩ := unitsOf_form ha
    obtain ⟨kb, eb, g1, g2, g3, g4⟩ := unitsOf_form hb
    rcases Nat.lt_or_ge (F.unitsOf a) (F.unitsOf b) with hab | hab
    · exact ⟨ka, ea, h1, h2, by rw [Nat.mod_eq_of_lt hab, h3]⟩
    · have hle : eb ≤ ea := by
        by_contra hc
        have hkb := g4 (by omega)
        have : ka * 2 ^ ea < kb * 2 ^ eb := by
          calc ka * 2 ^ ea < 2 * 2 ^ F.fracBits * 2 ^ ea := Nat.mul_lt_mul_of_pos_right h1 (Nat.pow_pos (by omega))
            _ = 2 ^ F.fracBits * 2 ^ (ea + 1) := by rw [Nat.pow_succ]; ring
            _ ≤ kb * 2 ^ eb := Nat.mul_le_mul hkb (Nat.pow_le_pow_right (by omega) (by omega))
        omega
      have hp : 0 < 2 ^ eb := Nat.pow_pos (by omega)
      have ea' : ka * 2 ^ ea = 2 ^ eb * (ka * 2 ^ (ea - eb)) := by
        rw [Nat.mul_left_comm, ← Nat.pow_add]; congr 2; omega
      have e : F.unitsOf a % F.unitsOf b = (ka * 2 ^ (ea - eb) % kb) * 2 ^ eb := by
        rw [h3, g3, ea', Nat.mul_comm kb, Nat.mul_mod_mul_left, Nat.mul_comm]
      refine ⟨_, eb, ?_, g2, e⟩
      have hkb : 0 < kb := by
        rcases Nat.eq_zero_or_pos kb with h | h
        · rw [g3, h] at hbp; omega
        · exact h
      have := Nat.mod_lt (ka * 2 ^ (ea - eb)) hkb
      omega
  obtain ⟨k, e, h1, h2, h3⟩ := key
  have hr := roundMag_exact h1 h2
  rw [← h3] at hr
  refine ⟨hr.1, ?_⟩
  by_contra hc
  have := unitsOf_mono (Nat.le_of_not_lt hc) (Nat.le_of_lt hr.2)
  omega

/-! ### The constants -/

theorem one_units : F.unitsOf F.one.mag = F.unitsPerOne := by
  have hb := bias_ge F
  have e : F.one.mag = (F.bias - 1) * 2 ^ F.fracBits + 2 ^ F.fracBits := by
    show F.bias * 2 ^ F.fracBits = _
    have : F.bias = F.bias - 1 + 1 := by omega
    conv_lhs => rw [this, Nat.add_mul, Nat.one_mul]
  rw [e, unitsOf_spacing (by have := frac_pos F; omega) (fun _ => Nat.le_refl _), unitsPerOne_eq]

theorem ofUnits_natCast (n : Nat) : F.ofUnits (n : Int) = ⟨false, F.roundMag n 1⟩ := by
  have : decide ((n : Int) < 0) = false := by simp
  rw [ofUnits, this, Int.natAbs_natCast]

theorem ofNat_eq (n : Nat) : F.ofNat n = ⟨false, F.roundMag (n * F.unitsPerOne) 1⟩ := ofUnits_natCast _

@[simp] theorem ofNat_sgn (n : Nat) : (F.ofNat n).sgn = false := by rw [ofNat_eq]

/-- A whole number that binary32 counts exactly, over a power of two, is an FLT value in every format. -/
theorem ofRat_pow_units (s : Bool) {n k : Nat} (h : n ≤ 16777216) (hk : k ≤ 127) :
    F.unitsOf (F.ofRat s n (2 ^ k)).mag * 2 ^ k = n * F.unitsPerOne ∧ (F.ofRat s n (2 ^ k)).mag < F.infMag := by
  have hb := bias_ge F
  have hf := fracBits_ge F
  have hp : 0 < 2 ^ k := Nat.pow_pos (by omega)
  have hg : 0 < 2 ^ (F.fracBits - 23) := Nat.pow_pos (by omega)
  have e23 : 2 ^ F.fracBits = 8388608 * 2 ^ (F.fracBits - 23) := by
    rw [show (8388608 : Nat) = 2 ^ 23 from rfl, ← Nat.pow_add]
    congr 1
    omega
  have hu : F.unitsPerOne = 2 ^ (F.fracBits - 23) * 2 ^ (F.bias + 22 - k) * 2 ^ k := by
    unfold unitsPerOne
    rw [← Nat.pow_add, ← Nat.pow_add]
    congr 1
    omega
  have key : ∃ q e, q < 2 * 2 ^ F.fracBits ∧ e < 2 * F.bias ∧ n * F.unitsPerOne = q * 2 ^ e * 2 ^ k := by
    rcases Nat.lt_or_eq_of_le h with hlt | rfl
    · refine ⟨n * 2 ^ (F.fracBits - 23), F.bias + 22 - k, ?_, by omega, by rw [hu]; ring⟩
      calc n * 2 ^ (F.fracBits - 23) < 16777216 * 2 ^ (F.fracBits - 23) := Nat.mul_lt_mul_of_pos_right hlt hg
        _ = 2 * 2 ^ F.fracBits := by rw [e23]; ring
    · refine ⟨2 ^ F.fracBits, F.bias + 22 - k + 1, by have := frac_pos F; omega, by omega, ?_⟩
      rw [hu, e23, Nat.pow_succ 2 (F.bias + 22 - k)]; ring
  obtain ⟨q, e, hq, he, hqe⟩ := key
  have hr := roundMag_exact (F := F) hq he
  have hc : (F.ofRat s n (2 ^ k)).mag = F.roundMag (q * 2 ^ e) 1 :=
    roundMag_congr hp (by omega) (by rw [Nat.mul_one]; exact hqe)
  rw [hc]
  exact ⟨by rw [hr.1, hqe], hr.2⟩

theorem ofNat_eq_ofRat (n : Nat) : F.ofNat n = F.ofRat false n 1 := ofNat_eq n

/-- A whole number that binary32 counts exactly is an FLT value in every format (R14's `toF`). -/
theorem ofNat_units {n : Nat} (h : n ≤ 16777216) :
    F.unitsOf (F.ofNat n).mag = n * F.unitsPerOne ∧ (F.ofNat n).mag < F.infMag := by
  have := ofRat_pow_units (F := F) false (k := 0) h (by omega)
  rw [Nat.pow_zero, Nat.mul_one, ← ofNat_eq_ofRat] at this
  exact this

theorem ofNat_mag_lt {n : Nat} (h : n ≤ 16777216) : (F.ofNat n).mag < F.infMag := (ofNat_units h).2

theorem ofNat_mono {m n : Nat} (h : m ≤ n) : (F.ofNat m).mag ≤ (F.ofNat n).mag := by
  rw [ofNat_eq, ofNat_eq]
  exact roundMag_one_mono (Nat.mul_le_mul_right _ h)

theorem ofNat_one : F.ofNat 1 = F.one := by
  rw [ofNat_eq, Nat.one_mul, ← one_units, roundMag_unitsOf (Nat.le_of_lt (one_mag_lt F))]
  rfl

theorem ofNat_zero : F.ofNat 0 = zero := by
  rw [ofNat_eq, Nat.zero_mul, roundMag_zero]
  rfl

theorem ofNat_mag_pos {n : Nat} (h : 1 ≤ n) : 0 < (F.ofNat n).mag := by
  have := ofNat_mono (F := F) h
  rw [ofNat_one] at this
  have := one_mag_pos F
  omega

/-- A positive rational that is not too small is rounded to a positive value. -/
theorem ofRat_mag_pos {n d : Nat} (hd : 0 < d) (h : d ≤ n * F.unitsPerOne) : 0 < (F.ofRat false n d).mag :=
  roundMag_pos hd h

/-- A rational of at most one is rounded to at most one. -/
theorem ofRat_mag_le_one {n d : Nat} (hd : 0 < d) (h : n ≤ d) : (F.ofRat false n d).mag ≤ F.one.mag := by
  have h1 : F.roundMag (n * F.unitsPerOne) d ≤ F.roundMag (1 * F.unitsPerOne) 1 :=
    roundMag_mono hd (by omega) (by rw [Nat.mul_one, Nat.one_mul, Nat.mul_comm]; exact Nat.mul_le_mul_left _ h)
  have h2 := congrArg Flt.mag (ofNat_one (F := F))
  rw [ofNat_eq] at h2
  exact h2 ▸ h1

/-! ### Ranges and signs -/

theorem nonneg_iff (x : Flt) : F.nonneg x = true ↔ x.sgn = false ∧ x.mag ≤ F.infMag := by simp [nonneg]

theorem unit_iff (x : Flt) : F.unit x = true ↔ x.sgn = false ∧ x.mag ≤ F.one.mag := by simp [unit]

theorem isNaN_iff (x : Flt) : F.isNaN x = true ↔ F.infMag < x.mag := by simp [isNaN]

theorem not_isNaN_iff (x : Flt) : F.isNaN x = false ↔ x.mag ≤ F.infMag := by simp [isNaN]

theorem isFinite_iff (x : Flt) : F.isFinite x = true ↔ x.mag < F.infMag := by simp [isFinite]

theorem notNeg_iff (x : Flt) : F.notNeg x = true ↔ F.isNaN x = true ∨ x.sgn = false := by simp [notNeg]

theorem isFinite_not_isNaN {x : Flt} (h : F.isFinite x = true) : F.isNaN x = false :=
  (not_isNaN_iff x).2 (Nat.le_of_lt ((isFinite_iff x).1 h))

theorem isFinite_not_isInf {x : Flt} (h : F.isFinite x = true) : F.isInf x = false := by
  simpa [isInf] using Nat.ne_of_lt ((isFinite_iff x).1 h)

theorem unit_isFinite {c : Flt} (h : F.unit c = true) : F.isFinite c = true :=
  (isFinite_iff c).2 (Nat.lt_of_le_of_lt ((unit_iff c).1 h).2 (one_mag_lt F))

theorem unit_nonneg {x : Flt} (h : F.unit x = true) : F.nonneg x = true := by
  rw [unit_iff] at h
  rw [nonneg_iff]
  exact ⟨h.1, Nat.le_trans h.2 (Nat.le_of_lt (one_mag_lt F))⟩

theorem nonneg_notNeg {x : Flt} (h : F.nonneg x = true) : F.notNeg x = true := by
  rw [nonneg_iff] at h
  simp [notNeg, h.1]

theorem nonneg_not_isNaN {x : Flt} (h : F.nonneg x = true) : F.isNaN x = false := by
  rw [nonneg_iff] at h
  exact (not_isNaN_iff x).2 h.2

theorem notNeg_nonneg {x : Flt} (h : F.notNeg x = true) (hn : F.isNaN x = false) : F.nonneg x = true := by
  rw [notNeg_iff, hn] at h
  rw [nonneg_iff]
  exact ⟨by simpa using h, (not_isNaN_iff x).1 hn⟩

theorem nonneg_mk {m : Nat} (h : m ≤ F.infMag) : F.nonneg ⟨false, m⟩ = true := (nonneg_iff _).2 ⟨rfl, h⟩

@[simp] theorem zero_unit : F.unit zero = true := (unit_iff _).2 ⟨rfl, Nat.zero_le _⟩
@[simp] theorem zero_nonneg : F.nonneg zero = true := unit_nonneg zero_unit
@[simp] theorem zero_isNaN : F.isNaN zero = false := nonneg_not_isNaN zero_nonneg
@[simp] theorem zero_isFinite : F.isFinite zero = true := unit_isFinite zero_unit
@[simp] theorem negZero_isNaN : F.isNaN negZero = false := (not_isNaN_iff _).2 (Nat.zero_le _)
@[simp] theorem one_unit : F.unit F.one = true := (unit_iff _).2 ⟨rfl, Nat.le_refl _⟩
@[simp] theorem one_nonneg : F.nonneg F.one = true := unit_nonneg one_unit
@[simp] theorem one_isNaN : F.isNaN F.one = false := nonneg_not_isNaN one_nonneg
@[simp] theorem one_isFinite : F.isFinite F.one = true := unit_isFinite one_unit
@[simp] theorem negOne_isFinite : F.isFinite F.negOne = true := (isFinite_iff _).2 (one_mag_lt F)

theorem ofNat_isFinite {n : Nat} (h : n ≤ 16777216) : F.isFinite (F.ofNat n) = true :=
  (isFinite_iff _).2 (ofNat_mag_lt h)

theorem ofNat_nonneg (n : Nat) : F.nonneg (F.ofNat n) = true := by
  rw [ofNat_eq]; exact nonneg_mk (roundMag_le _ _)

/-- An invalid operation gives a NaN. -/
theorem nanResult_isNaN (op : FltOp) (a b : Flt) : F.isNaN (F.nanResult op a b) = true := by
  rw [isNaN_iff]
  unfold nanResult
  have : 0 < 2 ^ (F.fracBits - 1) := Nat.pow_pos (by omega)
  dsimp only
  omega

theorem nanResult_notNeg (op : FltOp) (a b : Flt) : F.notNeg (F.nanResult op a b) = true := by
  simp [notNeg, nanResult_isNaN]

@[simp] theorem negate_isNaN (x : Flt) : F.isNaN x.negate = F.isNaN x := rfl

@[simp] theorem negate_isInf (x : Flt) : F.isInf x.negate = F.isInf x := rfl

@[simp] theorem negate_isFinite (x : Flt) : F.isFinite x.negate = F.isFinite x := rfl

theorem negate_val (x : Flt) : F.val x.negate = -F.val x := by
  obtain ⟨s, m⟩ := x
  cases s <;> simp [val, units, Flt.negate]

theorem val_of_sgn_false {x : Flt} (h : x.sgn = false) : F.val x = (F.units x : Int) := by simp [val, h]

theorem ofUnits_nonneg {v : Int} (h : 0 ≤ v) : F.nonneg (F.ofUnits v) = true := by
  have : decide (v < 0) = false := by simpa using h
  rw [ofUnits, this]
  exact nonneg_mk (roundMag_le _ _)

theorem ofUnits_not_isNaN (v : Int) : F.isNaN (F.ofUnits v) = false :=
  (not_isNaN_iff _).2 (roundMag_le _ _)

theorem add_of_finite {a b : Flt} (ha : F.isFinite a = true) (hb : F.isFinite b = true) :
    F.add a b = F.addFinite a b := by
  simp [add, isFinite_not_isNaN ha, isFinite_not_isNaN hb, isFinite_not_isInf ha, isFinite_not_isInf hb]

theorem mul_of_finite {a b : Flt} (ha : F.isFinite a = true) (hb : F.isFinite b = true) :
    F.mul a b = ⟨a.sgn != b.sgn, F.roundMag (F.units a * F.units b) F.unitsPerOne⟩ := by
  simp [mul, isFinite_not_isNaN ha, isFinite_not_isNaN hb, isFinite_not_isInf ha, isFinite_not_isInf hb]

theorem div_of_finite {a b : Flt} (ha : F.isFinite a = true) (hb : F.isFinite b = true) (hz : b.isZero = false) :
    F.div a b = ⟨a.sgn != b.sgn, F.roundMag (F.units a * F.unitsPerOne) (F.units b)⟩ := by
  simp [div, isFinite_not_isNaN ha, isFinite_not_isNaN hb, isFinite_not_isInf ha, isFinite_not_isInf hb, hz]

/-- The sum of two values that are not below zero is not below zero. -/
theorem add_notNeg {a b : Flt} (ha : F.notNeg a = true) (hb : F.notNeg b = true) :
    F.notNeg (F.add a b) = true := by
  by_cases hn : (F.isNaN a || F.isNaN b) = true
  · simp [add, hn, nanResult_notNeg]
  · have hn' : F.isNaN a = false ∧ F.isNaN b = false := by simpa using hn
    have sa : a.sgn = false := by simpa [notNeg_iff, hn'.1] using ha
    have sb : b.sgn = false := by simpa [notNeg_iff, hn'.2] using hb
    unfold add
    rw [if_neg hn]
    by_cases h1 : F.isInf a = true
    · simp [h1, sa, sb, notNeg]
    · by_cases h2 : F.isInf b = true
      · simp [h1, h2, sb, notNeg]
      · simp only [h1, h2, if_false, Bool.false_eq_true]
        unfold addFinite
        split
        · simp [sa, notNeg]
        · apply nonneg_notNeg
          apply ofUnits_nonneg
          rw [val_of_sgn_false sa, val_of_sgn_false sb]
          omega

/-- A sum is a NaN only of a NaN or of two infinities of opposite signs. -/
theorem add_nonneg {a b : Flt} (ha : F.nonneg a = true) (hb : F.nonneg b = true) :
    F.nonneg (F.add a b) = true := by
  have hna := nonneg_not_isNaN ha
  have hnb := nonneg_not_isNaN hb
  have sa := ((nonneg_iff a).1 ha).1
  have sb := ((nonneg_iff b).1 hb).1
  apply notNeg_nonneg (add_notNeg (nonneg_notNeg ha) (nonneg_notNeg hb))
  unfold add
  simp only [hna, hnb, Bool.or_self, Bool.false_eq_true, if_false, sa, sb, bne_self_eq_false, Bool.and_false]
  split
  · exact hna
  · split
    · exact hnb
    · unfold addFinite
      split
      · simp [sa]
      · exact ofUnits_not_isNaN _

/-- Where a product is not a NaN its sign is that of the operands. -/
theorem mul_notNeg {a b : Flt} (ha : F.notNeg a = true) (hb : F.notNeg b = true) :
    F.notNeg (F.mul a b) = true := by
  by_cases hn : (F.isNaN a || F.isNaN b) = true
  · simp [mul, hn, nanResult_notNeg]
  · have hn' : F.isNaN a = false ∧ F.isNaN b = false := by simpa using hn
    have sa : a.sgn = false := by simpa [notNeg_iff, hn'.1] using ha
    have sb : b.sgn = false := by simpa [notNeg_iff, hn'.2] using hb
    unfold mul
    rw [if_neg hn, sa, sb]
    split
    · split
      · exact nanResult_notNeg ..
      · exact nonneg_notNeg (nonneg_mk (Nat.le_refl _))
    · exact nonneg_notNeg (nonneg_mk (roundMag_le _ _))

theorem div_notNeg {a b : Flt} (ha : F.notNeg a = true) (hb : F.notNeg b = true) :
    F.notNeg (F.div a b) = true := by
  by_cases hn : (F.isNaN a || F.isNaN b) = true
  · simp [div, hn, nanResult_notNeg]
  · have hn' : F.isNaN a = false ∧ F.isNaN b = false := by simpa using hn
    have sa : a.sgn = false := by simpa [notNeg_iff, hn'.1] using ha
    have sb : b.sgn = false := by simpa [notNeg_iff, hn'.2] using hb
    unfold div
    rw [if_neg hn, sa, sb]
    split
    · split
      · exact nanResult_notNeg ..
      · exact nonneg_notNeg (nonneg_mk (Nat.le_refl _))
    · split
      · exact nonneg_notNeg (nonneg_mk (Nat.zero_le _))
      · split
        · split
          · exact nanResult_notNeg ..
          · exact nonneg_notNeg (nonneg_mk (Nat.le_refl _))
        · exact nonneg_notNeg (nonneg_mk (roundMag_le _ _))

/-! ### Comparisons -/

theorem le_iff (a b : Flt) : F.le a b = true ↔ F.isNaN a = false ∧ F.isNaN b = false ∧ a.key ≤ b.key := by
  simp [le, and_assoc]

theorem lt_iff (a b : Flt) : F.lt a b = true ↔ F.isNaN a = false ∧ F.isNaN b = false ∧ a.key < b.key := by
  simp [lt, and_assoc]

/-- Values with a clear sign are ordered as their magnitude patterns. -/
theorem le_iff_mag {a b : Flt} (ha : F.nonneg a = true) (hb : F.nonneg b = true) :
    F.le a b = true ↔ a.mag ≤ b.mag := by
  rw [le_iff, Flt.key_of_sgn_false ((nonneg_iff a).1 ha).1, Flt.key_of_sgn_false ((nonneg_iff b).1 hb).1]
  simp [nonneg_not_isNaN ha, nonneg_not_isNaN hb]

theorem lt_iff_mag {a b : Flt} (ha : F.nonneg a = true) (hb : F.nonneg b = true) :
    F.lt a b = true ↔ a.mag < b.mag := by
  rw [lt_iff, Flt.key_of_sgn_false ((nonneg_iff a).1 ha).1, Flt.key_of_sgn_false ((nonneg_iff b).1 hb).1]
  simp [nonneg_not_isNaN ha, nonneg_not_isNaN hb]

/-- What is above zero has a clear sign. -/
theorem sgn_of_gt_zero {x : Flt} (h : F.gt x zero = true) : x.sgn = false := by
  have h4 := ((lt_iff _ _).1 h).2.2
  by_contra hc
  have hc : x.sgn = true := by simpa using hc
  unfold Flt.key at h4
  rw [hc] at h4
  simp at h4
  omega

theorem notNeg_of_gt_zero {x : Flt} (h : F.gt x zero = true) : F.notNeg x = true :=
  (notNeg_iff x).2 (.inr (sgn_of_gt_zero h))

/-- Above zero: sign clear, and not the zero pattern. -/
theorem gt_zero_iff {x : Flt} (h : F.nonneg x = true) : F.gt x zero = true ↔ 0 < x.mag := by
  unfold gt
  rw [lt_iff_mag zero_nonneg h, Flt.zero_mag]

theorem posFinite_iff (x : Flt) : F.posFinite x = true ↔ x.sgn = false ∧ 0 < x.mag ∧ x.mag < F.infMag := by
  unfold posFinite
  rw [Bool.and_eq_true, isFinite_iff]
  constructor
  · rintro ⟨h1, h2⟩
    have hs := sgn_of_gt_zero h2
    exact ⟨hs, (gt_zero_iff ((nonneg_iff x).2 ⟨hs, Nat.le_of_lt h1⟩)).1 h2, h1⟩
  · rintro ⟨hs, h1, h2⟩
    exact ⟨h2, (gt_zero_iff ((nonneg_iff x).2 ⟨hs, Nat.le_of_lt h2⟩)).2 h1⟩

theorem ofNat_posFinite {n : Nat} (h1 : 1 ≤ n) (h2 : n ≤ 16777216) : F.posFinite (F.ofNat n) = true :=
  (posFinite_iff _).2 ⟨ofNat_sgn n, ofNat_mag_pos h1, ofNat_mag_lt h2⟩

theorem posFinite_isFinite {x : Flt} (h : F.posFinite x = true) : F.isFinite x = true :=
  (isFinite_iff x).2 ((posFinite_iff x).1 h).2.2

theorem posFinite_nonneg {x : Flt} (h : F.posFinite x = true) : F.nonneg x = true := by
  obtain ⟨h1, _, h3⟩ := (posFinite_iff x).1 h
  exact (nonneg_iff x).2 ⟨h1, Nat.le_of_lt h3⟩

theorem posFinite_not_isZero {x : Flt} (h : F.posFinite x = true) : x.isZero = false := by
  simpa [Flt.isZero] using Nat.ne_of_gt ((posFinite_iff x).1 h).2.1

/-- What is positive and finite divides without giving a NaN. -/
theorem div_nonneg {a b : Flt} (ha : F.nonneg a = true) (hb : F.posFinite b = true) :
    F.nonneg (F.div a b) = true := by
  apply notNeg_nonneg (div_notNeg (nonneg_notNeg ha) (nonneg_notNeg (posFinite_nonneg hb)))
  have hbf := posFinite_isFinite hb
  unfold div
  rw [nonneg_not_isNaN ha, isFinite_not_isNaN hbf, isFinite_not_isInf hbf, posFinite_not_isZero hb]
  simp only [Bool.or_self, Bool.false_eq_true, if_false]
  split
  · exact (not_isNaN_iff _).2 (Nat.le_refl _)
  · exact (not_isNaN_iff _).2 (roundMag_le _ _)

theorem min_eq (a b : Flt) : F.min a b = a ∧ F.le a b = true ∨ F.min a b = b ∧ F.le a b = false := by
  unfold min
  cases F.le a b <;> simp

theorem max_eq (a b : Flt) : F.max a b = a ∧ F.ge a b = true ∨ F.max a b = b ∧ F.ge a b = false := by
  unfold max
  cases F.ge a b <;> simp

/-- What is not below zero, capped at 1.0, is in [0,1]. -/
theorem min_one_unit {x : Flt} (h : F.notNeg x = true) : F.unit (F.min x F.one) = true := by
  rcases min_eq x F.one with ⟨h1, h2⟩ | ⟨h1, _⟩
  · rw [h1]
    have h3 := (le_iff _ _).1 h2
    have hx := notNeg_nonneg h h3.1
    exact (unit_iff x).2 ⟨((nonneg_iff x).1 hx).1, (le_iff_mag hx one_nonneg).1 h2⟩
  · rw [h1]; exact one_unit

/-- A level in [0,1] less something not below zero: where the difference reaches a floor in [0,1], it is
in [0,1], and not above the level. -/
theorem sub_unit_of_ge {e d s : Flt} (he : F.unit e = true) (hd : F.notNeg d = true) (hs : F.unit s = true)
    (h : F.ge (F.sub e d) s = true) : F.unit (F.sub e d) = true ∧ (F.sub e d).mag ≤ e.mag := by
  have hge := (le_iff _ _).1 h
  have he' := unit_nonneg he
  have hef := unit_isFinite he
  have hene := nonneg_not_isNaN he'
  have hes := ((unit_iff e).1 he).1
  have hem := ((unit_iff e).1 he).2
  have hs0 : 0 ≤ s.key := by
    rw [Flt.key_of_sgn_false ((unit_iff s).1 hs).1]; omega
  by_cases hdn : F.isNaN d = true
  · exfalso
    have : F.isNaN (F.sub e d) = true := by
      unfold sub add
      simp [hdn, nanResult_isNaN]
    rw [this] at hge
    exact absurd hge.2.1 (by simp)
  · have hdn : F.isNaN d = false := by simpa using hdn
    have hds := ((nonneg_iff d).1 (notNeg_nonneg hd hdn)).1
    have heInf := isFinite_not_isInf hef
    by_cases hdInf : F.isInf d = true
    · exfalso
      have hsub : F.sub e d = d.negate := by
        unfold sub add
        simp [hdn, hene, heInf, hdInf]
      have : d.negate.key < 0 := by
        have hm : d.mag = F.infMag := by simpa [isInf] using hdInf
        have := infMag_pos F
        simp only [Flt.key, Flt.negate_sgn, hds, Bool.not_false, if_true, Flt.negate_mag, hm]
        omega
      rw [hsub] at hge
      omega
    · have hsub : F.sub e d = F.addFinite e d.negate := by
        unfold sub add
        simp [hdn, hene, heInf, hdInf]
      have hv : F.val e + F.val d.negate = (F.units e : Int) - F.units d := by
        rw [negate_val, val_of_sgn_false hes, val_of_sgn_false hds]; omega
      rw [hsub] at hge ⊢
      unfold addFinite at hge ⊢
      rw [hv] at hge ⊢
      by_cases h0 : (F.units e : Int) - F.units d = 0
      · simp only [h0, if_true, hes, Bool.false_and, Bool.false_eq_true, if_false]
        exact ⟨zero_unit, Nat.zero_le _⟩
      · rw [if_neg h0] at hge ⊢
        by_cases hneg : (F.units e : Int) - F.units d < 0
        · exfalso
          have hk : (F.ofUnits ((F.units e : Int) - F.units d)).key < 0 := by
            unfold ofUnits Flt.key
            have hp := roundMag_one_pos (F := F) (n := ((F.units e : Int) - F.units d).natAbs) (by omega)
            simp only [hneg, decide_true, if_true]
            omega
          omega
        · have e1 : (F.units e : Int) - F.units d = ((F.units e - F.units d : Nat) : Int) := by omega
          rw [e1, ofUnits_natCast]
          have hm : F.roundMag (F.units e - F.units d) 1 ≤ e.mag := by
            have h1 : F.roundMag (F.units e - F.units d) 1 ≤ F.roundMag (F.units e) 1 := roundMag_one_mono (by omega)
            have h2 : F.roundMag (F.units e) 1 = e.mag := roundMag_unitsOf ((nonneg_iff e).1 he').2
            omega
          rw [unit_iff]
          exact ⟨⟨rfl, Nat.le_trans hm hem⟩, hm⟩

/-- A level in [0,1] less something not below zero, held at a floor in [0,1], is in [0,1]. -/
theorem sub_max_unit {e d s : Flt} (he : F.unit e = true) (hd : F.notNeg d = true) (hs : F.unit s = true) :
    F.unit (F.max (F.sub e d) s) = true := by
  rcases max_eq (F.sub e d) s with ⟨h1, h2⟩ | ⟨h1, _⟩
  · rw [h1]; exact (sub_unit_of_ge he hd hs h2).1
  · rw [h1]; exact hs

/-! ### fmod (R14) -/

theorem inRange_iff {y r : Flt} (hy : F.nonneg y = true) :
    F.inRange y r = true ↔ r.sgn = false ∧ r.mag < y.mag := by
  unfold inRange
  rw [Bool.and_eq_true]
  constructor
  · rintro ⟨h1, h2⟩
    have h1 : r.sgn = false := by simpa using h1
    have hn := ((lt_iff _ _).1 h2).1
    have hr : F.nonneg r = true := (nonneg_iff r).2 ⟨h1, (not_isNaN_iff r).1 hn⟩
    exact ⟨h1, (lt_iff_mag hr hy).1 h2⟩
  · rintro ⟨h1, h2⟩
    have hr : F.nonneg r = true := (nonneg_iff r).2 ⟨h1, by have := ((nonneg_iff y).1 hy).2; omega⟩
    exact ⟨by simp [h1], (lt_iff_mag hr hy).2 h2⟩

/-- Whatever `x` is, `fmod x y` is in [0, y) for a positive finite `y` (R14, R32 item 4). -/
theorem fmod_inRange (x : Flt) {y : Flt} (h : F.posFinite y = true) : F.inRange y (F.fmod x y) = true := by
  obtain ⟨hs, hm, hyl⟩ := (posFinite_iff y).1 h
  have hy : F.nonneg y = true := (nonneg_iff y).2 ⟨hs, Nat.le_of_lt hyl⟩
  have h0 : F.inRange y zero = true := (inRange_iff hy).2 ⟨rfl, hm⟩
  unfold fmod
  split
  · rename_i h
    simp only [Bool.and_eq_true] at h
    obtain ⟨h1, h2⟩ := unitsOf_mod_exact ((isFinite_iff x).1 h.1.1.1) hyl hm
    rw [ofUnits_natCast, inRange_iff hy]
    exact ⟨rfl, h2⟩
  · split
    · assumption
    · exact h0

/-! ### Differences and fractions of values that are not below zero -/

theorem units_le_of_mag {a b : Flt} (h : a.mag ≤ b.mag) (hb : b.mag ≤ F.infMag) : F.units a ≤ F.units b :=
  unitsOf_mono h hb

/-- Taking away from a value that is not below zero no more than it is leaves nothing below zero. -/
theorem add_negative_notNeg {a p : Flt} (ha : F.nonneg a = true) (hp : p.sgn = true) (hm : p.mag ≤ a.mag) :
    F.notNeg (F.add a p) = true := by
  obtain ⟨has, ham⟩ := (nonneg_iff a).1 ha
  have hna := nonneg_not_isNaN ha
  have hnp : F.isNaN p = false := (not_isNaN_iff p).2 (Nat.le_trans hm ham)
  unfold add
  simp only [hna, hnp, Bool.or_self, Bool.false_eq_true, if_false]
  split
  · split
    · exact nanResult_notNeg ..
    · exact nonneg_notNeg ha
  · rename_i hi
    have hpi : F.isInf p = false := by
      have : a.mag ≠ F.infMag := by simpa [isInf] using hi
      simp only [isInf, beq_eq_false_iff_ne]; omega
    simp only [hpi, Bool.false_eq_true, if_false]
    unfold addFinite
    have hv : F.val a + F.val p = ((F.units a - F.units p : Nat) : Int) := by
      have := units_le_of_mag hm ham
      rw [val_of_sgn_false has]; simp only [val, hp, if_true]; omega
    rw [hv]
    split
    · simp only [has, Bool.false_and, Bool.false_eq_true, if_false]
      exact nonneg_notNeg zero_nonneg
    · exact nonneg_notNeg (ofUnits_nonneg (by omega))

/-- A negative difference of two values that are not below zero is no larger than what was taken away. -/
theorem sub_mag_le {a b : Flt} (ha : F.nonneg a = true) (hb : F.nonneg b = true)
    (hn : F.isNaN (F.sub a b) = false) (hs : (F.sub a b).sgn = true) : (F.sub a b).mag ≤ b.mag := by
  obtain ⟨has, ham⟩ := (nonneg_iff a).1 ha
  obtain ⟨hbs, hbm⟩ := (nonneg_iff b).1 hb
  have hna := nonneg_not_isNaN ha
  have hnb := nonneg_not_isNaN hb
  revert hn hs
  unfold sub add
  simp only [hna, negate_isNaN, hnb, Bool.or_self, Bool.false_eq_true, if_false, negate_isInf, Flt.negate_sgn, has, hbs]
  split
  · split
    · intro hn; rw [nanResult_isNaN] at hn; simp at hn
    · intro _ hs; rw [has] at hs; simp at hs
  · by_cases hbi : F.isInf b = true
    · simp only [hbi, if_true]
      exact fun _ _ => Nat.le_refl _
    · simp only [hbi, Bool.false_eq_true, if_false]
      intro _
      unfold addFinite
      have hv : F.val a + F.val b.negate = (F.units a : Int) - F.units b := by
        rw [negate_val, val_of_sgn_false has, val_of_sgn_false hbs]; omega
      rw [hv]
      by_cases h0 : (F.units a : Int) - F.units b = 0
      · simp [h0, has]
      · simp only [h0, if_false]
        intro hs
        have h1 : F.roundMag ((F.units a : Int) - F.units b).natAbs 1 ≤ F.roundMag (F.units b) 1 :=
          roundMag_one_mono (by have := of_decide_eq_true hs; omega)
        have h2 : F.roundMag (F.units b) 1 = b.mag := roundMag_unitsOf hbm
        exact h2 ▸ h1

theorem units_le_one {c : Flt} (h : F.unit c = true) : F.units c ≤ F.unitsPerOne := by
  rw [← one_units]
  exact unitsOf_mono ((unit_iff c).1 h).2 (Nat.le_of_lt (one_mag_lt F))

/-- A product by a value in [0,1] keeps the sign and is no larger. -/
theorem mul_unit {a c : Flt} (hc : F.unit c = true) (hn : F.isNaN (F.mul a c) = false) :
    (F.mul a c).sgn = a.sgn ∧ (F.mul a c).mag ≤ a.mag := by
  obtain ⟨hcs, hcm⟩ := (unit_iff c).1 hc
  have hnc := nonneg_not_isNaN (unit_nonneg hc)
  have hci := isFinite_not_isInf (unit_isFinite hc)
  revert hn
  unfold mul
  split
  · intro h; rw [nanResult_isNaN] at h; simp at h
  · rename_i h
    have hna : F.isNaN a = false := by simpa [hnc] using h
    have ham := (not_isNaN_iff a).1 hna
    simp only [hci, Bool.or_false, hcs, Bool.bne_false]
    split
    · rename_i hi
      have hi : a.mag = F.infMag := by simpa [isInf] using hi
      split
      · intro h; rw [nanResult_isNaN] at h; simp at h
      · intro _
        exact ⟨rfl, by rw [hi]⟩
    · intro _
      refine ⟨rfl, ?_⟩
      have h1 : F.roundMag (F.units a * F.units c) F.unitsPerOne ≤ F.roundMag (F.units a) 1 :=
        roundMag_mono (unitsPerOne_pos F) (by omega) (by rw [Nat.mul_one]; exact Nat.mul_le_mul_left _ (units_le_one hc))
      have h2 : F.roundMag (F.units a) 1 = a.mag := roundMag_unitsOf ham
      exact h2 ▸ h1

end FltFormat

end Sys2Proof
end

