-- ==== Sys2Proof/Laws/Error.lean ====
section
/-! SUPPORT. How far one rounding moves a value (R14), in every format (R9): values as rationals, in units of
1.0, and one error lemma per FLT operation on finite operands. -/

namespace Sys2Proof

namespace FltFormat

open Flt (zero negZero)

variable {F : FltFormat}

/-- A finite value as a rational. -/
def toRat (F : FltFormat) (x : Flt) : ℚ := (F.val x : ℚ) / F.unitsPerOne

/-- Half of the least positive value: what one rounding can lose near zero. -/
def halfUnit (F : FltFormat) : ℚ := 1 / 2 / F.unitsPerOne

theorem unitsPerOne_pos_rat (F : FltFormat) : (0 : ℚ) < F.unitsPerOne := by exact_mod_cast unitsPerOne_pos F

theorem halfUnit_pos (F : FltFormat) : 0 < F.halfUnit := by
  have := unitsPerOne_pos_rat F
  unfold halfUnit
  positivity

/-- The least positive value is far below a fraction bit of 1.0. -/
theorem halfUnit_le (F : FltFormat) : F.halfUnit ≤ 1 / 2 ^ 100 / 2 ^ F.fracBits := by
  have hb := bias_ge F
  have h : 2 ^ 99 * 2 ^ F.fracBits ≤ F.unitsPerOne := by
    rw [unitsPerOne_eq, Nat.mul_comm]
    exact Nat.mul_le_mul_left _ (Nat.pow_le_pow_right (by omega) (by omega))
  have h' : (2 : ℚ) ^ 99 * 2 ^ F.fracBits ≤ F.unitsPerOne := by exact_mod_cast h
  have hp : (0 : ℚ) < 2 ^ F.fracBits := by positivity
  unfold halfUnit
  rw [div_le_div_iff₀ (unitsPerOne_pos_rat F) hp]
  generalize (2 : ℚ) ^ F.fracBits = P at *
  norm_num at h' ⊢
  linarith

theorem halfUnit_small (F : FltFormat) : F.halfUnit ≤ 1 / 2 ^ 100 := by
  refine le_trans (halfUnit_le F) (div_le_self (by positivity) ?_)
  exact one_le_pow₀ (by norm_num)

/-! ### The rounding -/

theorem divRound_error (n d : Nat) (hd : 0 < d) :
    |(divRound n d : ℚ) * d - n| ≤ d / 2 := by
  have h1 : (n : ℚ) = d * (n / d : Nat) + (n % d : Nat) := by exact_mod_cast (Nat.div_add_mod n d).symm
  have h2 : ((n % d : Nat) : ℚ) < d := by exact_mod_cast Nat.mod_lt n hd
  have h0 : (0 : ℚ) ≤ (n % d : Nat) := Nat.cast_nonneg _
  unfold divRound
  split
  · rename_i h
    have h3 : (d : ℚ) ≤ 2 * (n % d : Nat) := by
      have : d ≤ 2 * (n % d) := by omega
      exact_mod_cast this
    push_cast
    rw [abs_le]
    constructor <;> nlinarith
  · rename_i h
    have h3 : 2 * ((n % d : Nat) : ℚ) ≤ d := by
      have : 2 * (n % d) ≤ d := by omega
      exact_mod_cast this
    rw [abs_le]
    constructor <;> nlinarith

/-- The units of a finite rounding: a multiple of the spacing. -/
theorem unitsOf_roundMag {n d : Nat} (h : F.roundMag n d < F.infMag) :
    F.unitsOf (F.roundMag n d) = divRound n (d * 2 ^ F.spacing (n / d)) * 2 ^ F.spacing (n / d) := by
  obtain ⟨h1, h2⟩ := divRound_spacing F n d
  have e : F.roundMag n d =
      F.spacing (n / d) * 2 ^ F.fracBits + divRound n (d * 2 ^ F.spacing (n / d)) := by
    unfold roundMag at h ⊢
    omega
  rw [e]
  rcases Nat.lt_or_eq_of_le h1 with h1 | h1
  · exact unitsOf_spacing h1 h2
  · rw [h1, show F.spacing (n / d) * 2 ^ F.fracBits + 2 * 2 ^ F.fracBits =
      (F.spacing (n / d) + 1) * 2 ^ F.fracBits + 2 ^ F.fracBits by ring,
      unitsOf_spacing (by have := frac_pos F; omega) (by omega), Nat.pow_succ]
    ring

/-- A finite rounding is off by at most 2^-24 of the value, or half a unit. -/
theorem roundMag_error {n d : Nat} (hd : 0 < d) (h : F.roundMag n d < F.infMag) :
    |(F.unitsOf (F.roundMag n d) : ℚ) - n / d| ≤ n / d / 2 ^ 24 + 1 / 2 := by
  have hd' : (0 : ℚ) < d := by exact_mod_cast hd
  have hsp : 0 < 2 ^ F.spacing (n / d) := Nat.pow_pos (by omega)
  have h1 := divRound_error n (d * 2 ^ F.spacing (n / d)) (Nat.mul_pos hd hsp)
  have hu : (F.unitsOf (F.roundMag n d) : ℚ) * d =
      divRound n (d * 2 ^ F.spacing (n / d)) * (d * 2 ^ F.spacing (n / d) : Nat) := by
    rw [unitsOf_roundMag h]; push_cast; ring
  rw [← hu] at h1
  have h2 : ((d * 2 ^ F.spacing (n / d) : Nat) : ℚ) / 2 ≤ n / 2 ^ 24 + d / 2 := by
    rcases Nat.eq_zero_or_pos (F.spacing (n / d)) with h0 | h0
    · rw [h0]
      have : (0 : ℚ) ≤ n := Nat.cast_nonneg _
      push_cast
      nlinarith
    · have h3 := (spacing_spec F (n / d)).2 h0
      have h4 : d * 2 ^ F.spacing (n / d) * 8388608 ≤ n := by
        calc d * 2 ^ F.spacing (n / d) * 8388608 ≤ d * 2 ^ F.spacing (n / d) * 2 ^ F.fracBits :=
              Nat.mul_le_mul_left _ (frac_ge F)
          _ = d * (2 ^ F.spacing (n / d) * 2 ^ F.fracBits) := by ring
          _ ≤ d * (n / d) := Nat.mul_le_mul_left d h3
          _ ≤ n := Nat.mul_div_le n d
      have h6 : ((d * 2 ^ F.spacing (n / d) : Nat) : ℚ) * 8388608 ≤ n := by exact_mod_cast h4
      linarith
  have e : (F.unitsOf (F.roundMag n d) : ℚ) - n / d = ((F.unitsOf (F.roundMag n d) : ℚ) * d - n) / d := by
    field_simp
  rw [e, abs_div, abs_of_pos hd', div_le_iff₀ hd']
  have e2 : ((n : ℚ) / d / 2 ^ 24 + 1 / 2) * d = n / 2 ^ 24 + d / 2 := by field_simp
  rw [e2]
  exact le_trans h1 h2

/-- Up to 2^127 nothing is rounded to infinity. -/
theorem roundMag_finite {n d : Nat} (hd : 0 < d) (h : n ≤ 2 ^ 127 * F.unitsPerOne * d) :
    F.roundMag n d < F.infMag := by
  have hb := bias_ge F
  have e : 2 ^ 127 * F.unitsPerOne = 2 ^ F.fracBits * 2 ^ (F.bias + 126) := by
    unfold unitsPerOne
    rw [← Nat.pow_add, ← Nat.pow_add]
    congr 1
    omega
  have h1 : F.roundMag n d ≤ F.roundMag (2 ^ F.fracBits * 2 ^ (F.bias + 126)) 1 :=
    roundMag_mono hd (by omega) (by rw [Nat.mul_one, ← e]; exact h)
  have h2 := (roundMag_exact (F := F) (k := 2 ^ F.fracBits) (e := F.bias + 126) (by have := frac_pos F; omega)
    (by omega)).2
  omega

/-! ### Finite results and their error -/

theorem abs_toRat (x : Flt) : |F.toRat x| = (F.units x : ℚ) / F.unitsPerOne := by
  have := unitsPerOne_pos_rat F
  unfold toRat val
  cases x.sgn <;> simp [abs_div]

theorem toRat_eq_units (x : Flt) :
    F.toRat x = (if x.sgn then -1 else 1) * ((F.units x : ℚ) / F.unitsPerOne) := by
  unfold toRat val
  cases x.sgn <;> simp; ring

/-- A rounded fraction with a sign: finite up to 2^127, and how far it is off. -/
theorem mk_round (s : Bool) {n d : Nat} (hd : 0 < d) {x : ℚ}
    (hx : x = (if s then -1 else 1) * ((n : ℚ) / d / F.unitsPerOne)) (h : |x| ≤ 2 ^ 127) :
    F.isFinite ⟨s, F.roundMag n d⟩ = true ∧
      |F.toRat ⟨s, F.roundMag n d⟩ - x| ≤ |x| / 2 ^ 24 + F.halfUnit := by
  have hd' : (0 : ℚ) < d := by exact_mod_cast hd
  have hU := unitsPerOne_pos_rat F
  have hax : |x| = (n : ℚ) / d / F.unitsPerOne := by
    rw [hx, abs_mul, abs_of_nonneg (a := (n : ℚ) / d / F.unitsPerOne) (by positivity)]
    cases s <;> simp
  have hn : n ≤ 2 ^ 127 * F.unitsPerOne * d := by
    have h1 : (n : ℚ) / d / F.unitsPerOne ≤ 2 ^ 127 := hax ▸ h
    rw [div_le_iff₀ hU, div_le_iff₀ hd'] at h1
    exact_mod_cast h1
  have hf := roundMag_finite hd hn
  refine ⟨(isFinite_iff _).2 hf, ?_⟩
  have he := roundMag_error hd hf
  rw [toRat_eq_units, hax, hx]
  show |(if s then (-1 : ℚ) else 1) * ((F.unitsOf (F.roundMag n d) : ℚ) / F.unitsPerOne) -
      (if s then (-1 : ℚ) else 1) * ((n : ℚ) / d / F.unitsPerOne)| ≤ _
  have hs : |(if s then (-1 : ℚ) else 1)| = 1 := by cases s <;> simp
  rw [← mul_sub, ← sub_div, abs_mul, hs, one_mul, abs_div, abs_of_pos hU, div_le_iff₀ hU]
  refine le_trans he (le_of_eq ?_)
  unfold halfUnit
  field_simp

theorem toRat_neg (x : Flt) : F.toRat x.negate = -F.toRat x := by
  unfold toRat
  rw [negate_val]; push_cast; ring

theorem toRat_zero : F.toRat zero = 0 := by simp [toRat, val, units]

/-- `a + b` of finite values, off by one rounding. -/
theorem add_error {a b : Flt} (ha : F.isFinite a = true) (hb : F.isFinite b = true)
    (h : |F.toRat a + F.toRat b| ≤ 2 ^ 127) :
    F.isFinite (F.add a b) = true ∧
      |F.toRat (F.add a b) - (F.toRat a + F.toRat b)| ≤ |F.toRat a + F.toRat b| / 2 ^ 24 + F.halfUnit := by
  rw [add_of_finite ha hb]
  have hs : F.toRat a + F.toRat b = ((F.val a + F.val b : Int) : ℚ) / F.unitsPerOne := by
    unfold toRat; push_cast; ring
  have hh := (halfUnit_pos F).le
  unfold addFinite
  split
  · rename_i h0
    rw [hs, h0]
    have hz : F.toRat negZero = 0 := by simp [toRat, val, units]
    split
    · exact ⟨(isFinite_iff _).2 (infMag_pos F), by rw [hz]; simpa using hh⟩
    · exact ⟨zero_isFinite, by rw [toRat_zero]; simpa using hh⟩
  · refine mk_round _ (by omega) ?_ h
    rw [hs]
    have h2 : (((F.val a + F.val b).natAbs : Nat) : ℚ) = |((F.val a + F.val b : Int) : ℚ)| :=
      Nat.cast_natAbs _ |>.trans (by push_cast; rfl)
    rw [h2]
    by_cases hv : F.val a + F.val b < 0
    · rw [abs_of_neg (by exact_mod_cast hv)]
      simp only [hv, decide_true, if_true, Nat.cast_one, div_one]
      ring
    · rw [abs_of_nonneg (by exact_mod_cast not_lt.1 hv)]
      simp only [hv, decide_false, Bool.false_eq_true, if_false, Nat.cast_one, div_one]
      ring

/-- `a - b` of finite values, off by one rounding. -/
theorem sub_error {a b : Flt} (ha : F.isFinite a = true) (hb : F.isFinite b = true)
    (h : |F.toRat a - F.toRat b| ≤ 2 ^ 127) :
    F.isFinite (F.sub a b) = true ∧
      |F.toRat (F.sub a b) - (F.toRat a - F.toRat b)| ≤ |F.toRat a - F.toRat b| / 2 ^ 24 + F.halfUnit := by
  have := add_error (F := F) (a := a) (b := b.negate) ha hb
  rw [toRat_neg, ← sub_eq_add_neg] at this
  exact this h

theorem units_pos {b : Flt} (hb : F.isFinite b = true) (hz : b.isZero = false) : 0 < F.units b := by
  have : b.mag ≠ 0 := by simpa [Flt.isZero] using hz
  exact unitsOf_pos (by omega) (Nat.le_of_lt ((isFinite_iff b).1 hb))

/-- What `a * b` is before its rounding. -/
theorem mul_exact (a b : Flt) : F.toRat a * F.toRat b = (if a.sgn != b.sgn then -1 else 1) *
    (((F.units a * F.units b : Nat) : ℚ) / F.unitsPerOne / F.unitsPerOne) := by
  rw [toRat_eq_units a, toRat_eq_units b]
  push_cast
  cases a.sgn <;> cases b.sgn <;> simp <;> ring

/-- What `a / b` is before its rounding. -/
theorem div_exact (a : Flt) {b : Flt} (hb : 0 < F.units b) : F.toRat a / F.toRat b =
    (if a.sgn != b.sgn then -1 else 1) *
      (((F.units a * F.unitsPerOne : Nat) : ℚ) / F.units b / F.unitsPerOne) := by
  have hu' : (F.units b : ℚ) ≠ 0 := by exact_mod_cast Nat.ne_of_gt hb
  have hU := (unitsPerOne_pos_rat F).ne'
  rw [toRat_eq_units a, toRat_eq_units b]
  push_cast
  cases a.sgn <;> cases b.sgn <;> simp <;> field_simp

/-- `a * b` of finite values, off by one rounding. -/
theorem mul_error {a b : Flt} (ha : F.isFinite a = true) (hb : F.isFinite b = true)
    (h : |F.toRat a * F.toRat b| ≤ 2 ^ 127) :
    F.isFinite (F.mul a b) = true ∧
      |F.toRat (F.mul a b) - F.toRat a * F.toRat b| ≤ |F.toRat a * F.toRat b| / 2 ^ 24 + F.halfUnit := by
  rw [mul_of_finite ha hb]
  exact mk_round _ (unitsPerOne_pos F) (mul_exact a b) h

/-- `a / b` of finite values, `b` not zero, off by one rounding. -/
theorem div_error {a b : Flt} (ha : F.isFinite a = true) (hb : F.isFinite b = true) (hz : b.isZero = false)
    (h : |F.toRat a / F.toRat b| ≤ 2 ^ 127) :
    F.isFinite (F.div a b) = true ∧
      |F.toRat (F.div a b) - F.toRat a / F.toRat b| ≤ |F.toRat a / F.toRat b| / 2 ^ 24 + F.halfUnit := by
  rw [div_of_finite ha hb hz]
  exact mk_round _ (units_pos hb hz) (div_exact a (units_pos hb hz)) h

/-! ### Order -/

/-- Finite values are ordered as their rationals. -/
theorem le_iff_toRat {a b : Flt} (ha : F.isFinite a = true) (hb : F.isFinite b = true) :
    F.le a b = true ↔ F.toRat a ≤ F.toRat b := by
  have hA := (isFinite_iff a).1 ha
  have hB := (isFinite_iff b).1 hb
  have hmono : ∀ {m m' : Nat}, m < F.infMag → m' < F.infMag → (m ≤ m' ↔ F.unitsOf m ≤ F.unitsOf m') :=
    fun h h' => ⟨fun hh => unitsOf_mono hh (Nat.le_of_lt h'), le_of_unitsOf_le (Nat.le_of_lt h) (Nat.le_of_lt h')⟩
  have hz : ∀ {m : Nat}, m < F.infMag → (m = 0 ↔ F.unitsOf m = 0) := fun h => by
    have := hmono h (m' := 0) (infMag_pos F)
    rw [unitsOf_zero] at this
    omega
  have h1 := hmono hA hB
  have h2 := hmono hB hA
  have h3 := hz hA
  have h4 := hz hB
  rw [le_iff]
  simp only [isFinite_not_isNaN ha, isFinite_not_isNaN hb, true_and]
  have hr : F.toRat a ≤ F.toRat b ↔ F.val a ≤ F.val b := by
    unfold toRat
    rw [div_le_div_iff_of_pos_right (unitsPerOne_pos_rat F)]
    exact_mod_cast Iff.rfl
  rw [hr]
  unfold Flt.key val units
  cases a.sgn <;> cases b.sgn <;> simp <;> omega

theorem lt_iff_toRat {a b : Flt} (ha : F.isFinite a = true) (hb : F.isFinite b = true) :
    F.lt a b = true ↔ F.toRat a < F.toRat b := by
  have h := le_iff_toRat hb ha
  rw [le_iff] at h
  simp only [isFinite_not_isNaN ha, isFinite_not_isNaN hb, true_and] at h
  rw [lt_iff]
  simp only [isFinite_not_isNaN ha, isFinite_not_isNaN hb, true_and]
  rw [← not_le, ← not_le, h]

/-- Between finite values everything is finite. -/
theorem isFinite_of_le {a x b : Flt} (ha : F.isFinite a = true) (hb : F.isFinite b = true)
    (h1 : F.le a x = true) (h2 : F.le x b = true) : F.isFinite x = true := by
  rw [le_iff] at h1 h2
  have hA := (isFinite_iff a).1 ha
  have hB := (isFinite_iff b).1 hb
  rw [isFinite_iff]
  obtain ⟨-, -, h1⟩ := h1
  obtain ⟨-, -, h2⟩ := h2
  unfold Flt.key at h1 h2
  cases hx : x.sgn <;> cases hsa : a.sgn <;> cases hsb : b.sgn <;> simp [hx, hsa, hsb] at h1 h2 <;> omega

theorem key_ofUnits (v : Int) :
    (F.ofUnits v).key = if v < 0 then -(F.roundMag v.natAbs 1 : Int) else (F.roundMag v.natAbs 1 : Int) := by
  simp [Flt.key, ofUnits]

/-- Rounding keeps the order. -/
theorem key_ofUnits_mono {v w : Int} (h : v ≤ w) : (F.ofUnits v).key ≤ (F.ofUnits w).key := by
  rw [key_ofUnits, key_ofUnits]
  split <;> split
  · have := roundMag_one_mono (F := F) (n := w.natAbs) (n' := v.natAbs) (by omega)
    omega
  · omega
  · omega
  · have := roundMag_one_mono (F := F) (n := v.natAbs) (n' := w.natAbs) (by omega)
    omega

theorem key_ofUnits_val {c : Flt} (hc : F.isFinite c = true) : (F.ofUnits (F.val c)).key = c.key := by
  have h := roundMag_unitsOf (Nat.le_of_lt ((isFinite_iff c).1 hc))
  rw [key_ofUnits]
  unfold val Flt.key units
  cases c.sgn
  · simp [h]
  · have h0 : F.unitsOf c.mag = 0 → c.mag = 0 := fun h0 => by rw [← h, h0, roundMag_zero]
    simp only [if_true, Int.natAbs_neg, Int.natAbs_natCast, h]
    split
    · rfl
    · have := h0 (by omega)
      omega

theorem key_add {a b : Flt} (ha : F.isFinite a = true) (hb : F.isFinite b = true) :
    (F.add a b).key = (F.ofUnits (F.val a + F.val b)).key ∧ F.isNaN (F.add a b) = false := by
  rw [add_of_finite ha hb]
  unfold addFinite
  split
  · rename_i h
    rw [h]
    have h0 : (F.ofUnits 0).key = 0 := by rw [key_ofUnits]; simp [roundMag_zero]
    rw [h0]
    split
    · exact ⟨rfl, negZero_isNaN⟩
    · exact ⟨rfl, zero_isNaN⟩
  · exact ⟨rfl, ofUnits_not_isNaN _⟩

/-- A finite sum that is at most a finite value rounds to at most that value. -/
theorem add_le_of {a b c : Flt} (ha : F.isFinite a = true) (hb : F.isFinite b = true) (hc : F.isFinite c = true)
    (h : F.toRat a + F.toRat b ≤ F.toRat c) : F.le (F.add a b) c = true := by
  obtain ⟨hk, hn⟩ := key_add ha hb
  rw [le_iff]
  refine ⟨hn, isFinite_not_isNaN hc, ?_⟩
  rw [hk, ← key_ofUnits_val hc]
  apply key_ofUnits_mono
  unfold toRat at h
  rw [← add_div, div_le_div_iff_of_pos_right (unitsPerOne_pos_rat F)] at h
  exact_mod_cast h

theorem le_add_of {a b c : Flt} (ha : F.isFinite a = true) (hb : F.isFinite b = true) (hc : F.isFinite c = true)
    (h : F.toRat c ≤ F.toRat a + F.toRat b) : F.le c (F.add a b) = true := by
  obtain ⟨hk, hn⟩ := key_add ha hb
  rw [le_iff]
  refine ⟨isFinite_not_isNaN hc, hn, ?_⟩
  rw [hk, ← key_ofUnits_val hc]
  apply key_ofUnits_mono
  unfold toRat at h
  rw [← add_div, div_le_div_iff_of_pos_right (unitsPerOne_pos_rat F)] at h
  exact_mod_cast h

/-- A rounded fraction with a sign does not pass a finite value that the fraction does not pass. -/
theorem mk_le_of (s : Bool) {n d : Nat} (hd : 0 < d) {x : ℚ}
    (hx : x = (if s then -1 else 1) * ((n : ℚ) / d / F.unitsPerOne)) {c : Flt} (hc : F.isFinite c = true)
    (h : x ≤ F.toRat c) : F.le ⟨s, F.roundMag n d⟩ c = true := by
  have hd' : (0 : ℚ) < d := by exact_mod_cast hd
  have hU := unitsPerOne_pos_rat F
  have hcm := Nat.le_of_lt ((isFinite_iff c).1 hc)
  have hcr := roundMag_unitsOf hcm
  rw [hx, toRat_eq_units] at h
  rw [le_iff]
  refine ⟨(not_isNaN_iff _).2 (roundMag_le _ _), isFinite_not_isNaN hc, ?_⟩
  have hle : ∀ {u v : ℚ}, u / F.unitsPerOne ≤ v / F.unitsPerOne ↔ u ≤ v :=
    fun {u v} => div_le_div_iff_of_pos_right hU
  unfold units at h
  unfold Flt.key
  cases s <;> cases hs : c.sgn <;> simp only [hs, Bool.false_eq_true, if_false, if_true, one_mul, neg_one_mul] at h ⊢
  · rw [hle, div_le_iff₀ hd'] at h
    have h' : n ≤ F.unitsOf c.mag * d := by exact_mod_cast h
    have := roundMag_mono (F := F) hd (d' := 1) (by omega) (by omega : n * 1 ≤ F.unitsOf c.mag * d)
    omega
  · have h0 : (0 : ℚ) ≤ (n : ℚ) / d / F.unitsPerOne := by positivity
    have h1 : (0 : ℚ) ≤ (F.unitsOf c.mag : ℚ) / F.unitsPerOne := by positivity
    have hn : (n : ℚ) / d / F.unitsPerOne = 0 := by linarith
    have hu : (F.unitsOf c.mag : ℚ) / F.unitsPerOne = 0 := by linarith
    have hn : n = 0 := by
      rw [div_eq_zero_iff, div_eq_zero_iff] at hn
      rcases hn with (hn | hn) | hn
      · exact_mod_cast hn
      · exact absurd hn hd'.ne'
      · exact absurd hn hU.ne'
    have hu : F.unitsOf c.mag = 0 := by
      rcases div_eq_zero_iff.1 hu with hu | hu
      · exact_mod_cast hu
      · exact absurd hu hU.ne'
    rw [hu, roundMag_zero] at hcr
    rw [hn, roundMag_zero, ← hcr]
    simp
  · omega
  · rw [neg_le_neg_iff, hle, le_div_iff₀ hd'] at h
    have h' : F.unitsOf c.mag * d ≤ n := by exact_mod_cast h
    have := roundMag_mono (F := F) (d := 1) (by omega) hd (by omega : F.unitsOf c.mag * d ≤ n * 1)
    omega

theorem key_negate (x : Flt) : x.negate.key = -x.key := by
  obtain ⟨s, m⟩ := x
  cases s <;> simp [Flt.key, Flt.negate]

theorem le_negate (a b : Flt) : F.le a.negate b.negate = F.le b a := by
  unfold le
  rw [negate_isNaN, negate_isNaN, key_negate, key_negate, Bool.and_comm (!F.isNaN a)]
  congr 1
  exact decide_eq_decide.2 (by omega)

theorem le_mk_of (s : Bool) {n d : Nat} (hd : 0 < d) {x : ℚ}
    (hx : x = (if s then -1 else 1) * ((n : ℚ) / d / F.unitsPerOne)) {c : Flt} (hc : F.isFinite c = true)
    (h : F.toRat c ≤ x) : F.le c ⟨s, F.roundMag n d⟩ = true := by
  rw [← le_negate]
  exact mk_le_of (!s) hd (x := -x) (by rw [hx]; cases s <;> simp) (c := c.negate) hc
    (by rw [toRat_neg]; linarith)

theorem mul_le_of {a b c : Flt} (ha : F.isFinite a = true) (hb : F.isFinite b = true) (hc : F.isFinite c = true)
    (h : F.toRat a * F.toRat b ≤ F.toRat c) : F.le (F.mul a b) c = true := by
  rw [mul_of_finite ha hb]
  exact mk_le_of _ (unitsPerOne_pos F) (mul_exact a b) hc h

theorem le_mul_of {a b c : Flt} (ha : F.isFinite a = true) (hb : F.isFinite b = true) (hc : F.isFinite c = true)
    (h : F.toRat c ≤ F.toRat a * F.toRat b) : F.le c (F.mul a b) = true := by
  rw [mul_of_finite ha hb]
  exact le_mk_of _ (unitsPerOne_pos F) (mul_exact a b) hc h

theorem div_le_of {a b c : Flt} (ha : F.isFinite a = true) (hb : F.isFinite b = true) (hz : b.isZero = false)
    (hc : F.isFinite c = true) (h : F.toRat a / F.toRat b ≤ F.toRat c) : F.le (F.div a b) c = true := by
  rw [div_of_finite ha hb hz]
  exact mk_le_of _ (units_pos hb hz) (div_exact a (units_pos hb hz)) hc h

theorem le_div_of {a b c : Flt} (ha : F.isFinite a = true) (hb : F.isFinite b = true) (hz : b.isZero = false)
    (hc : F.isFinite c = true) (h : F.toRat c ≤ F.toRat a / F.toRat b) : F.le c (F.div a b) = true := by
  rw [div_of_finite ha hb hz]
  exact le_mk_of _ (units_pos hb hz) (div_exact a (units_pos hb hz)) hc h

theorem sub_le_of {a b c : Flt} (ha : F.isFinite a = true) (hb : F.isFinite b = true) (hc : F.isFinite c = true)
    (h : F.toRat a - F.toRat b ≤ F.toRat c) : F.le (F.sub a b) c = true :=
  add_le_of (b := b.negate) ha hb hc (by rw [toRat_neg]; linarith)

theorem le_sub_of {a b c : Flt} (ha : F.isFinite a = true) (hb : F.isFinite b = true) (hc : F.isFinite c = true)
    (h : F.toRat c ≤ F.toRat a - F.toRat b) : F.le c (F.sub a b) = true :=
  le_add_of (b := b.negate) ha hb hc (by rw [toRat_neg]; linarith)

/-- Finite values with one sign and one rational are one value. -/
theorem ext_toRat {x y : Flt} (hx : F.isFinite x = true) (hy : F.isFinite y = true) (hs : x.sgn = y.sgn)
    (h : F.toRat x = F.toRat y) : x = y := by
  have h1 := (le_iff _ _).1 ((le_iff_toRat hx hy).2 h.le)
  have h2 := (le_iff _ _).1 ((le_iff_toRat hy hx).2 h.ge)
  refine Flt.ext_sgn_mag hs ?_
  unfold Flt.key at h1 h2
  cases hb : y.sgn <;> simp [hs, hb] at h1 h2 <;> omega

/-! ### Known values -/

/-- A whole number that binary32 counts exactly, over a power of two. -/
theorem toRat_ofRat_pow {n k : Nat} (h : n ≤ 16777216) (hk : k ≤ 127) :
    F.toRat (F.ofRat false n (2 ^ k)) = n / 2 ^ k := by
  have hU := (unitsPerOne_pos_rat F).ne'
  have e := (ofRat_pow_units (F := F) false h hk).1
  have e' : (F.unitsOf (F.ofRat false n (2 ^ k)).mag : ℚ) * 2 ^ k = n * F.unitsPerOne := by exact_mod_cast e
  rw [toRat_eq_units]
  unfold units
  simp only [show (F.ofRat false n (2 ^ k)).sgn = false from rfl, Bool.false_eq_true, if_false, one_mul]
  rw [div_eq_div_iff hU (by positivity)]
  exact e'

theorem toRat_ofNat {n : Nat} (h : n ≤ 16777216) : F.toRat (F.ofNat n) = n := by
  have := toRat_ofRat_pow (F := F) (n := n) (k := 0) h (by omega)
  rw [Nat.pow_zero, ← ofNat_eq_ofRat, pow_zero, div_one] at this
  exact this

theorem toRat_one : F.toRat F.one = 1 := by
  rw [← ofNat_one, toRat_ofNat (by omega)]; simp

/-- A rational is off by one rounding. -/
theorem ofRat_error {n d : Nat} (hd : 0 < d) (h : (n : ℚ) / d ≤ 2 ^ 127) :
    F.isFinite (F.ofRat false n d) = true ∧
      |F.toRat (F.ofRat false n d) - n / d| ≤ n / d / 2 ^ 24 + F.halfUnit := by
  have hU := unitsPerOne_pos_rat F
  have hd' : (0 : ℚ) < d := by exact_mod_cast hd
  have h0 : |(n : ℚ) / d| = n / d := abs_of_nonneg (by positivity)
  have := mk_round (F := F) false (n := n * F.unitsPerOne) hd (x := n / d)
    (by push_cast; simp; field_simp) (by rw [h0]; exact h)
  rw [h0] at this
  exact this

/-- Less than a unit is zero. -/
theorem toRat_small {x : Flt} (h : |F.toRat x| ≤ F.halfUnit) : F.toRat x = 0 := by
  have hU := unitsPerOne_pos_rat F
  rw [abs_toRat, halfUnit, div_le_div_iff_of_pos_right hU] at h
  have h1 : (F.units x : ℚ) < 1 := lt_of_le_of_lt h (by norm_num)
  have h2 : F.units x = 0 := by
    have : F.units x < 1 := by exact_mod_cast h1
    omega
  rw [toRat_eq_units, h2]; simp

theorem div_sgn {a b : Flt} (ha : F.isFinite a = true) (hb : F.isFinite b = true) (hz : b.isZero = false) :
    (F.div a b).sgn = (a.sgn != b.sgn) := by rw [div_of_finite ha hb hz]

theorem toRat_nonneg_of_sgn {x : Flt} (h : x.sgn = false) : 0 ≤ F.toRat x := by
  rw [toRat_eq_units, h]; simp; positivity

theorem toRat_nonpos_of_sgn {x : Flt} (h : x.sgn = true) : F.toRat x ≤ 0 := by
  rw [toRat_eq_units, h]; simp; positivity

/-- A product with a factor in [0,1] lies between zero and the other factor. -/
theorem mul_unit_between {a c : Flt} (ha : F.isFinite a = true) (hc : F.unit c = true) :
    F.isFinite (F.mul a c) = true ∧ (F.mul a c).sgn = a.sgn ∧ |F.toRat (F.mul a c)| ≤ |F.toRat a| := by
  have hn : F.isNaN (F.mul a c) = false := by
    rw [mul_of_finite ha (unit_isFinite hc), not_isNaN_iff]
    exact roundMag_le _ _
  obtain ⟨h1, h2⟩ := mul_unit hc hn
  have hA := (isFinite_iff a).1 ha
  refine ⟨(isFinite_iff _).2 (by omega), h1, ?_⟩
  rw [abs_toRat, abs_toRat, div_le_div_iff_of_pos_right (unitsPerOne_pos_rat F)]
  exact_mod_cast units_le_of_mag h2 (Nat.le_of_lt hA)

/-- A magnitude of at least a significand's reach of `2^k` units is a multiple of `2^k` units. -/
theorem unitsOf_dvd {m k : Nat} (hm : m < F.infMag) (h : 2 ^ k * 2 ^ F.fracBits ≤ F.unitsOf m) :
    2 ^ k ∣ F.unitsOf m := by
  obtain ⟨q, e, hq, -, hu, -⟩ := unitsOf_form hm
  rw [hu] at h ⊢
  have hk : 2 ^ k ≤ 2 ^ e := by
    by_contra hc
    have hc : e < k := (Nat.pow_lt_pow_iff_right (by omega)).1 (Nat.lt_of_not_le hc)
    have h2 : 2 ^ (e + 1) ≤ 2 ^ k := Nat.pow_le_pow_right (by omega) hc
    have h1 : q * 2 ^ e < 2 ^ F.fracBits * 2 ^ k := by
      calc q * 2 ^ e < 2 * 2 ^ F.fracBits * 2 ^ e := Nat.mul_lt_mul_of_pos_right hq (Nat.pow_pos (by omega))
        _ = 2 ^ F.fracBits * 2 ^ (e + 1) := by rw [Nat.pow_succ]; ring
        _ ≤ 2 ^ F.fracBits * 2 ^ k := Nat.mul_le_mul_left _ h2
    rw [Nat.mul_comm (2 ^ k)] at h
    omega
  exact Dvd.dvd.mul_left (pow_dvd_pow 2 ((Nat.pow_le_pow_iff_right (by omega)).1 hk)) q

end FltFormat

end Sys2Proof
end

