-- ==== Sys2Proof/Laws/State.lean ====
section
/-! SUPPORT. One lemma per field per update of the state, so that no later proof unfolds a record update. -/

namespace Sys2Proof.Machine

/-! ### advance -/

@[simp] theorem State.advance_voices (s : State) : (s.advance).voices = s.voices := rfl
@[simp] theorem State.advance_wave (s : State) : (s.advance).wave = s.wave := rfl
@[simp] theorem State.advance_attack (s : State) : (s.advance).attack = s.attack := rfl
@[simp] theorem State.advance_decay (s : State) : (s.advance).decay = s.decay := rfl
@[simp] theorem State.advance_sustain (s : State) : (s.advance).sustain = s.sustain := rfl
@[simp] theorem State.advance_release (s : State) : (s.advance).release = s.release := rfl
@[simp] theorem State.advance_glide (s : State) : (s.advance).glide = s.glide := rfl
@[simp] theorem State.advance_gain (s : State) : (s.advance).gain = s.gain := rfl
@[simp] theorem State.advance_pedal (s : State) : (s.advance).pedal = s.pedal := rfl
@[simp] theorem State.advance_sr (s : State) : (s.advance).sr = s.sr := rfl
@[simp] theorem State.advance_dt (s : State) : (s.advance).dt = s.dt := rfl
@[simp] theorem State.advance_mix (s : State) : (s.advance).mix = s.mix := rfl
@[simp] theorem State.advance_out (s : State) : (s.advance).out = s.out := rfl
@[simp] theorem State.advance_status (s : State) : (s.advance).status = s.status := rfl
@[simp] theorem State.advance_cp (s : State) : (s.advance).cp = s.cp + 1 := rfl
@[simp] theorem State.advance_input (s : State) : (s.advance).input = s.input := rfl
@[simp] theorem State.advance_cfg (s : State) : (s.advance).cfg = s.cfg := rfl
@[simp] theorem State.advance_fmt (s : State) : (s.advance).fmt = s.fmt := rfl

/-! ### refuse -/

@[simp] theorem State.refuse_voices (s : State) (i : RefusalInfo) (r : RefusalReason) : (s.refuse i r).voices = s.voices := rfl
@[simp] theorem State.refuse_wave (s : State) (i : RefusalInfo) (r : RefusalReason) : (s.refuse i r).wave = s.wave := rfl
@[simp] theorem State.refuse_attack (s : State) (i : RefusalInfo) (r : RefusalReason) : (s.refuse i r).attack = s.attack := rfl
@[simp] theorem State.refuse_decay (s : State) (i : RefusalInfo) (r : RefusalReason) : (s.refuse i r).decay = s.decay := rfl
@[simp] theorem State.refuse_sustain (s : State) (i : RefusalInfo) (r : RefusalReason) : (s.refuse i r).sustain = s.sustain := rfl
@[simp] theorem State.refuse_release (s : State) (i : RefusalInfo) (r : RefusalReason) : (s.refuse i r).release = s.release := rfl
@[simp] theorem State.refuse_glide (s : State) (i : RefusalInfo) (r : RefusalReason) : (s.refuse i r).glide = s.glide := rfl
@[simp] theorem State.refuse_gain (s : State) (i : RefusalInfo) (r : RefusalReason) : (s.refuse i r).gain = s.gain := rfl
@[simp] theorem State.refuse_pedal (s : State) (i : RefusalInfo) (r : RefusalReason) : (s.refuse i r).pedal = s.pedal := rfl
@[simp] theorem State.refuse_sr (s : State) (i : RefusalInfo) (r : RefusalReason) : (s.refuse i r).sr = s.sr := rfl
@[simp] theorem State.refuse_dt (s : State) (i : RefusalInfo) (r : RefusalReason) : (s.refuse i r).dt = s.dt := rfl
@[simp] theorem State.refuse_mix (s : State) (i : RefusalInfo) (r : RefusalReason) : (s.refuse i r).mix = s.mix := rfl
@[simp] theorem State.refuse_out (s : State) (i : RefusalInfo) (r : RefusalReason) : (s.refuse i r).out = s.out := rfl
@[simp] theorem State.refuse_status (s : State) (i : RefusalInfo) (r : RefusalReason) : (s.refuse i r).status = .refused i r := rfl
@[simp] theorem State.refuse_cp (s : State) (i : RefusalInfo) (r : RefusalReason) : (s.refuse i r).cp = s.cp := rfl
@[simp] theorem State.refuse_input (s : State) (i : RefusalInfo) (r : RefusalReason) : (s.refuse i r).input = s.input := rfl
@[simp] theorem State.refuse_cfg (s : State) (i : RefusalInfo) (r : RefusalReason) : (s.refuse i r).cfg = s.cfg := rfl
@[simp] theorem State.refuse_fmt (s : State) (i : RefusalInfo) (r : RefusalReason) : (s.refuse i r).fmt = s.fmt := rfl

/-! ### setVoices -/

@[simp] theorem State.setVoices_voices (s : State) (vs : List Voice) : (s.setVoices vs).voices = vs := rfl
@[simp] theorem State.setVoices_wave (s : State) (vs : List Voice) : (s.setVoices vs).wave = s.wave := rfl
@[simp] theorem State.setVoices_attack (s : State) (vs : List Voice) : (s.setVoices vs).attack = s.attack := rfl
@[simp] theorem State.setVoices_decay (s : State) (vs : List Voice) : (s.setVoices vs).decay = s.decay := rfl
@[simp] theorem State.setVoices_sustain (s : State) (vs : List Voice) : (s.setVoices vs).sustain = s.sustain := rfl
@[simp] theorem State.setVoices_release (s : State) (vs : List Voice) : (s.setVoices vs).release = s.release := rfl
@[simp] theorem State.setVoices_glide (s : State) (vs : List Voice) : (s.setVoices vs).glide = s.glide := rfl
@[simp] theorem State.setVoices_gain (s : State) (vs : List Voice) : (s.setVoices vs).gain = s.gain := rfl
@[simp] theorem State.setVoices_pedal (s : State) (vs : List Voice) : (s.setVoices vs).pedal = s.pedal := rfl
@[simp] theorem State.setVoices_sr (s : State) (vs : List Voice) : (s.setVoices vs).sr = s.sr := rfl
@[simp] theorem State.setVoices_dt (s : State) (vs : List Voice) : (s.setVoices vs).dt = s.dt := rfl
@[simp] theorem State.setVoices_mix (s : State) (vs : List Voice) : (s.setVoices vs).mix = s.mix := rfl
@[simp] theorem State.setVoices_out (s : State) (vs : List Voice) : (s.setVoices vs).out = s.out := rfl
@[simp] theorem State.setVoices_status (s : State) (vs : List Voice) : (s.setVoices vs).status = s.status := rfl
@[simp] theorem State.setVoices_cp (s : State) (vs : List Voice) : (s.setVoices vs).cp = s.cp := rfl
@[simp] theorem State.setVoices_input (s : State) (vs : List Voice) : (s.setVoices vs).input = s.input := rfl
@[simp] theorem State.setVoices_cfg (s : State) (vs : List Voice) : (s.setVoices vs).cfg = s.cfg := rfl
@[simp] theorem State.setVoices_fmt (s : State) (vs : List Voice) : (s.setVoices vs).fmt = s.fmt := rfl

/-! ### modifySlot -/

@[simp] theorem State.modifySlot_voices (s : State) (k : Nat) (f : Voice → Voice) : (s.modifySlot k f).voices = s.voices.modify k f := rfl
@[simp] theorem State.modifySlot_wave (s : State) (k : Nat) (f : Voice → Voice) : (s.modifySlot k f).wave = s.wave := rfl
@[simp] theorem State.modifySlot_attack (s : State) (k : Nat) (f : Voice → Voice) : (s.modifySlot k f).attack = s.attack := rfl
@[simp] theorem State.modifySlot_decay (s : State) (k : Nat) (f : Voice → Voice) : (s.modifySlot k f).decay = s.decay := rfl
@[simp] theorem State.modifySlot_sustain (s : State) (k : Nat) (f : Voice → Voice) : (s.modifySlot k f).sustain = s.sustain := rfl
@[simp] theorem State.modifySlot_release (s : State) (k : Nat) (f : Voice → Voice) : (s.modifySlot k f).release = s.release := rfl
@[simp] theorem State.modifySlot_glide (s : State) (k : Nat) (f : Voice → Voice) : (s.modifySlot k f).glide = s.glide := rfl
@[simp] theorem State.modifySlot_gain (s : State) (k : Nat) (f : Voice → Voice) : (s.modifySlot k f).gain = s.gain := rfl
@[simp] theorem State.modifySlot_pedal (s : State) (k : Nat) (f : Voice → Voice) : (s.modifySlot k f).pedal = s.pedal := rfl
@[simp] theorem State.modifySlot_sr (s : State) (k : Nat) (f : Voice → Voice) : (s.modifySlot k f).sr = s.sr := rfl
@[simp] theorem State.modifySlot_dt (s : State) (k : Nat) (f : Voice → Voice) : (s.modifySlot k f).dt = s.dt := rfl
@[simp] theorem State.modifySlot_mix (s : State) (k : Nat) (f : Voice → Voice) : (s.modifySlot k f).mix = s.mix := rfl
@[simp] theorem State.modifySlot_out (s : State) (k : Nat) (f : Voice → Voice) : (s.modifySlot k f).out = s.out := rfl
@[simp] theorem State.modifySlot_status (s : State) (k : Nat) (f : Voice → Voice) : (s.modifySlot k f).status = s.status := rfl
@[simp] theorem State.modifySlot_cp (s : State) (k : Nat) (f : Voice → Voice) : (s.modifySlot k f).cp = s.cp := rfl
@[simp] theorem State.modifySlot_input (s : State) (k : Nat) (f : Voice → Voice) : (s.modifySlot k f).input = s.input := rfl
@[simp] theorem State.modifySlot_cfg (s : State) (k : Nat) (f : Voice → Voice) : (s.modifySlot k f).cfg = s.cfg := rfl
@[simp] theorem State.modifySlot_fmt (s : State) (k : Nat) (f : Voice → Voice) : (s.modifySlot k f).fmt = s.fmt := rfl

/-! ### emit -/

@[simp] theorem State.emit_voices (s : State) (y : Flt) : (s.emit y).voices = s.voices := rfl
@[simp] theorem State.emit_wave (s : State) (y : Flt) : (s.emit y).wave = s.wave := rfl
@[simp] theorem State.emit_attack (s : State) (y : Flt) : (s.emit y).attack = s.attack := rfl
@[simp] theorem State.emit_decay (s : State) (y : Flt) : (s.emit y).decay = s.decay := rfl
@[simp] theorem State.emit_sustain (s : State) (y : Flt) : (s.emit y).sustain = s.sustain := rfl
@[simp] theorem State.emit_release (s : State) (y : Flt) : (s.emit y).release = s.release := rfl
@[simp] theorem State.emit_glide (s : State) (y : Flt) : (s.emit y).glide = s.glide := rfl
@[simp] theorem State.emit_gain (s : State) (y : Flt) : (s.emit y).gain = s.gain := rfl
@[simp] theorem State.emit_pedal (s : State) (y : Flt) : (s.emit y).pedal = s.pedal := rfl
@[simp] theorem State.emit_sr (s : State) (y : Flt) : (s.emit y).sr = s.sr := rfl
@[simp] theorem State.emit_dt (s : State) (y : Flt) : (s.emit y).dt = s.dt := rfl
@[simp] theorem State.emit_mix (s : State) (y : Flt) : (s.emit y).mix = s.mix := rfl
@[simp] theorem State.emit_out (s : State) (y : Flt) : (s.emit y).out = s.out ++ [y] := rfl
@[simp] theorem State.emit_status (s : State) (y : Flt) : (s.emit y).status = s.status := rfl
@[simp] theorem State.emit_cp (s : State) (y : Flt) : (s.emit y).cp = s.cp := rfl
@[simp] theorem State.emit_input (s : State) (y : Flt) : (s.emit y).input = s.input := rfl
@[simp] theorem State.emit_cfg (s : State) (y : Flt) : (s.emit y).cfg = s.cfg := rfl
@[simp] theorem State.emit_fmt (s : State) (y : Flt) : (s.emit y).fmt = s.fmt := rfl

/-! ### setMix -/

@[simp] theorem State.setMix_voices (s : State) (m : Flt) : (s.setMix m).voices = s.voices := rfl
@[simp] theorem State.setMix_wave (s : State) (m : Flt) : (s.setMix m).wave = s.wave := rfl
@[simp] theorem State.setMix_attack (s : State) (m : Flt) : (s.setMix m).attack = s.attack := rfl
@[simp] theorem State.setMix_decay (s : State) (m : Flt) : (s.setMix m).decay = s.decay := rfl
@[simp] theorem State.setMix_sustain (s : State) (m : Flt) : (s.setMix m).sustain = s.sustain := rfl
@[simp] theorem State.setMix_release (s : State) (m : Flt) : (s.setMix m).release = s.release := rfl
@[simp] theorem State.setMix_glide (s : State) (m : Flt) : (s.setMix m).glide = s.glide := rfl
@[simp] theorem State.setMix_gain (s : State) (m : Flt) : (s.setMix m).gain = s.gain := rfl
@[simp] theorem State.setMix_pedal (s : State) (m : Flt) : (s.setMix m).pedal = s.pedal := rfl
@[simp] theorem State.setMix_sr (s : State) (m : Flt) : (s.setMix m).sr = s.sr := rfl
@[simp] theorem State.setMix_dt (s : State) (m : Flt) : (s.setMix m).dt = s.dt := rfl
@[simp] theorem State.setMix_mix (s : State) (m : Flt) : (s.setMix m).mix = m := rfl
@[simp] theorem State.setMix_out (s : State) (m : Flt) : (s.setMix m).out = s.out := rfl
@[simp] theorem State.setMix_status (s : State) (m : Flt) : (s.setMix m).status = s.status := rfl
@[simp] theorem State.setMix_cp (s : State) (m : Flt) : (s.setMix m).cp = s.cp := rfl
@[simp] theorem State.setMix_input (s : State) (m : Flt) : (s.setMix m).input = s.input := rfl
@[simp] theorem State.setMix_cfg (s : State) (m : Flt) : (s.setMix m).cfg = s.cfg := rfl
@[simp] theorem State.setMix_fmt (s : State) (m : Flt) : (s.setMix m).fmt = s.fmt := rfl

/-! ### withInput -/

@[simp] theorem State.withInput_voices (s : State) (ms : List HostInput) : (s.withInput ms).voices = s.voices := rfl
@[simp] theorem State.withInput_wave (s : State) (ms : List HostInput) : (s.withInput ms).wave = s.wave := rfl
@[simp] theorem State.withInput_attack (s : State) (ms : List HostInput) : (s.withInput ms).attack = s.attack := rfl
@[simp] theorem State.withInput_decay (s : State) (ms : List HostInput) : (s.withInput ms).decay = s.decay := rfl
@[simp] theorem State.withInput_sustain (s : State) (ms : List HostInput) : (s.withInput ms).sustain = s.sustain := rfl
@[simp] theorem State.withInput_release (s : State) (ms : List HostInput) : (s.withInput ms).release = s.release := rfl
@[simp] theorem State.withInput_glide (s : State) (ms : List HostInput) : (s.withInput ms).glide = s.glide := rfl
@[simp] theorem State.withInput_gain (s : State) (ms : List HostInput) : (s.withInput ms).gain = s.gain := rfl
@[simp] theorem State.withInput_pedal (s : State) (ms : List HostInput) : (s.withInput ms).pedal = s.pedal := rfl
@[simp] theorem State.withInput_sr (s : State) (ms : List HostInput) : (s.withInput ms).sr = s.sr := rfl
@[simp] theorem State.withInput_dt (s : State) (ms : List HostInput) : (s.withInput ms).dt = s.dt := rfl
@[simp] theorem State.withInput_mix (s : State) (ms : List HostInput) : (s.withInput ms).mix = s.mix := rfl
@[simp] theorem State.withInput_out (s : State) (ms : List HostInput) : (s.withInput ms).out = s.out := rfl
@[simp] theorem State.withInput_status (s : State) (ms : List HostInput) : (s.withInput ms).status = s.status := rfl
@[simp] theorem State.withInput_cp (s : State) (ms : List HostInput) : (s.withInput ms).cp = s.cp := rfl
@[simp] theorem State.withInput_input (s : State) (ms : List HostInput) : (s.withInput ms).input = ms := rfl
@[simp] theorem State.withInput_cfg (s : State) (ms : List HostInput) : (s.withInput ms).cfg = s.cfg := rfl
@[simp] theorem State.withInput_fmt (s : State) (ms : List HostInput) : (s.withInput ms).fmt = s.fmt := rfl

/-! ### tickProc -/

@[simp] theorem State.tickProc_voices (s : State) : (s.tickProc).voices = (tickSlots s).map Prod.fst := rfl
@[simp] theorem State.tickProc_wave (s : State) : (s.tickProc).wave = s.wave := rfl
@[simp] theorem State.tickProc_attack (s : State) : (s.tickProc).attack = s.attack := rfl
@[simp] theorem State.tickProc_decay (s : State) : (s.tickProc).decay = s.decay := rfl
@[simp] theorem State.tickProc_sustain (s : State) : (s.tickProc).sustain = s.sustain := rfl
@[simp] theorem State.tickProc_release (s : State) : (s.tickProc).release = s.release := rfl
@[simp] theorem State.tickProc_glide (s : State) : (s.tickProc).glide = s.glide := rfl
@[simp] theorem State.tickProc_gain (s : State) : (s.tickProc).gain = s.gain := rfl
@[simp] theorem State.tickProc_pedal (s : State) : (s.tickProc).pedal = s.pedal := rfl
@[simp] theorem State.tickProc_sr (s : State) : (s.tickProc).sr = s.sr := rfl
@[simp] theorem State.tickProc_dt (s : State) : (s.tickProc).dt = s.dt := rfl
@[simp] theorem State.tickProc_mix (s : State) : (s.tickProc).mix = s.tickMix := rfl
@[simp] theorem State.tickProc_out (s : State) : (s.tickProc).out = s.out ++ [s.tickSample] := rfl
@[simp] theorem State.tickProc_status (s : State) : (s.tickProc).status = s.status := rfl
@[simp] theorem State.tickProc_cp (s : State) : (s.tickProc).cp = s.cp := rfl
@[simp] theorem State.tickProc_input (s : State) : (s.tickProc).input = s.input := rfl
@[simp] theorem State.tickProc_cfg (s : State) : (s.tickProc).cfg = s.cfg := rfl
@[simp] theorem State.tickProc_fmt (s : State) : (s.tickProc).fmt = s.fmt := rfl

/-! ### CAP -/

theorem State.cap_eq (s : State) : s.cap = s.voices.length := rfl
@[simp] theorem State.advance_cap (s : State) : s.advance.cap = s.cap := rfl
@[simp] theorem State.refuse_cap (s : State) (i : RefusalInfo) (r : RefusalReason) : (s.refuse i r).cap = s.cap := rfl
@[simp] theorem State.withInput_cap (s : State) (ms : List HostInput) : (s.withInput ms).cap = s.cap := rfl
@[simp] theorem State.modifySlot_cap (s : State) (k : Nat) (f : Voice → Voice) : (s.modifySlot k f).cap = s.cap := by
  simp [State.cap_eq]
@[simp] theorem State.tickProc_cap (s : State) : s.tickProc.cap = s.cap := by
  simp [State.cap_eq, tickSlots]

end Sys2Proof.Machine
end

