-- ==== Sys2Proof/Laws/Ops.lean ====
section
/-! SUPPORT. One lemma for each shared operation: what it can do, said once (setter template, RESET,
slot search and stealing, resizing, the tick's slots), which later proofs cite instead of unfolding it. -/

namespace Sys2Proof.Machine

/-! ### The setter template -/

/-- A real-valued setter either writes the sanitised value and completes, or is refused with its own word
and writes nothing. -/
theorem finishSetter_next {i : Instr} {v : Option Flt} {write : Flt → State → State} {s t : State}
    (h : finishSetter i v write s = .next t) :
    (∃ x, v = some x ∧ t = (write x s).advance) ∨
      (v = none ∧ t = s.refuse (.word (encode i)) .nanPayload) := by
  unfold finishSetter at h
  cases v with
  | some x => exact .inl ⟨x, rfl, by simpa using h.symm⟩
  | none => exact .inr ⟨rfl, by simpa using h.symm⟩

theorem finishSetter_some (i : Instr) (x : Flt) (write : Flt → State → State) (s : State) :
    finishSetter i (some x) write s = .next (write x s).advance := rfl

theorem finishSetter_none (i : Instr) (write : Flt → State → State) (s : State) :
    finishSetter i none write s = .next (s.refuse (.word (encode i)) .nanPayload) := rfl

/-- Sanitisation gives no value only for a NaN under NAN_POLICY = Refuse (R111). -/
theorem sanTime_none {F : FltFormat} {p : NanPolicy} {x : Flt} (h : sanTime F p x = none) :
    p = .refuse ∧ F.isNaN x = true := by
  unfold sanTime sanNaN at h
  split at h
  · cases p <;> simp_all
  · split at h <;> simp at h

theorem sanUnit_none {F : FltFormat} {p : NanPolicy} {x : Flt} (h : sanUnit F p x = none) :
    p = .refuse ∧ F.isNaN x = true := by
  unfold sanUnit sanNaN at h
  split at h
  · cases p <;> simp_all
  · split at h
    · simp at h
    · split at h <;> simp at h

/-- What is neither a NaN nor at most zero is positive. -/
theorem nonneg_of_not_le_zero {F : FltFormat} {x : Flt} (hn : F.isNaN x = false) (h : F.le x Flt.zero = false) :
    F.nonneg x = true := by
  rw [FltFormat.nonneg_iff]
  refine ⟨?_, (FltFormat.not_isNaN_iff x).1 hn⟩
  by_contra hs
  have hs : x.sgn = true := by simpa using hs
  have : F.le x Flt.zero = true := by
    rw [FltFormat.le_iff]
    refine ⟨hn, FltFormat.zero_isNaN, ?_⟩
    rw [Flt.zero_key]
    unfold Flt.key
    rw [hs]
    simp
  rw [this] at h
  simp at h

/-- `sanTime` gives a legal time (R34, R111). -/
theorem sanTime_nonneg {F : FltFormat} {p : NanPolicy} {x y : Flt} (h : sanTime F p x = some y) :
    F.nonneg y = true := by
  unfold sanTime at h
  split at h
  · unfold sanNaN at h
    cases p <;> simp at h
    subst h; exact FltFormat.zero_nonneg
  · rename_i hn
    split at h
    · simp at h; subst h; exact FltFormat.zero_nonneg
    · rename_i hle
      simp at h; subst h
      exact nonneg_of_not_le_zero (by simpa using hn) (by simpa using hle)

/-- `sanUnit` gives a legal level (R34, R111). -/
theorem sanUnit_unit {F : FltFormat} {p : NanPolicy} {x y : Flt} (h : sanUnit F p x = some y) :
    F.unit y = true := by
  unfold sanUnit at h
  split at h
  · unfold sanNaN at h
    cases p <;> simp at h
    subst h; exact FltFormat.zero_unit
  · rename_i hn
    split at h
    · simp at h; subst h; exact FltFormat.zero_unit
    · rename_i hle
      split at h
      · simp at h; subst h; exact FltFormat.one_unit
      · rename_i hge
        simp at h; subst h
        have hx := nonneg_of_not_le_zero (F := F) (by simpa using hn) (by simpa using hle)
        unfold FltFormat.ge at hge
        rw [FltFormat.le_iff_mag FltFormat.one_nonneg hx] at hge
        exact (FltFormat.unit_iff x).2 ⟨((FltFormat.nonneg_iff x).1 hx).1, by omega⟩

/-- Milliseconds that are a legal time are a legal time in seconds. -/
theorem msToS_nonneg {F : FltFormat} {x : Flt} (h : F.nonneg x = true) : F.nonneg (msToS F x) = true :=
  FltFormat.div_nonneg h (FltFormat.ofNat_posFinite (by omega) (by omega))

/-! ### RESET and the capacity -/

theorem clampCap_range (n : Int) : 1 ≤ clampCap n ∧ clampCap n ≤ 32 := by
  unfold clampCap capMin capMax
  split
  · omega
  · split
    · omega
    · omega

/-- RESET restarts the block, or is refused and changes only STATUS. -/
theorem doReset_cases (c : ResetConfig) (s : State) :
    (s.fmt.posFinite c.sr = true ∧ s.doReset c = s.restart c) ∨
      (s.fmt.posFinite c.sr = false ∧ s.doReset c = s.refuse (.config c) .badResetConfig) := by
  unfold State.doReset
  cases s.fmt.posFinite c.sr <;> simp

/-- `State.reset` is what RESET(48000, 8) leaves of it (R220). -/
theorem reset_is_reset_of_default : State.reset.doReset ⟨State.reset.fmt.ofNat 48000, 8⟩ = State.reset := by
  decide +kernel

theorem resize_length (n : Nat) (vs : List Voice) : (resize n vs).length = n := by
  unfold resize
  split <;> simp <;> omega

/-- A slot of a resized voice file is the old slot of that index, or a reset slot (R160). -/
theorem resize_getElem? (n : Nat) (vs : List Voice) (i : Nat) (h : i < n) :
    (resize n vs)[i]? = if i < vs.length then vs[i]? else some Voice.reset := by
  unfold resize
  split
  · rename_i hn
    rw [List.getElem?_take, if_pos h, if_pos (by omega)]
  · rename_i hn
    split
    · rename_i hi
      rw [List.getElem?_append_left hi]
    · rename_i hi
      rw [List.getElem?_append_right (by omega), List.getElem?_replicate, if_pos (by omega)]

theorem mem_resize {n : Nat} {vs : List Voice} {v : Voice} (h : v ∈ resize n vs) :
    v ∈ vs ∨ v = Voice.reset := by
  unfold resize at h
  split at h
  · exact .inl (List.mem_of_mem_take h)
  · rcases List.mem_append.1 h with h | h
    · exact .inl h
    · exact .inr (List.eq_of_mem_replicate h)

/-! ### Search and stealing -/

/-- What NOTE_ON's search for the note finds: the first slot that holds it (R154 step 1). -/
theorem findNote_some {s : State} {note j : Nat} (h : s.findNote note = some j) :
    ∃ v, s.voices[j]? = some v ∧ v.holds note = true ∧
      ∀ k < j, ∀ u, s.voices[k]? = some u → u.holds note = false := by
  unfold State.findNote at h
  obtain ⟨hj, hp, hlt⟩ := List.findIdx?_eq_some_iff_getElem.1 h
  refine ⟨s.voices[j], by simp [hj], hp, fun k hk u hu => ?_⟩
  have hkl : k < s.voices.length := by omega
  have : s.voices[k] = u := by simpa [List.getElem?_eq_getElem hkl] using hu
  have h2 := hlt k hk
  rw [this] at h2
  simpa using h2

theorem findNote_of_first {s : State} {note j : Nat} {v : Voice} (h : s.voices[j]? = some v)
    (hh : v.holds note = true) (hl : ∀ k < j, ∀ u, s.voices[k]? = some u → u.holds note = false) :
    s.findNote note = some j := by
  obtain ⟨hj, rfl⟩ := List.getElem?_eq_some_iff.1 h
  unfold State.findNote
  rw [List.findIdx?_eq_some_iff_getElem]
  exact ⟨hj, hh, fun k hk => by simpa using hl k hk s.voices[k] (by simp)⟩

theorem findNote_eq_none {s : State} {note : Nat} (h : ∀ v ∈ s.voices, v.holds note = false) :
    s.findNote note = none := by
  unfold State.findNote
  simpa [List.findIdx?_eq_none_iff] using h

theorem findNote_none {s : State} {note : Nat} (h : s.findNote note = none) :
    ∀ v ∈ s.voices, v.holds note = false := by
  unfold State.findNote at h
  simpa [List.findIdx?_eq_none_iff] using h

/-- The first inactive slot (R154 step 2). -/
theorem findFree_some {s : State} {k : Nat} (h : s.findFree = some k) :
    ∃ v, s.voices[k]? = some v ∧ v.active = false ∧
      ∀ j < k, ∀ u, s.voices[j]? = some u → u.active = true := by
  unfold State.findFree at h
  obtain ⟨hj, hp, hlt⟩ := List.findIdx?_eq_some_iff_getElem.1 h
  refine ⟨s.voices[k], by simp [hj], by simpa using hp, fun j hk u hu => ?_⟩
  have hkl : j < s.voices.length := by omega
  have : s.voices[j] = u := by simpa [List.getElem?_eq_getElem hkl] using hu
  have h2 := hlt j hk
  rw [this] at h2
  simpa using h2

theorem findFree_of_first {s : State} {k : Nat} {v : Voice} (h : s.voices[k]? = some v)
    (hv : v.active = false) (hl : ∀ j < k, ∀ u, s.voices[j]? = some u → u.active = true) :
    s.findFree = some k := by
  obtain ⟨hk, rfl⟩ := List.getElem?_eq_some_iff.1 h
  unfold State.findFree
  rw [List.findIdx?_eq_some_iff_getElem]
  exact ⟨hk, by simp [hv], fun j hj => by simpa using hl j hj s.voices[j] (by simp)⟩

theorem findFree_eq_none {s : State} (h : ∀ v ∈ s.voices, v.active = true) : s.findFree = none := by
  unfold State.findFree
  simpa [List.findIdx?_eq_none_iff] using h

theorem findFree_none {s : State} (h : s.findFree = none) : ∀ v ∈ s.voices, v.active = true := by
  unfold State.findFree at h
  simpa [List.findIdx?_eq_none_iff] using h

/-- The slot NOTE_ON writes and how, said once: the first holder is retriggered, else the first free slot
is claimed, else the stolen one (R154). -/
theorem noteOn_cases (note vel : Nat) (s : State) :
    (∃ j, s.findNote note = some j ∧
        s.noteOn note vel = s.modifySlot j (retrigger s (FREQ s.fmt note) (VELSCALE s.fmt vel))) ∨
      (∃ k, s.findNote note = none ∧ s.findFree = some k ∧
        s.noteOn note vel = s.modifySlot k (claim s note (FREQ s.fmt note) (VELSCALE s.fmt vel))) ∨
      (s.findNote note = none ∧ s.findFree = none ∧
        s.noteOn note vel = s.modifySlot (stealIndex s.fmt s.voices) (claim s note (FREQ s.fmt note) (VELSCALE s.fmt vel))) := by
  unfold State.noteOn
  cases h1 : s.findNote note with
  | some j => exact .inl ⟨j, rfl, rfl⟩
  | none =>
    cases h2 : s.findFree with
    | some k => exact .inr (.inl ⟨k, rfl, rfl, rfl⟩)
    | none => exact .inr (.inr ⟨rfl, rfl, rfl⟩)

/-- NOTE_ON's effect is on the voice file alone. -/
theorem noteOn_rest (note vel : Nat) (s : State) :
    s.noteOn note vel = { s with voices := (s.noteOn note vel).voices } := by
  rcases noteOn_cases note vel s with ⟨j, _, h⟩ | ⟨j, _, _, h⟩ | ⟨_, _, h⟩ <;> rw [h] <;> rfl

/-- The scan's answer is the best index it was given or one of those it scans. -/
theorem stealScan_bound (F : FltFormat) (best : Nat) (e : Flt) (i : Nat) (vs : List Voice) (h : best < i) :
    stealScan F best e i vs < i + vs.length := by
  induction vs generalizing best e i with
  | nil => simpa [stealScan] using h
  | cons v vs ih =>
    unfold stealScan
    split
    · have := ih i v.env (i + 1) (by omega)
      simp; omega
    · have := ih best e (i + 1) (by omega)
      simp; omega

theorem stealIndex_lt (F : FltFormat) {vs : List Voice} (h : vs ≠ []) : stealIndex F vs < vs.length := by
  cases vs with
  | nil => exact absurd rfl h
  | cons v vs =>
    have := stealScan_bound F 0 v.env 1 vs (by omega)
    simp [stealIndex]; omega

/-- The scan from index `i` on, given the best slot before `i`, finds the first slot of the lowest
envelope of all (R153), where no envelope is a NaN. -/
theorem stealScan_spec (F : FltFormat) (all : List Voice) (hnan : ∀ u ∈ all, F.isNaN u.env = false) (best i : Nat) (e : Flt)
    (vs : List Voice) (hall : all.drop i = vs) (hlt : best < i)
    (hb : ∃ b, all[best]? = some b ∧ b.env = e)
    (h1 : ∀ j < i, ∀ u, all[j]? = some u → F.le e u.env = true)
    (h2 : ∀ j < best, ∀ u, all[j]? = some u → F.lt e u.env = true) :
    ∃ b, all[stealScan F best e i vs]? = some b ∧ (∀ u ∈ all, F.le b.env u.env = true) ∧
      ∀ j < stealScan F best e i vs, ∀ u, all[j]? = some u → F.lt b.env u.env = true := by
  induction vs generalizing best e i with
  | nil =>
    obtain ⟨b, hb, rfl⟩ := hb
    have hlen : all.length ≤ i := List.drop_eq_nil_iff.1 hall
    refine ⟨b, hb, fun u hu => ?_, h2⟩
    obtain ⟨j, hj, rfl⟩ := List.getElem_of_mem hu
    exact h1 j (by omega) _ (by simp)
  | cons v vs ih =>
    have hv : all[i]? = some v := by
      have h0 : (all.drop i)[0]? = (v :: vs)[0]? := by rw [hall]
      simpa using h0
    have hd : all.drop (i + 1) = vs := by rw [← List.tail_drop, hall]; rfl
    have hvn := hnan v (List.mem_of_getElem? hv)
    unfold stealScan
    split
    · rename_i hlt'
      rw [FltFormat.lt_iff] at hlt'
      refine ih i (i + 1) v.env hd (by omega) ⟨v, hv, rfl⟩ (fun j hj u hu => ?_) (fun j hj u hu => ?_)
      · rw [FltFormat.le_iff]
        rcases Nat.lt_or_eq_of_le (Nat.lt_succ_iff.1 hj) with hj | rfl
        · have := (FltFormat.le_iff _ _).1 (h1 j hj u hu)
          exact ⟨hvn, this.2.1, by omega⟩
        · rw [hv] at hu; cases hu
          exact ⟨hvn, hvn, Int.le_refl _⟩
      · have := (FltFormat.le_iff _ _).1 (h1 j hj u hu)
        rw [FltFormat.lt_iff]
        exact ⟨hvn, this.2.1, by omega⟩
    · rename_i hlt'
      refine ih best (i + 1) e hd (by omega) hb (fun j hj u hu => ?_) h2
      rcases Nat.lt_or_eq_of_le (Nat.lt_succ_iff.1 hj) with hj | rfl
      · exact h1 j hj u hu
      · rw [hv] at hu; cases hu
        obtain ⟨b, hb, rfl⟩ := hb
        have hbn := hnan b (List.mem_of_getElem? hb)
        rw [FltFormat.le_iff]
        refine ⟨hbn, hvn, ?_⟩
        by_contra hc
        exact hlt' ((FltFormat.lt_iff _ _).2 ⟨hvn, hbn, by omega⟩)

/-- STEAL_INDEX is the first slot of the lowest envelope (R153). -/
theorem stealIndex_spec (F : FltFormat) {vs : List Voice} (hne : vs ≠ []) (hnan : ∀ u ∈ vs, F.isNaN u.env = false) :
    ∃ b, vs[stealIndex F vs]? = some b ∧ (∀ u ∈ vs, F.le b.env u.env = true) ∧
      ∀ j < stealIndex F vs, ∀ u, vs[j]? = some u → F.lt b.env u.env = true := by
  cases vs with
  | nil => exact absurd rfl hne
  | cons v vs =>
    have hvn := hnan v (by simp)
    refine stealScan_spec F (v :: vs) hnan 0 1 v.env vs rfl (by omega) ⟨v, rfl, rfl⟩ (fun j hj u hu => ?_)
      (fun j hj => by omega)
    obtain rfl : j = 0 := by omega
    cases hu
    exact (FltFormat.le_iff _ _).2 ⟨hvn, hvn, Int.le_refl _⟩

theorem modify_eq_set {vs : List Voice} {k : Nat} {f : Voice → Voice} {v : Voice} (h : vs[k]? = some v) :
    vs.modify k f = vs.set k (f v) := by
  obtain ⟨hk, rfl⟩ := List.getElem?_eq_some_iff.1 h
  apply List.ext_getElem?
  intro i
  rw [List.getElem?_modify, List.getElem?_set]
  by_cases hki : k = i
  · subst hki; simp [hk]
  · simp [hki]

/-- Membership in a list with one slot rewritten. -/
theorem mem_modify {vs : List Voice} {k : Nat} {f : Voice → Voice} {v : Voice} (h : v ∈ vs.modify k f) :
    v ∈ vs ∨ ∃ u ∈ vs, v = f u := by
  obtain ⟨i, hi, rfl⟩ := List.getElem_of_mem h
  rw [List.getElem_modify]
  split
  · exact .inr ⟨_, List.getElem_mem _, rfl⟩
  · exact .inl (List.getElem_mem _)

/-! ### The tick's slots -/

/-- What a tick makes of a slot (R180 steps 1 to 6). -/
theorem tickSlot_fst (s : State) (v : Voice) :
    (tickSlot s v).1 = if v.active then (stepVoice s v).deactivate s.fmt else v := by
  unfold tickSlot
  split
  · rfl
  · split <;> rfl

theorem tickProc_voices_getElem? (s : State) (i : Nat) :
    s.tickProc.voices[i]? = s.voices[i]?.map fun v => (tickSlot s v).1 := by
  simp [tickSlots, Function.comp_def]

/-- Ticks in a row: the last one after the others. -/
theorem ticks_succ (u : Nat) (s : State) : s.ticks (u + 1) = (s.tickProc).ticks u := rfl

/-- Ticks in a row write the slots, MIX and OUT alone. -/
theorem ticks_rest (u : Nat) (s : State) :
    s.ticks u = { s with voices := (s.ticks u).voices, mix := (s.ticks u).mix, out := (s.ticks u).out } := by
  induction u generalizing s with
  | zero => rfl
  | succ u ih => rw [ticks_succ, ih]; rfl

/-- Each of them appends one sample. -/
theorem ticks_out (u : Nat) (s : State) : ∃ ys, (s.ticks u).out = s.out ++ ys ∧ ys.length = u := by
  induction u generalizing s with
  | zero => exact ⟨[], by simp [State.ticks], rfl⟩
  | succ u ih =>
    obtain ⟨ys, h1, h2⟩ := ih s.tickProc
    exact ⟨s.tickSample :: ys, by rw [ticks_succ, h1]; simp, by simp [h2]⟩

theorem ticks_succ' (u : Nat) (s : State) : s.ticks (u + 1) = (s.ticks u).tickProc := by
  induction u generalizing s with
  | zero => rfl
  | succ u ih => rw [ticks_succ, ih, ← ticks_succ]

end Sys2Proof.Machine
end

