-- ==== Sys2Proof/Laws/Voices.lean ====
section
/-! SUPPORT. The slot and parameter invariants under each operation (R32 to R34): what every write to a
slot keeps. -/

namespace Sys2Proof.Machine

/-! ### The envelope stays in [0,1], branch by branch (R112 to R114, R122) -/

theorem attackStep_unit {F : FltFormat} {dt a e : Flt} (hdt : F.notNeg dt = true) (ha : F.nonneg a = true)
    (he : F.unit e = true) : F.unit (attackStep F dt a e) = true := by
  unfold attackStep
  split
  · exact FltFormat.one_unit
  · exact FltFormat.min_one_unit (FltFormat.add_notNeg (FltFormat.nonneg_notNeg (FltFormat.unit_nonneg he))
      (FltFormat.div_notNeg hdt (FltFormat.nonneg_notNeg ha)))

/-- `1.0 - s` for a level `s` is a level. -/
theorem one_sub_unit {F : FltFormat} {x : Flt} (hx : F.unit x = true) : F.unit (F.sub F.one x) = true := by
  refine (FltFormat.sub_unit_of_ge (s := Flt.zero) FltFormat.one_unit
    (FltFormat.nonneg_notNeg (FltFormat.unit_nonneg hx)) FltFormat.zero_unit ?_).1
  have hxf := FltFormat.unit_isFinite hx
  have hxs := ((FltFormat.unit_iff x).1 hx).1
  have hu := FltFormat.units_le_one hx
  have hv : F.val F.one + F.val x.negate = ((F.unitsPerOne - F.units x : Nat) : Int) := by
    rw [FltFormat.negate_val, FltFormat.val_of_sgn_false hxs, FltFormat.val_of_sgn_false rfl]
    unfold FltFormat.units at hu ⊢
    rw [FltFormat.one_units]
    omega
  show F.le Flt.zero (F.add F.one x.negate) = true
  rw [FltFormat.add_of_finite FltFormat.one_isFinite (b := x.negate) hxf]
  unfold FltFormat.addFinite
  rw [hv]
  split
  · simp [FltFormat.le_iff]
  · rw [FltFormat.ofUnits_natCast, FltFormat.le_iff_mag FltFormat.zero_nonneg
      (FltFormat.nonneg_mk (FltFormat.roundMag_le _ _))]
    exact Nat.zero_le _

theorem decayStep_unit {F : FltFormat} {dt d sus e : Flt} (hdt : F.notNeg dt = true) (hd : F.nonneg d = true)
    (hs : F.unit sus = true) (he : F.unit e = true) : F.unit (decayStep F dt d sus e) = true := by
  unfold decayStep
  split
  · exact hs
  · exact FltFormat.sub_max_unit he (FltFormat.div_notNeg (FltFormat.mul_notNeg hdt
      (FltFormat.nonneg_notNeg (FltFormat.unit_nonneg (one_sub_unit hs)))) (FltFormat.nonneg_notNeg hd)) hs

theorem releaseStep_unit {F : FltFormat} {dt r e : Flt} (hdt : F.notNeg dt = true) (hr : F.nonneg r = true)
    (he : F.unit e = true) : F.unit (releaseStep F dt r e) = true := by
  unfold releaseStep
  split
  · exact FltFormat.zero_unit
  · exact FltFormat.sub_max_unit he (FltFormat.div_notNeg hdt (FltFormat.nonneg_notNeg hr)) FltFormat.zero_unit

/-- SR positive and finite makes DT not below zero. -/
theorem ParamsOk.dt_notNeg {s : State} (h : ParamsOk s) : s.fmt.notNeg s.dt = true := by
  rw [h.dt]
  exact FltFormat.nonneg_notNeg (FltFormat.div_nonneg FltFormat.one_nonneg h.sr)

/-- The envelope step keeps the envelope in [0,1] (R122). -/
theorem envNext_unit {s : State} (h : ParamsOk s) (g : Bool) {e : Flt} (he : s.fmt.unit e = true) :
    s.fmt.unit (envNext s g e) = true := by
  unfold envNext
  split
  · exact attackStep_unit h.dt_notNeg h.attack he
  · split
    · exact decayStep_unit h.dt_notNeg h.decay h.sustain he
    · split
      · exact releaseStep_unit h.dt_notNeg h.release he
      · exact he

/-! ### Pitch and phase (R96, R130, R131) -/

/-- The glide step takes no frequency below zero (R131): the distance is not overshot. -/
theorem glideNext_notNeg {s : State} {ft fc : Flt} (hdt : s.fmt.notNeg s.dt = true)
    (hg : s.fmt.nonneg s.glide = true) (ht : s.fmt.notNeg ft = true) (hc : s.fmt.notNeg fc = true) :
    s.fmt.notNeg (glideNext s ft fc) = true := by
  have hu : s.fmt.unit s.glideCoeff = true :=
    FltFormat.min_one_unit (FltFormat.div_notNeg hdt (FltFormat.nonneg_notNeg hg))
  unfold glideNext
  generalize s.fmt = F at *
  split
  · exact ht
  · by_cases hp : F.isNaN (F.mul (F.sub ft fc) s.glideCoeff) = true
    · simp [FltFormat.notNeg, FltFormat.add, hp, FltFormat.nanResult_isNaN]
    have hp : F.isNaN (F.mul (F.sub ft fc) s.glideCoeff) = false := by simpa using hp
    obtain ⟨h1, h2⟩ := FltFormat.mul_unit hu hp
    by_cases hfc : F.isNaN fc = true
    · simp [FltFormat.notNeg, FltFormat.add, hfc, FltFormat.nanResult_isNaN]
    have hfc : F.isNaN fc = false := by simpa using hfc
    have hfc' := FltFormat.notNeg_nonneg hc hfc
    cases hs : (F.sub ft fc).sgn with
    | false =>
      rw [hs] at h1
      exact FltFormat.add_notNeg hc ((FltFormat.notNeg_iff _).2 (.inr h1))
    | true =>
      have hd : F.isNaN (F.sub ft fc) = false := by
        by_contra hd
        have hd : F.isNaN (F.sub ft fc) = true := by simpa using hd
        simp [FltFormat.mul, hd, FltFormat.nanResult_isNaN] at hp
      have hft : F.isNaN ft = false := by
        by_contra hft
        have hft : F.isNaN ft = true := by simpa using hft
        simp [FltFormat.sub, FltFormat.add, hft, FltFormat.nanResult_isNaN] at hd
      have h3 := FltFormat.sub_mag_le (FltFormat.notNeg_nonneg ht hft) hfc' hd hs
      exact FltFormat.add_negative_notNeg hfc' (by rw [h1, hs]) (Nat.le_trans h2 h3)

/-- PI is between 3 and 4. -/
theorem pi_bounds (F : FltFormat) : (F.ofNat 3).mag ≤ F.pi.mag ∧ F.pi.mag ≤ (F.ofNat 4).mag := by
  rw [FltFormat.ofNat_eq, FltFormat.ofNat_eq]
  unfold FltFormat.pi FltFormat.ofRat
  have h : 3 * 10 ^ 100 ≤ piDigits ∧ piDigits ≤ 4 * 10 ^ 100 := by decide +kernel
  have hp : 0 < 10 ^ 100 := Nat.pow_pos (by omega)
  generalize piDigits = p at *
  generalize 10 ^ 100 = d at *
  constructor
  · refine FltFormat.roundMag_mono (by omega) hp ?_
    calc 3 * F.unitsPerOne * d = 3 * d * F.unitsPerOne := by ring
      _ ≤ p * F.unitsPerOne := Nat.mul_le_mul_right _ h.1
      _ = p * F.unitsPerOne * 1 := by ring
  · refine FltFormat.roundMag_mono hp (by omega) ?_
    calc p * F.unitsPerOne * 1 = p * F.unitsPerOne := by ring
      _ ≤ 4 * d * F.unitsPerOne := Nat.mul_le_mul_right _ h.2
      _ = 4 * F.unitsPerOne * d := by ring

theorem pi_posFinite (F : FltFormat) : F.posFinite F.pi = true := by
  have h := pi_bounds F
  have h3 := FltFormat.ofNat_mag_pos (F := F) (n := 3) (by omega)
  have h4 := FltFormat.ofNat_mag_lt (F := F) (n := 4) (by omega)
  exact (FltFormat.posFinite_iff _).2 ⟨rfl, by omega, by omega⟩

/-- Twice a value of at least one unit is no less than it, and finite up to 2^23. -/
theorem twoPi_posFinite (F : FltFormat) : F.posFinite F.twoPi = true := by
  have hp := pi_posFinite F
  have hpf := FltFormat.posFinite_isFinite hp
  have h2f := FltFormat.ofNat_isFinite (F := F) (n := 2) (by omega)
  have hU := FltFormat.unitsPerOne_pos F
  have e : F.twoPi = ⟨false, F.roundMag (2 * F.units F.pi) 1⟩ := by
    unfold FltFormat.twoPi
    rw [FltFormat.mul_of_finite h2f hpf]
    refine Flt.ext_sgn_mag ?_ ?_
    · simp [((FltFormat.posFinite_iff _).1 hp).1]
    · show F.roundMag (F.unitsOf (F.ofNat 2).mag * F.units F.pi) F.unitsPerOne = _
      rw [(FltFormat.ofNat_units (F := F) (n := 2) (by omega)).1]
      exact FltFormat.roundMag_congr hU (by omega) (by ring)
  have hu4 : F.units F.pi ≤ 4 * F.unitsPerOne := by
    rw [← (FltFormat.ofNat_units (F := F) (n := 4) (by omega)).1]
    exact FltFormat.unitsOf_mono (pi_bounds F).2 (Nat.le_of_lt (FltFormat.ofNat_mag_lt (by omega)))
  have hu1 : 0 < F.units F.pi := FltFormat.unitsOf_pos ((FltFormat.posFinite_iff _).1 hp).2.1
    (Nat.le_of_lt ((FltFormat.posFinite_iff _).1 hp).2.2)
  rw [e, FltFormat.posFinite_iff]
  refine ⟨rfl, FltFormat.roundMag_one_pos (by omega), ?_⟩
  have h8 := FltFormat.ofNat_mag_lt (F := F) (n := 8) (by omega)
  rw [FltFormat.ofNat_eq] at h8
  have : F.roundMag (2 * F.units F.pi) 1 ≤ F.roundMag (8 * F.unitsPerOne) 1 := FltFormat.roundMag_one_mono (by omega)
  exact Nat.lt_of_le_of_lt this h8

/-- A wrapped phase sum that is not below zero is in [0, TWO_PI) or a NaN (R96). -/
theorem wrapPhase_inRange {F : FltFormat} {x : Flt} (h : F.notNeg x = true) :
    F.isNaN (wrapPhase F x) = true ∨ F.inRange F.twoPi (wrapPhase F x) = true := by
  have ht := twoPi_posFinite F
  unfold wrapPhase
  split
  · exact .inr (FltFormat.fmod_inRange x ht)
  · rename_i hge
    by_cases hn : F.isNaN x = true
    · exact .inl hn
    · have hx := FltFormat.notNeg_nonneg h (by simpa using hn)
      refine .inr ((FltFormat.inRange_iff (FltFormat.posFinite_nonneg ht)).2 ⟨((FltFormat.nonneg_iff x).1 hx).1, ?_⟩)
      unfold FltFormat.ge at hge
      rw [FltFormat.le_iff_mag (FltFormat.posFinite_nonneg ht) hx] at hge
      omega

/-- The power of two of a finite value is positive and finite (R15). -/
theorem POW2_posFinite {F : FltFormat} {x : Flt} (hx : F.isFinite x = true) : F.posFinite (POW2 F x) = true := by
  unfold POW2
  split
  · rename_i y hy
    obtain ⟨l1, l2, e, _⟩ := List.lookup_eq_some_iff.1 hy
    have hm : (x, y) ∈ pow2Table F := by rw [e]; simp
    simp only [pow2Table, List.mem_map, List.mem_range, Prod.mk.injEq] at hm
    obtain ⟨k, hk, -, rfl⟩ := hm
    have h64 : (64 : Nat) = 2 ^ 6 := rfl
    have h2k : 2 ^ k ≤ 2 ^ 11 := Nat.pow_le_pow_right (by omega) (by omega)
    have hp : 0 < 2 ^ k := Nat.pow_pos (by omega)
    rw [h64]
    have hu := FltFormat.ofRat_pow_units (F := F) false (n := 2 ^ k) (k := 6) (by omega) (by omega)
    refine (FltFormat.posFinite_iff _).2 ⟨rfl, ?_, hu.2⟩
    by_contra h0
    have h0 : (F.ofRat false (2 ^ k) (2 ^ 6)).mag = 0 := by omega
    rw [h0, FltFormat.unitsOf_zero] at hu
    have := Nat.mul_pos hp (FltFormat.unitsPerOne_pos F)
    omega
  · split
    · exact (FltFormat.posFinite_iff _).2 ⟨rfl, FltFormat.one_mag_pos F, FltFormat.one_mag_lt F⟩
    · rename_i hp
      simpa [hx] using hp

theorem FREQ_eq (F : FltFormat) (note : Nat) : FREQ F note =
    F.mul F.a4Freq (POW2 F (F.div (F.sub (F.ofNat note) F.a4Note) F.semitones)) := rfl

/-- The distance of a note from A4 in octaves is finite (R130). -/
theorem octaves_isFinite (F : FltFormat) {note : Nat} (h : note ≤ 127) :
    F.isFinite (F.div (F.sub (F.ofNat note) F.a4Note) F.semitones) = true := by
  have hn := FltFormat.ofNat_isFinite (F := F) (n := note) (by omega)
  have ha : F.isFinite F.a4Note = true := FltFormat.ofNat_isFinite (by omega)
  have hs : F.posFinite F.semitones = true := FltFormat.ofNat_posFinite (by omega) (by omega)
  have e1 : F.toRat F.a4Note = 69 := FltFormat.toRat_ofNat (by omega)
  have e2 : F.toRat F.semitones = 12 := FltFormat.toRat_ofNat (by omega)
  have e3 : F.toRat (F.ofNat note) = note := FltFormat.toRat_ofNat (by omega)
  have hq : (note : ℚ) ≤ 127 := by exact_mod_cast h
  have hq0 : (0 : ℚ) ≤ note := Nat.cast_nonneg _
  have hd : |(note : ℚ) - 69| ≤ 128 := by rw [abs_le]; constructor <;> linarith
  obtain ⟨hf, he⟩ := FltFormat.sub_error hn ha (by rw [e1, e3]; exact le_trans hd (by norm_num))
  rw [e1, e3] at he
  have hh := FltFormat.halfUnit_small F
  have hb : |F.toRat (F.sub (F.ofNat note) F.a4Note)| ≤ 1024 := by
    have h1 := abs_sub_abs_le_abs_sub (F.toRat (F.sub (F.ofNat note) F.a4Note)) ((note : ℚ) - 69)
    norm_num at h1 he hh ⊢
    linarith
  refine (FltFormat.div_error hf (FltFormat.posFinite_isFinite hs) (FltFormat.posFinite_not_isZero hs) ?_).1
  rw [e2, abs_div, abs_of_pos (a := (12 : ℚ)) (by norm_num), div_le_iff₀ (by norm_num)]
  exact le_trans hb (by norm_num)

/-- The frequency of a note number is not below zero (R130). -/
theorem FREQ_notNeg (F : FltFormat) {note : Nat} (h : note ≤ 127) : F.notNeg (FREQ F note) = true := by
  rw [FREQ_eq]
  exact FltFormat.mul_notNeg (FltFormat.nonneg_notNeg (FltFormat.ofNat_nonneg _))
    (FltFormat.nonneg_notNeg (FltFormat.posFinite_nonneg (POW2_posFinite (octaves_isFinite F h))))

/-! ### The slot invariant -/

theorem Voice.reset_ok (F : FltFormat) : Voice.reset.Ok F := by
  constructor <;> simp [Voice.reset]

/-- The velocity scale of a velocity is in [0,1] (R150). -/
theorem VELSCALE_unit (F : FltFormat) {vel : Nat} (h : vel ≤ 127) : F.unit (VELSCALE F vel) = true := by
  have hm : F.posFinite F.velMax = true := FltFormat.ofNat_posFinite (by omega) (by omega)
  have hmf := FltFormat.posFinite_isFinite hm
  unfold VELSCALE
  rw [FltFormat.div_of_finite (FltFormat.ofNat_isFinite (by omega)) hmf (FltFormat.posFinite_not_isZero hm),
    FltFormat.unit_iff]
  refine ⟨by simp [FltFormat.velMax], ?_⟩
  have h1 : F.units (F.ofNat vel) ≤ F.units F.velMax :=
    FltFormat.unitsOf_mono (FltFormat.ofNat_mono h) (Nat.le_of_lt ((FltFormat.isFinite_iff _).1 hmf))
  have h2 : 0 < F.units F.velMax := FltFormat.units_pos hmf (FltFormat.posFinite_not_isZero hm)
  exact FltFormat.ofRat_mag_le_one (F := F) h2 h1

theorem retrigger_ok {F : FltFormat} {s : State} {f vel : Flt} {v : Voice} (hv : F.unit vel = true)
    (ha : v.active = true) : (retrigger s f vel v).Ok F := by
  constructor <;> simp [retrigger, Voice.press, hv, ha]

theorem claim_ok {F : FltFormat} {s : State} {note : Nat} {f vel : Flt} {v : Voice} (hv : F.unit vel = true) :
    (claim s note f vel v).Ok F := by
  constructor <;> simp [claim, Voice.press, hv]

theorem keyUp_ok {F : FltFormat} {p : Bool} {v : Voice} (h : v.Ok F) : (v.keyUp p).Ok F := by
  have h4 := h.gate_act
  constructor <;> simp [Voice.keyUp, h.env, h.velocity]
  · cases p <;> simp_all
  · exact h.silent

theorem releaseNote_ok {F : FltFormat} {note : Nat} {p : Bool} {v : Voice} (h : v.Ok F) :
    (releaseNote note p v).Ok F := by
  unfold releaseNote
  split
  · exact keyUp_ok h
  · exact h

theorem pedalUp_ok {F : FltFormat} {v : Voice} (h : v.Ok F) : v.pedalUp.Ok F := by
  have h3 := h.key_gate
  have h4 := h.gate_act
  constructor <;> simp [Voice.pedalUp, h.env, h.velocity]
  · cases hk : v.keyDown <;> simp_all
  · cases hk : v.keyDown <;> simp_all
  · exact h.silent

/-- A level that is not above 0 is +0.0. -/
theorem unit_le_zero {F : FltFormat} {e : Flt} (he : F.unit e = true) (h : F.le e Flt.zero = true) :
    e = Flt.zero := by
  rw [FltFormat.le_iff_mag (FltFormat.unit_nonneg he) FltFormat.zero_nonneg, Flt.zero_mag] at h
  exact Flt.ext_sgn_mag ((FltFormat.unit_iff e).1 he).1 (by rw [Flt.zero_mag]; omega)

theorem deactivate_ok {F : FltFormat} {v : Voice} (henv : F.unit v.env = true) (hvel : F.unit v.velocity = true)
    (hkg : v.keyDown = true → v.gate = true) (hact : v.active = true) : (v.deactivate F).Ok F := by
  constructor <;> simp [Voice.deactivate, henv, hvel, hact]
  · exact hkg
  · intro hg
    simp [Voice.finished, hg]
  · intro hf
    simp only [Voice.finished, Bool.and_eq_true] at hf
    exact unit_le_zero henv hf.2

/-- A tick keeps the slot invariant. -/
theorem tickSlot_ok {s : State} (hp : ParamsOk s) {v : Voice} (h : v.Ok s.fmt) : (tickSlot s v).1.Ok s.fmt := by
  rw [tickSlot_fst]
  split
  · rename_i ha
    exact deactivate_ok (envNext_unit hp v.gate h.env) h.velocity h.key_gate ha
  · exact h

/-- A tick rewrites neither the note nor the flags key_down and gate, nor the velocity or the target
pitch, and never activates a slot. -/
theorem tickSlot_keeps (s : State) (v : Voice) :
    (tickSlot s v).1.note = v.note ∧ (tickSlot s v).1.keyDown = v.keyDown ∧
      (tickSlot s v).1.gate = v.gate ∧ (tickSlot s v).1.freqTarget = v.freqTarget ∧
      (tickSlot s v).1.velocity = v.velocity ∧
      ((tickSlot s v).1.active = true → v.active = true) := by
  rw [tickSlot_fst]
  split
  · rename_i ha
    exact ⟨rfl, rfl, rfl, rfl, rfl, fun _ => ha⟩
  · exact ⟨rfl, rfl, rfl, rfl, rfl, id⟩

/-! ### Unique notes -/

/-- Slot by slot the same note and no slot newly active: notes stay unique. -/
theorem uniqueNotes_map {vs : List Voice} {f : Voice → Voice}
    (hn : ∀ v, (f v).note = v.note) (ha : ∀ v, (f v).active = true → v.active = true)
    (h : uniqueNotes vs) : uniqueNotes (vs.map f) := by
  unfold uniqueNotes at *
  rw [List.pairwise_map]
  exact h.imp fun {a b} hab hc => hab ⟨ha a hc.1, ha b hc.2.1, by rw [← hn a, ← hn b]; exact hc.2.2⟩

theorem uniqueNotes_iff (vs : List Voice) :
    uniqueNotes vs ↔ ∀ (i j : Nat) (v w : Voice), vs[i]? = some v → vs[j]? = some w → i < j →
      ¬(v.active = true ∧ w.active = true ∧ v.note = w.note) := by
  unfold uniqueNotes
  rw [List.pairwise_iff_getElem]
  constructor
  · intro h i j v w hi hj hij
    obtain ⟨hi', rfl⟩ := List.getElem?_eq_some_iff.1 hi
    obtain ⟨hj', rfl⟩ := List.getElem?_eq_some_iff.1 hj
    exact h i j hi' hj' hij
  · intro h i j hi hj hij
    exact h i j _ _ (List.getElem?_eq_getElem hi) (List.getElem?_eq_getElem hj) hij

/-- One slot rewritten, its new note held by no other active slot: notes stay unique. -/
theorem uniqueNotes_modify {vs : List Voice} {k : Nat} {f : Voice → Voice} (h : uniqueNotes vs)
    (hf : ∀ v, vs[k]? = some v → ∀ i w, i ≠ k → vs[i]? = some w → w.active = true → w.note ≠ (f v).note) :
    uniqueNotes (vs.modify k f) := by
  rw [uniqueNotes_iff] at *
  intro i j v w hi hj hij hc
  rw [List.getElem?_modify] at hi hj
  by_cases hik : k = i
  · subst hik
    have hjk : k ≠ j := by omega
    simp only [if_true, hjk, if_false, Option.map_eq_map, Option.map_id'] at hi hj
    obtain ⟨v0, hv0, rfl⟩ := Option.map_eq_some_iff.1 hi
    have hj' : vs[j]? = some w := by simpa using hj
    exact hf v0 hv0 j w (by omega) hj' hc.2.1 hc.2.2.symm
  · have hi' : vs[i]? = some v := by simpa [hik] using hi
    by_cases hjk : k = j
    · subst hjk
      simp only [if_true] at hj
      obtain ⟨w0, hw0, rfl⟩ := Option.map_eq_some_iff.1 hj
      exact hf w0 hw0 i v (by omega) hi' hc.1 hc.2.2
    · have hj' : vs[j]? = some w := by simpa [hjk] using hj
      exact h i j v w hi' hj' hij hc

end Sys2Proof.Machine
end

