-- ==== Sys2Proof/Laws/Bounds.lean ====
section
/-! SUPPORT. R33 items 4 and 5 under the rounded arithmetic: the glide step keeps a positive frequency
positive and below its ceiling, and the mix update keeps MIX in [1/32, 1]. -/

namespace Sys2Proof.Machine

/-! ### Frequencies (R33 item 4) -/

/-- The frequency of a note number is above zero (R15's POW2_POS, R130). -/
theorem FREQ_pos (F : FltFormat) {note : Nat} (h : note ≤ 127) : F.gt (FREQ F note) Flt.zero = true := by
  have hp := POW2_posFinite (octaves_isFinite F h)
  rw [FREQ_eq]
  generalize POW2 F _ = p at hp
  obtain ⟨hps, hpm, hpl⟩ := (FltFormat.posFinite_iff p).1 hp
  have ha : F.posFinite F.a4Freq = true := FltFormat.ofNat_posFinite (by omega) (by omega)
  have hu : 1 ≤ F.units p := FltFormat.unitsOf_pos hpm (Nat.le_of_lt hpl)
  have h3 : F.units F.a4Freq = 440 * F.unitsPerOne := (FltFormat.ofNat_units (by omega)).1
  rw [FltFormat.mul_of_finite (FltFormat.posFinite_isFinite ha) (FltFormat.posFinite_isFinite hp)]
  have e : (F.a4Freq.sgn != p.sgn) = false := by simp [FltFormat.a4Freq, hps]
  rw [e, FltFormat.gt_zero_iff (FltFormat.nonneg_mk (FltFormat.roundMag_le _ _))]
  apply FltFormat.roundMag_pos (FltFormat.unitsPerOne_pos F)
  calc F.unitsPerOne ≤ F.units F.a4Freq * 1 := by omega
    _ ≤ F.units F.a4Freq * F.units p := Nat.mul_le_mul_left _ hu

theorem ceiling_toRat (F : FltFormat) : F.toRat (F.ofNat 32768) = 32768 := by
  have := FltFormat.toRat_ofNat (F := F) (n := 32768) (by omega)
  exact_mod_cast this

theorem ceiling_isFinite (F : FltFormat) : F.isFinite (F.ofNat 32768) = true := FltFormat.ofNat_isFinite (by omega)

theorem tuned_bounds {F : FltFormat} {f : Flt} (h : tuned F f = true) :
    F.isFinite f = true ∧ 8 ≤ F.toRat f ∧ F.toRat f ≤ 16384 := by
  simp only [tuned, Bool.and_eq_true] at h
  have h8 : F.isFinite (F.ofNat 8) = true := FltFormat.ofNat_isFinite (by omega)
  have hc : F.isFinite (F.ofNat 16384) = true := FltFormat.ofNat_isFinite (by omega)
  have hf := FltFormat.isFinite_of_le h8 hc h.1 h.2
  refine ⟨hf, ?_, ?_⟩
  · have := (FltFormat.le_iff_toRat h8 hf).1 h.1
    rw [FltFormat.toRat_ofNat (by omega)] at this
    exact_mod_cast this
  · have := (FltFormat.le_iff_toRat hf hc).1 h.2
    rw [FltFormat.toRat_ofNat (by omega)] at this
    exact_mod_cast this

/-- The glide step of a tuned slot: the frequency stays above zero and at most 32768 Hz (R131, R33 item 4). -/
theorem glideNext_tuned {s : State} {ft fc : Flt} (hdt : s.fmt.notNeg s.dt = true)
    (hg : s.fmt.nonneg s.glide = true) (ht : tuned s.fmt ft = true) (hp : s.fmt.gt fc Flt.zero = true)
    (hc : s.fmt.le fc (s.fmt.ofNat 32768) = true) :
    s.fmt.gt (glideNext s ft fc) Flt.zero = true ∧ s.fmt.le (glideNext s ft fc) (s.fmt.ofNat 32768) = true := by
  have hu : s.fmt.unit s.glideCoeff = true :=
    FltFormat.min_one_unit (FltFormat.div_notNeg hdt (FltFormat.nonneg_notNeg hg))
  unfold glideNext
  generalize s.fmt = F at *
  obtain ⟨htf, ht8, htc⟩ := tuned_bounds ht
  have hCf := ceiling_isFinite F
  have hC := ceiling_toRat F
  have hh := FltFormat.halfUnit_small F
  have hh0 := FltFormat.halfUnit_pos F
  have hcf : F.isFinite fc = true := FltFormat.isFinite_of_le (a := Flt.zero) FltFormat.zero_isFinite hCf
    (by rw [FltFormat.le_iff]; have := (FltFormat.lt_iff _ _).1 hp; exact ⟨this.1, this.2.1, by omega⟩) hc
  have hc0 : 0 < F.toRat fc := by
    have := (FltFormat.lt_iff_toRat FltFormat.zero_isFinite hcf).1 hp
    rwa [FltFormat.toRat_zero] at this
  have hcc : F.toRat fc ≤ 32768 := by
    have := (FltFormat.le_iff_toRat hcf hCf).1 hc
    rwa [hC] at this
  have pos_of : ∀ {a b c : Flt}, F.isFinite a = true → F.isFinite b = true → F.isFinite c = true →
      0 < F.toRat c → F.toRat c ≤ F.toRat a + F.toRat b → F.gt (F.add a b) Flt.zero = true := by
    intro a b c ha hb hcf hc0 hc
    have h1 := (FltFormat.le_iff _ _).1 (FltFormat.le_add_of ha hb hcf hc)
    have h2 : F.lt Flt.zero c = true :=
      (FltFormat.lt_iff_toRat FltFormat.zero_isFinite hcf).2 (by rwa [FltFormat.toRat_zero])
    have h2 := (FltFormat.lt_iff _ _).1 h2
    exact (FltFormat.lt_iff _ _).2 ⟨h2.1, h1.2.1, by omega⟩
  split
  · refine ⟨?_, ?_⟩
    · show F.lt _ _ = true
      rw [FltFormat.lt_iff_toRat FltFormat.zero_isFinite htf, FltFormat.toRat_zero]; linarith
    · rw [FltFormat.le_iff_toRat htf hCf, hC]; linarith
  · have habs : |F.toRat ft - F.toRat fc| ≤ 32768 := by rw [abs_le]; constructor <;> linarith
    obtain ⟨hdf, hde⟩ := FltFormat.sub_error htf hcf (le_trans habs (by norm_num))
    obtain ⟨hmf, hms, hml⟩ := FltFormat.mul_unit_between hdf hu
    generalize hm : F.mul (F.sub ft fc) s.glideCoeff = m at *
    have hd' := abs_le.1 hde
    have hsm : |F.toRat ft - F.toRat fc| / 2 ^ 24 + F.halfUnit ≤ 1 := by
      have : |F.toRat ft - F.toRat fc| / 2 ^ 24 ≤ 32768 / 2 ^ 24 :=
        div_le_div_of_nonneg_right habs (by positivity)
      norm_num at this hh ⊢
      linarith
    cases hs : (F.sub ft fc).sgn with
    | false =>
      have hd0 := FltFormat.toRat_nonneg_of_sgn (F := F) hs
      have hm0 := FltFormat.toRat_nonneg_of_sgn (F := F) (x := m) (by rw [hms, hs])
      rw [abs_of_nonneg hm0, abs_of_nonneg hd0] at hml
      exact ⟨pos_of hcf hmf hcf hc0 (by linarith), FltFormat.add_le_of hcf hmf hCf (by rw [hC]; linarith)⟩
    | true =>
      have hd0 := FltFormat.toRat_nonpos_of_sgn (F := F) hs
      have hm0 := FltFormat.toRat_nonpos_of_sgn (F := F) (x := m) (by rw [hms, hs])
      rw [abs_of_nonpos hm0, abs_of_nonpos hd0] at hml
      have h4 : F.toRat (F.ofNat 4) = 4 := by
        have := FltFormat.toRat_ofNat (F := F) (n := 4) (by omega)
        exact_mod_cast this
      exact ⟨pos_of hcf hmf (c := F.ofNat 4) (FltFormat.ofNat_isFinite (by omega)) (by rw [h4]; norm_num)
          (by rw [h4]; linarith),
        FltFormat.add_le_of hcf hmf hCf (by rw [hC]; linarith)⟩

/-! ### MIX (R33 item 5) -/

theorem mixLow_toRat (F : FltFormat) : F.toRat (F.ofRat false 1 32) = 1 / 32 := by
  have := FltFormat.toRat_ofRat_pow (F := F) (n := 1) (k := 5) (by omega) (by omega)
  rw [show (2 : Nat) ^ 5 = 32 from rfl] at this
  rw [this]; norm_num

theorem mixLow_isFinite (F : FltFormat) : F.isFinite (F.ofRat false 1 32) = true :=
  (FltFormat.isFinite_iff _).2 (FltFormat.ofRat_pow_units (F := F) false (n := 1) (k := 5) (by omega) (by omega)).2

/-- MIX's range as rationals, and its grid: whole multiples of a fraction bit of 1/32. -/
theorem mixInRange_bounds {F : FltFormat} {m : Flt} (h : mixInRange F m = true) :
    F.isFinite m = true ∧ m.sgn = false ∧ 1 / 32 ≤ F.toRat m ∧ F.toRat m ≤ 1 ∧
      ∃ a : Nat, F.toRat m * (32 * 2 ^ F.fracBits) = a := by
  simp only [mixInRange, Bool.and_eq_true] at h
  have hf := FltFormat.isFinite_of_le (mixLow_isFinite F) FltFormat.one_isFinite h.1 h.2
  have h1 := (FltFormat.le_iff_toRat (mixLow_isFinite F) hf).1 h.1
  have h2 := (FltFormat.le_iff_toRat hf FltFormat.one_isFinite).1 h.2
  rw [mixLow_toRat] at h1
  rw [FltFormat.toRat_one] at h2
  have hU := FltFormat.unitsPerOne_pos_rat F
  have hs : m.sgn = false := by
    by_contra hc
    have := FltFormat.toRat_nonpos_of_sgn (F := F) (x := m) (by simpa using hc)
    linarith
  refine ⟨hf, hs, h1, h2, ?_⟩
  have hb := FltFormat.bias_ge F
  have hu : F.unitsPerOne = 2 ^ (F.bias - 6) * (32 * 2 ^ F.fracBits) := by
    rw [FltFormat.unitsPerOne_eq, show F.bias - 1 = F.bias - 6 + 5 by omega, Nat.pow_add]; ring
  have hr : F.toRat m = (F.units m : ℚ) / F.unitsPerOne := by
    rw [FltFormat.toRat_eq_units, hs]; simp
  have hge : 2 ^ (F.bias - 6) * 2 ^ F.fracBits ≤ F.units m := by
    rw [hr, le_div_iff₀ hU] at h1
    have h3 : F.unitsPerOne ≤ 32 * F.units m := by
      have : (F.unitsPerOne : ℚ) ≤ 32 * (F.units m : ℚ) := by linarith
      exact_mod_cast this
    rw [hu] at h3
    have : 2 ^ (F.bias - 6) * (32 * 2 ^ F.fracBits) = 32 * (2 ^ (F.bias - 6) * 2 ^ F.fracBits) := by ring
    omega
  obtain ⟨a, ha⟩ := FltFormat.unitsOf_dvd ((FltFormat.isFinite_iff m).1 hf) hge
  refine ⟨a, ?_⟩
  rw [hr, show F.units m = 2 ^ (F.bias - 6) * a from ha, hu]
  push_cast
  field_simp

theorem mixInRange_of {F : FltFormat} {m : Flt} (h1 : F.le (F.ofRat false 1 32) m = true)
    (h2 : F.le m F.one = true) : mixInRange F m = true := by simp [mixInRange, h1, h2]

/-- The normalisation target of up to 32 voices is in [1/32, 1] (R183). -/
theorem mixTarget_inRange (F : FltFormat) {n : Nat} (h : n ≤ 32) : mixInRange F (mixTarget F n) = true := by
  have hl := mixLow_isFinite F
  unfold mixTarget
  split
  · rename_i hn
    have hp : F.posFinite (F.ofNat n) = true := FltFormat.ofNat_posFinite hn (by omega)
    have hU := FltFormat.unitsPerOne_pos F
    have hun : F.units (F.ofNat n) = n * F.unitsPerOne := (FltFormat.ofNat_units (by omega)).1
    have hu1 : F.units F.one = F.unitsPerOne := FltFormat.one_units
    rw [FltFormat.div_of_finite FltFormat.one_isFinite (FltFormat.posFinite_isFinite hp)
      (FltFormat.posFinite_not_isZero hp), hu1, hun]
    have e : (F.one.sgn != (F.ofNat n).sgn) = false := by simp
    rw [e]
    refine mixInRange_of ?_ ?_
    · unfold FltFormat.ofRat
      rw [FltFormat.le_iff_mag (FltFormat.nonneg_mk (FltFormat.roundMag_le _ _))
        (FltFormat.nonneg_mk (FltFormat.roundMag_le _ _))]
      refine FltFormat.roundMag_mono (by omega) (Nat.mul_pos hn hU) ?_
      calc 1 * F.unitsPerOne * (n * F.unitsPerOne) = n * (F.unitsPerOne * F.unitsPerOne) := by ring
        _ ≤ 32 * (F.unitsPerOne * F.unitsPerOne) := Nat.mul_le_mul_right _ h
        _ = F.unitsPerOne * F.unitsPerOne * 32 := by ring
    · rw [FltFormat.le_iff_mag (FltFormat.nonneg_mk (FltFormat.roundMag_le _ _)) FltFormat.one_nonneg]
      exact FltFormat.ofRat_mag_le_one (F := F) (Nat.mul_pos hn hU) (Nat.le_mul_of_pos_left _ hn)
  · refine mixInRange_of ?_ ?_
    · rw [FltFormat.le_iff_toRat hl FltFormat.one_isFinite, mixLow_toRat, FltFormat.toRat_one]; norm_num
    · simp [FltFormat.le_iff]

/-- The mix update keeps MIX in [1/32, 1] while DT is at most 1 (R184, R33 item 5). -/
theorem mixNext_inRange {F : FltFormat} {dt m t : Flt} (hdt : F.unit dt = true) (hm : mixInRange F m = true)
    (ht : mixInRange F t = true) : mixInRange F (mixNext F dt m t) = true := by
  obtain ⟨hmf, hms, hm1, hm2, hmg⟩ := mixInRange_bounds hm
  obtain ⟨htf, hts, ht1, ht2, htg⟩ := mixInRange_bounds ht
  have hdf := FltFormat.unit_isFinite hdt
  have hd0 := FltFormat.toRat_nonneg_of_sgn (F := F) ((FltFormat.unit_iff dt).1 hdt).1
  have hd1 : F.toRat dt ≤ 1 := by
    have h := (FltFormat.le_iff_mag (FltFormat.unit_nonneg hdt) FltFormat.one_nonneg).2
      ((FltFormat.unit_iff dt).1 hdt).2
    have := (FltFormat.le_iff_toRat hdf FltFormat.one_isFinite).1 h
    rwa [FltFormat.toRat_one] at this
  have hh := FltFormat.halfUnit_small F
  have hh0 := FltFormat.halfUnit_pos F
  -- TAU_MIX is near 1/200
  obtain ⟨hTf, hTe⟩ := FltFormat.ofRat_error (F := F) (n := 5) (d := 1000) (by omega) (by norm_num)
  have hTlo : 49 / 10000 ≤ F.toRat F.tauMix := by
    have := (abs_le.1 hTe).1
    show 49 / 10000 ≤ F.toRat (F.ofRat false 5 1000)
    norm_num at this hh ⊢
    linarith
  have hThi : F.toRat F.tauMix ≤ 1 := by
    have := (abs_le.1 hTe).2
    show F.toRat (F.ofRat false 5 1000) ≤ 1
    norm_num at this hh ⊢
    linarith
  replace hTf : F.isFinite F.tauMix = true := hTf
  clear hTe
  -- the distance, then its step, each off by one rounding
  obtain ⟨hDf, hDe⟩ := FltFormat.sub_error htf hmf (by
    refine le_trans (b := 1) ?_ (by norm_num); rw [abs_le]; constructor <;> linarith)
  obtain ⟨hPf, hPs, hPl⟩ := FltFormat.mul_unit_between hDf hdt
  have hDl : |F.toRat (F.sub t m)| ≤ 2 := by
    have h1 : |F.toRat t - F.toRat m| ≤ 1 := by rw [abs_le]; constructor <;> linarith
    have h2 := abs_le.1 hDe
    have h3 := abs_le.1 h1
    rw [abs_le]; constructor <;> norm_num at h2 hh ⊢ <;> linarith
  obtain ⟨-, hPe⟩ := FltFormat.mul_error hDf hdf (by
    rw [abs_mul, abs_of_nonneg hd0]
    calc |F.toRat (F.sub t m)| * F.toRat dt ≤ 2 * 1 := by
            apply mul_le_mul hDl hd1 hd0 (by norm_num)
      _ ≤ 2 ^ 127 := by norm_num)
  obtain ⟨hSf, hSe⟩ := FltFormat.add_error (a := F.tauMix) (b := dt) hTf hdf (by
    rw [abs_of_nonneg (by linarith)]
    calc F.toRat F.tauMix + F.toRat dt ≤ 2 := by linarith
      _ ≤ 2 ^ 127 := by norm_num)
  rw [abs_of_nonneg (a := F.toRat F.tauMix + F.toRat dt) (by linarith)] at hSe
  have hS : 9999 / 10000 * (49 / 10000 + F.toRat dt) ≤ F.toRat (F.add F.tauMix dt) := by
    have := (abs_le.1 hSe).1
    norm_num at this hh ⊢
    linarith
  have hSpos : 0 < F.toRat (F.add F.tauMix dt) := lt_of_lt_of_le (by positivity) hS
  have hSs : (F.add F.tauMix dt).sgn = false := by
    by_contra hc
    have := FltFormat.toRat_nonpos_of_sgn (F := F) (x := F.add F.tauMix dt) (by simpa using hc)
    linarith
  have hSz : (F.add F.tauMix dt).isZero = false := by
    by_contra hc
    have hc : (F.add F.tauMix dt).mag = 0 := by simpa [Flt.isZero] using hc
    have h0 : F.units (F.add F.tauMix dt) = 0 := by unfold FltFormat.units; rw [hc]; exact FltFormat.unitsOf_zero
    rw [FltFormat.toRat_eq_units, h0] at hSpos
    simp at hSpos
  have hSlo : 1 / 256 ≤ F.toRat (F.add F.tauMix dt) := by
    norm_num at hS ⊢; linarith
  have hPS : |F.toRat (F.mul (F.sub t m) dt) / F.toRat (F.add F.tauMix dt)| ≤ 512 := by
    rw [abs_div, abs_of_pos hSpos, div_le_iff₀ hSpos]
    linarith
  obtain ⟨hQf, hQe⟩ := FltFormat.div_error hPf hSf hSz (le_trans hPS (by norm_num))
  have hQs := FltFormat.div_sgn hPf hSf hSz
  rw [hPs, hSs, Bool.bne_false] at hQs
  have final : ∀ {lo hi : ℚ}, 1 / 32 ≤ lo → hi ≤ 1 → lo ≤ F.toRat m + F.toRat (F.div (F.mul (F.sub t m) dt)
      (F.add F.tauMix dt)) → F.toRat m + F.toRat (F.div (F.mul (F.sub t m) dt)
      (F.add F.tauMix dt)) ≤ hi → mixInRange F (mixNext F dt m t) = true := by
    intro lo hi h1 h2 h3 h4
    exact mixInRange_of (FltFormat.le_add_of hmf hQf (mixLow_isFinite F) (by rw [mixLow_toRat]; linarith))
      (FltFormat.add_le_of hmf hQf FltFormat.one_isFinite (by rw [FltFormat.toRat_one]; linarith))
  generalize F.add F.tauMix dt = S at *
  generalize hP : F.mul (F.sub t m) dt = P at *
  generalize hD : F.sub t m = D at *
  generalize hQ : F.div P S = Q at *
  rcases eq_or_ne (F.toRat t) (F.toRat m) with heq | hne
  · -- at the target nothing moves
    rw [heq, sub_self] at hDe
    have hD0 := FltFormat.toRat_small (F := F) (x := D) (by simpa using hDe)
    have hP0 : F.toRat P = 0 := by rw [hD0] at hPl; simpa using hPl
    rw [hP0] at hQe
    have hQ0 := FltFormat.toRat_small (F := F) (x := Q) (by simpa using hQe)
    exact final hm1 hm2 (by rw [hQ0]; linarith) (by rw [hQ0]; linarith)
  · -- the distance is at least a spacing of the range, far above the least value
    have hgap : F.halfUnit ≤ |F.toRat t - F.toRat m| / 2 ^ 90 := by
      obtain ⟨a, ha⟩ := htg
      obtain ⟨b, hb⟩ := hmg
      have hW : (0 : ℚ) < 2 ^ F.fracBits := by positivity
      have hab : (a : Int) - b ≠ 0 := by
        intro h
        have : a = b := by omega
        rw [this, ← hb] at ha
        exact hne (mul_right_cancel₀ (by positivity) ha)
      have h1 : (1 : ℚ) ≤ |((a : Int) - b : Int)| := by exact_mod_cast Int.one_le_abs hab
      push_cast at h1
      rw [← ha, ← hb, ← sub_mul, abs_mul, abs_of_pos (a := (32 : ℚ) * 2 ^ F.fracBits) (by positivity)] at h1
      refine le_trans (FltFormat.halfUnit_le F) ?_
      rw [div_le_div_iff₀ hW (by positivity)]
      norm_num at h1 ⊢
      linarith
    have hg0 := abs_nonneg (F.toRat t - F.toRat m)
    have hDb : |F.toRat D| ≤ 10001 / 10000 * |F.toRat t - F.toRat m| := by
      have h1 := abs_sub_abs_le_abs_sub (F.toRat D) (F.toRat t - F.toRat m)
      norm_num at h1 hDe hgap ⊢
      linarith
    have hPb : |F.toRat P| ≤ 10002 / 10000 * |F.toRat t - F.toRat m| * F.toRat dt + F.halfUnit := by
      have h1 := abs_sub_abs_le_abs_sub (F.toRat P) (F.toRat D * F.toRat dt)
      rw [abs_mul, abs_of_nonneg hd0] at h1 hPe
      have h2 : |F.toRat D| * F.toRat dt ≤ 10001 / 10000 * |F.toRat t - F.toRat m| * F.toRat dt :=
        mul_le_mul_of_nonneg_right hDb hd0
      have h3 : 0 ≤ |F.toRat t - F.toRat m| * F.toRat dt := by positivity
      norm_num at h1 hPe h2 h3 ⊢
      linarith
    have hQb : |F.toRat P / F.toRat S| ≤ 997 / 1000 * |F.toRat t - F.toRat m| := by
      rw [abs_div, abs_of_pos hSpos, div_le_iff₀ hSpos]
      refine le_trans hPb ?_
      have h1 := mul_le_mul_of_nonneg_left hS (a := 997 / 1000 * |F.toRat t - F.toRat m|) (by positivity)
      refine le_trans ?_ h1
      have h2 : |F.toRat t - F.toRat m| * F.toRat dt ≤ |F.toRat t - F.toRat m| * 1 :=
        mul_le_mul_of_nonneg_left hd1 (abs_nonneg _)
      norm_num at h2 hgap ⊢
      nlinarith
    have hQl : |F.toRat Q| ≤ |F.toRat t - F.toRat m| := by
      have h1 := abs_sub_abs_le_abs_sub (F.toRat Q) (F.toRat P / F.toRat S)
      norm_num at h1 hQe hQb hgap ⊢
      linarith
    rcases lt_or_gt_of_ne hne with hlt | hgt
    · have hab : |F.toRat t - F.toRat m| = F.toRat m - F.toRat t := by rw [abs_of_neg (by linarith)]; ring
      have hDs : D.sgn = true := by
        by_contra hc
        have h0 := FltFormat.toRat_nonneg_of_sgn (F := F) (x := D) (by simpa using hc)
        have := (abs_le.1 hDe).2
        rw [hab] at this hgap
        norm_num at this hgap
        linarith
      have hQ0 := FltFormat.toRat_nonpos_of_sgn (F := F) (x := Q) (by rw [hQs, hDs])
      rw [hab, abs_of_nonpos hQ0] at hQl
      exact final ht1 hm2 (by linarith) (by linarith)
    · have hab : |F.toRat t - F.toRat m| = F.toRat t - F.toRat m := abs_of_pos (by linarith)
      have hDs : D.sgn = false := by
        by_contra hc
        have h0 := FltFormat.toRat_nonpos_of_sgn (F := F) (x := D) (by simpa using hc)
        have := (abs_le.1 hDe).1
        rw [hab] at this hgap
        norm_num at this hgap
        linarith
      have hQ0 := FltFormat.toRat_nonneg_of_sgn (F := F) (x := Q) (by rw [hQs, hDs])
      rw [hab, abs_of_nonneg hQ0] at hQl
      exact final hm1 ht2 (by linarith) (by linarith)

end Sys2Proof.Machine
end

