-- ==== Sys2Proof/Laws/Decode.lean ====
section
/-! SUPPORT. Laws of the command word (R65, R66, R74, R75): a word is its seven fields; masking is done
field by field; what the decoder does, from the fields; the byte transport (R51, R52). -/

namespace Sys2Proof

/-! ### A word is its seven fields (R65) -/

/-- The word with these fields, from bit 63 down. -/
def parts (op : BitVec 8) (ra : BitVec 1) (n : BitVec 7) (rb : BitVec 1) (v : BitVec 7) (rc : BitVec 8)
    (im : BitVec 32) : Word := op ++ ra ++ n ++ rb ++ v ++ rc ++ im

theorem parts_toNat (op : BitVec 8) (ra : BitVec 1) (n : BitVec 7) (rb : BitVec 1) (v : BitVec 7)
    (rc : BitVec 8) (im : BitVec 32) :
    (parts op ra n rb v rc im).toNat =
      op.toNat * 2 ^ 56 + ra.toNat * 2 ^ 55 + n.toNat * 2 ^ 48 + rb.toNat * 2 ^ 47 + v.toNat * 2 ^ 40 +
        rc.toNat * 2 ^ 32 + im.toNat := by
  unfold parts
  have h1 := op.isLt; have h2 := n.isLt; have h3 := v.isLt; have h4 := im.isLt
  have h5 := ra.isLt; have h6 := rb.isLt; have h7 := rc.isLt
  erw [BitVec.toNat_append, BitVec.toNat_append, BitVec.toNat_append, BitVec.toNat_append,
    BitVec.toNat_append, BitVec.toNat_append]
  rw [← Nat.shiftLeft_add_eq_or_of_lt, ← Nat.shiftLeft_add_eq_or_of_lt, ← Nat.shiftLeft_add_eq_or_of_lt,
    ← Nat.shiftLeft_add_eq_or_of_lt, ← Nat.shiftLeft_add_eq_or_of_lt, ← Nat.shiftLeft_add_eq_or_of_lt]
  · simp only [Nat.shiftLeft_eq]; omega
  all_goals omega

/-- A field, by division. -/
theorem field_eq (w : Word) (hi lo : Nat) : field w hi lo = w.toNat / 2 ^ lo % 2 ^ (hi + 1 - lo) := by
  simp [field, Nat.shiftRight_eq_div_pow]

theorem parts_of_word (w : Word) :
    w = parts (w.extractLsb' 56 8) (w.extractLsb' 55 1) (w.extractLsb' 48 7) (w.extractLsb' 47 1)
      (w.extractLsb' 40 7) (w.extractLsb' 32 8) (w.extractLsb' 0 32) := by
  apply BitVec.eq_of_toNat_eq
  rw [parts_toNat]
  have := w.isLt
  simp only [BitVec.extractLsb'_toNat, Nat.shiftRight_eq_div_pow]
  omega

theorem parts_and (op op' : BitVec 8) (ra ra' : BitVec 1) (n n' : BitVec 7) (rb rb' : BitVec 1)
    (v v' : BitVec 7) (rc rc' : BitVec 8) (im im' : BitVec 32) :
    parts op ra n rb v rc im &&& parts op' ra' n' rb' v' rc' im' =
      parts (op &&& op') (ra &&& ra') (n &&& n') (rb &&& rb') (v &&& v') (rc &&& rc') (im &&& im') := by
  unfold parts
  erw [BitVec.and_append, BitVec.and_append, BitVec.and_append, BitVec.and_append, BitVec.and_append,
    BitVec.and_append]

theorem parts_inj {op op' : BitVec 8} {ra ra' : BitVec 1} {n n' : BitVec 7} {rb rb' : BitVec 1}
    {v v' : BitVec 7} {rc rc' : BitVec 8} {im im' : BitVec 32} :
    parts op ra n rb v rc im = parts op' ra' n' rb' v' rc' im' ↔
      op = op' ∧ ra = ra' ∧ n = n' ∧ rb = rb' ∧ v = v' ∧ rc = rc' ∧ im = im' := by
  constructor
  · intro h
    have h := congrArg BitVec.toNat h
    rw [parts_toNat, parts_toNat] at h
    have h1 := op.isLt; have h2 := n.isLt; have h3 := v.isLt; have h4 := im.isLt
    have h5 := ra.isLt; have h6 := rb.isLt; have h7 := rc.isLt
    have h1 := op'.isLt; have h2 := n'.isLt; have h3 := v'.isLt; have h4 := im'.isLt
    have h5 := ra'.isLt; have h6 := rb'.isLt; have h7 := rc'.isLt
    simp only [← BitVec.toNat_inj]
    omega
  · rintro ⟨rfl, rfl, rfl, rfl, rfl, rfl, rfl⟩; rfl

theorem layout_eq_parts (op : BitVec 8) (n v : BitVec 7) (im : BitVec 32) :
    layout op n v im = parts op 0#1 n 0#1 v 0#8 im := rfl

theorem layout_toNat (op : BitVec 8) (n v : BitVec 7) (im : BitVec 32) :
    (layout op n v im).toNat = op.toNat * 2 ^ 56 + n.toNat * 2 ^ 48 + v.toNat * 2 ^ 40 + im.toNat := by
  rw [layout_eq_parts, parts_toNat]; simp

theorem layout_note (op : BitVec 8) (n v : BitVec 7) (im : BitVec 32) :
    (layout op n v im).extractLsb' 48 7 = n := by
  apply BitVec.eq_of_toNat_eq
  have h1 := im.isLt; have h2 := n.isLt; have h3 := v.isLt
  simp only [BitVec.extractLsb'_toNat, Nat.shiftRight_eq_div_pow, layout_toNat]; omega

theorem layout_vel (op : BitVec 8) (n v : BitVec 7) (im : BitVec 32) :
    (layout op n v im).extractLsb' 40 7 = v := by
  apply BitVec.eq_of_toNat_eq
  have h1 := im.isLt; have h2 := n.isLt; have h3 := v.isLt
  simp only [BitVec.extractLsb'_toNat, Nat.shiftRight_eq_div_pow, layout_toNat]; omega

theorem layout_imm (op : BitVec 8) (n v : BitVec 7) (im : BitVec 32) :
    (layout op n v im).extractLsb' 0 32 = im := by
  apply BitVec.eq_of_toNat_eq
  have h1 := im.isLt
  simp only [BitVec.extractLsb'_toNat, Nat.shiftRight_eq_div_pow, layout_toNat]; omega

/-- A laid-out word matches a mask that keeps none of its operand bits. -/
theorem layout_and (op : BitVec 8) (n v : BitVec 7) (im : BitVec 32) (nm vm : BitVec 7) (imm : BitVec 32)
    (h1 : n &&& nm = 0#7) (h2 : v &&& vm = 0#7) (h3 : im &&& imm = 0#32) :
    layout op n v im &&& parts 0xFF#8 1#1 nm 1#1 vm 0xFF#8 imm = parts op 0#1 0#7 0#1 0#7 0#8 0#32 := by
  rw [layout_eq_parts, parts_and, h1, h2, h3, show (0xFF#8 : BitVec 8) = BitVec.allOnes 8 by decide,
    BitVec.and_allOnes]
  simp

/-- A word under a mask that keeps OP and the reserved fields, and what it keeps of NOTE, VEL and IMM. -/
theorem and_mask_iff (w : Word) (op : BitVec 8) (nm vm : BitVec 7) (im : BitVec 32) :
    w &&& parts 0xFF#8 1#1 nm 1#1 vm 0xFF#8 im = parts op 0#1 0#7 0#1 0#7 0#8 0#32 ↔
      w.extractLsb' 56 8 = op ∧ w.extractLsb' 55 1 = 0#1 ∧ w.extractLsb' 48 7 &&& nm = 0#7 ∧
        w.extractLsb' 47 1 = 0#1 ∧ w.extractLsb' 40 7 &&& vm = 0#7 ∧ w.extractLsb' 32 8 = 0#8 ∧
        w.extractLsb' 0 32 &&& im = 0#32 := by
  conv_lhs => rw [parts_of_word w]
  rw [parts_and, parts_inj]
  have e8 : (0xFF#8 : BitVec 8) = BitVec.allOnes 8 := by decide
  have e1 : (1#1 : BitVec 1) = BitVec.allOnes 1 := by decide
  rw [e8, e1]
  simp only [BitVec.and_allOnes]

/-- A word that matches a row is laid out by R65 from its own operand fields, and what the mask keeps of
them is 0. -/
theorem word_of_match {w : Word} {op : BitVec 8} {nm vm : BitVec 7} {im : BitVec 32}
    (h : w &&& parts 0xFF#8 1#1 nm 1#1 vm 0xFF#8 im = parts op 0#1 0#7 0#1 0#7 0#8 0#32) :
    w = layout op (w.extractLsb' 48 7) (w.extractLsb' 40 7) (w.extractLsb' 0 32) ∧
      w.extractLsb' 48 7 &&& nm = 0#7 ∧ w.extractLsb' 40 7 &&& vm = 0#7 ∧ w.extractLsb' 0 32 &&& im = 0#32 := by
  obtain ⟨h1, h2, h3, h4, h5, h6, h7⟩ := (and_mask_iff _ _ _ _ _).1 h
  refine ⟨?_, h3, h5, h7⟩
  have hw := parts_of_word w
  rw [layout_eq_parts]
  rw [h1, h2, h4, h6] at hw
  exact hw

/-! ### What a mask that keeps a field says of it -/

theorem noteField_kept (w : Word) : w.extractLsb' 48 7 &&& 0x7F#7 = 0#7 ↔ field w 54 48 = 0 := by
  rw [show 0x7F#7 = BitVec.allOnes 7 by decide, BitVec.and_allOnes, ← BitVec.toNat_inj]; rfl

theorem velField_kept (w : Word) : w.extractLsb' 40 7 &&& 0x7F#7 = 0#7 ↔ field w 46 40 = 0 := by
  rw [show 0x7F#7 = BitVec.allOnes 7 by decide, BitVec.and_allOnes, ← BitVec.toNat_inj]; rfl

theorem imm_kept (w : Word) : w.extractLsb' 0 32 &&& 0xFFFFFFFF#32 = 0#32 ↔ field w 31 0 = 0 := by
  rw [show 0xFFFFFFFF#32 = BitVec.allOnes 32 by decide, BitVec.and_allOnes, ← BitVec.toNat_inj]; rfl

/-- IMM but for bit 0, as FMT_B keeps it (R69). -/
theorem imm_high_kept (w : Word) : w.extractLsb' 0 32 &&& 0xFFFFFFFE#32 = 0#32 ↔ field w 31 1 = 0 := by
  have e : w.extractLsb' 0 32 = (w.extractLsb' 1 31 ++ w.extractLsb' 0 1 : BitVec 32) := by
    apply BitVec.eq_of_toNat_eq
    rw [BitVec.toNat_append, ← Nat.shiftLeft_add_eq_or_of_lt (BitVec.isLt _)]
    simp only [BitVec.extractLsb'_toNat, Nat.shiftRight_eq_div_pow, Nat.shiftLeft_eq]
    omega
  rw [show 0xFFFFFFFE#32 = (BitVec.allOnes 31 ++ 0#1 : BitVec 32) by decide, e, BitVec.and_append,
    BitVec.and_allOnes, ← BitVec.toNat_inj, BitVec.toNat_append]
  simp [field]

/-! ### The decoder, from the fields (R75) -/

/-- The lookup uses the OP field alone. -/
theorem rowOf_eq {w : Word} {k : Nat} (h : field w 63 56 = k) :
    rowOf w = opcodeTable.find? fun r => field r.matchWord 63 56 == k := by
  unfold rowOf; rw [h]

theorem rowOf_mem {w : Word} {r : Row} (h : rowOf w = some r) :
    r ∈ opcodeTable ∧ field r.matchWord 63 56 = field w 63 56 := by
  unfold rowOf at h
  exact ⟨List.mem_of_find?_eq_some h, by simpa using List.find?_some h⟩

/-- Every row's mask keeps all of OP. -/
theorem op_of_match {r : Row} (hr : r ∈ opcodeTable) {w : Word} (h : w &&& r.mask = r.matchWord) :
    field w 63 56 = field r.matchWord 63 56 := by
  have hm : ∀ r ∈ opcodeTable, r.mask.extractLsb' 56 8 = BitVec.allOnes 8 := by decide
  rw [← h]
  unfold field
  rw [show 63 + 1 - 56 = 8 from rfl, BitVec.extractLsb'_and, hm r hr, BitVec.and_allOnes]

/-- Rows are told apart by OP. -/
theorem row_eq_of_op {r r' : Row} (hr : r ∈ opcodeTable) (hr' : r' ∈ opcodeTable)
    (h : field r.matchWord 63 56 = field r'.matchWord 63 56) : r = r' := by
  have h1 : ∀ r ∈ opcodeTable, ∀ r' ∈ opcodeTable,
      field r.matchWord 63 56 = field r'.matchWord 63 56 → r = r' := by decide
  exact h1 r hr r' hr' h

theorem rowOf_of_mem {r : Row} (hr : r ∈ opcodeTable) {w : Word}
    (h : field w 63 56 = field r.matchWord 63 56) : rowOf w = some r := by
  cases h1 : rowOf w with
  | none =>
    unfold rowOf at h1
    have := List.find?_eq_none.1 h1 r hr
    simp [h] at this
  | some r' =>
    obtain ⟨hm, ho⟩ := rowOf_mem h1
    rw [row_eq_of_op hm hr (ho.trans h)]

/-- A word decodes to a command exactly through a row that it matches (R74, R75). -/
theorem decode_ok_iff (w : Word) (i : Instr) :
    decode w = .ok i ↔ ∃ r ∈ opcodeTable, w &&& r.mask = r.matchWord ∧ i = r.op.assemble w := by
  unfold decode
  constructor
  · intro h
    split at h
    · simp at h
    · rename_i r hr
      split at h
      · rename_i hm
        exact ⟨r, (rowOf_mem hr).1, hm, by simpa using h.symm⟩
      · simp at h
  · rintro ⟨r, hr, hm, rfl⟩
    rw [rowOf_of_mem hr (op_of_match hr hm)]
    simp [hm]

/-! ### The byte transport (R51, R52) -/

theorem wordOfBytes_toNat (b0 b1 b2 b3 b4 b5 b6 b7 : Byte) :
    (wordOfBytes b0 b1 b2 b3 b4 b5 b6 b7).toNat =
      b0.toNat + b1.toNat * 2 ^ 8 + b2.toNat * 2 ^ 16 + b3.toNat * 2 ^ 24 + b4.toNat * 2 ^ 32 +
        b5.toNat * 2 ^ 40 + b6.toNat * 2 ^ 48 + b7.toNat * 2 ^ 56 := by
  unfold wordOfBytes
  have h0 := b0.isLt; have h1 := b1.isLt; have h2 := b2.isLt; have h3 := b3.isLt
  have h4 := b4.isLt; have h5 := b5.isLt; have h6 := b6.isLt; have h7 := b7.isLt
  erw [BitVec.toNat_append, BitVec.toNat_append, BitVec.toNat_append, BitVec.toNat_append,
    BitVec.toNat_append, BitVec.toNat_append, BitVec.toNat_append]
  rw [← Nat.shiftLeft_add_eq_or_of_lt, ← Nat.shiftLeft_add_eq_or_of_lt, ← Nat.shiftLeft_add_eq_or_of_lt,
    ← Nat.shiftLeft_add_eq_or_of_lt, ← Nat.shiftLeft_add_eq_or_of_lt, ← Nat.shiftLeft_add_eq_or_of_lt,
    ← Nat.shiftLeft_add_eq_or_of_lt]
  · simp only [Nat.shiftLeft_eq]; omega
  all_goals omega

theorem bytesOfWord_eq (w : Word) :
    bytesOfWord w = [w.extractLsb' 0 8, w.extractLsb' 8 8, w.extractLsb' 16 8, w.extractLsb' 24 8,
      w.extractLsb' 32 8, w.extractLsb' 40 8, w.extractLsb' 48 8, w.extractLsb' 56 8] := rfl

/-- The bytes of a word, put together again, are the word. -/
theorem wordOfBytes_bytesOfWord (w : Word) :
    wordOfBytes (w.extractLsb' 0 8) (w.extractLsb' 8 8) (w.extractLsb' 16 8) (w.extractLsb' 24 8)
      (w.extractLsb' 32 8) (w.extractLsb' 40 8) (w.extractLsb' 48 8) (w.extractLsb' 56 8) = w := by
  apply BitVec.eq_of_toNat_eq
  rw [wordOfBytes_toNat]
  have := w.isLt
  simp only [BitVec.extractLsb'_toNat, Nat.shiftRight_eq_div_pow]
  omega

end Sys2Proof
end

