-- ==== Sys2Proof/Laws/Exec.lean ====
section
/-! SUPPORT. What each command answers: one inversion lemma per setter, the results of the others in the
state's own fields, and what no command writes. -/

namespace Sys2Proof.Machine

/-! ### The setters (R111, R118 to R121, R134, R188) -/

theorem execSetAttack_next {imm : BitVec 32} {s t : State} (h : exec (.setAttack imm) s = .next t) :
    (∃ x, sanTime s.fmt s.cfg.nanPolicy (s.fmt.toFLT imm) = some x ∧ t = { s with attack := x, cp := s.cp + 1 }) ∨
      (sanTime s.fmt s.cfg.nanPolicy (s.fmt.toFLT imm) = none ∧ t = s.refuse (.word (encode (.setAttack imm))) .nanPayload) := by
  simp only [exec, execSetAttack] at h
  exact finishSetter_next h

theorem execSetDecay_next {imm : BitVec 32} {s t : State} (h : exec (.setDecay imm) s = .next t) :
    (∃ x, sanTime s.fmt s.cfg.nanPolicy (s.fmt.toFLT imm) = some x ∧ t = { s with decay := x, cp := s.cp + 1 }) ∨
      (sanTime s.fmt s.cfg.nanPolicy (s.fmt.toFLT imm) = none ∧ t = s.refuse (.word (encode (.setDecay imm))) .nanPayload) := by
  simp only [exec, execSetDecay] at h
  exact finishSetter_next h

theorem execSetSustain_next {imm : BitVec 32} {s t : State} (h : exec (.setSustain imm) s = .next t) :
    (∃ x, sanUnit s.fmt s.cfg.nanPolicy (s.fmt.toFLT imm) = some x ∧ t = { s with sustain := x, cp := s.cp + 1 }) ∨
      (sanUnit s.fmt s.cfg.nanPolicy (s.fmt.toFLT imm) = none ∧ t = s.refuse (.word (encode (.setSustain imm))) .nanPayload) := by
  simp only [exec, execSetSustain] at h
  exact finishSetter_next h

theorem execSetRelease_next {imm : BitVec 32} {s t : State} (h : exec (.setRelease imm) s = .next t) :
    (∃ x, sanTime s.fmt s.cfg.nanPolicy (s.fmt.toFLT imm) = some x ∧ t = { s with release := x, cp := s.cp + 1 }) ∨
      (sanTime s.fmt s.cfg.nanPolicy (s.fmt.toFLT imm) = none ∧ t = s.refuse (.word (encode (.setRelease imm))) .nanPayload) := by
  simp only [exec, execSetRelease] at h
  exact finishSetter_next h

theorem execSetGlide_next {imm : BitVec 32} {s t : State} (h : exec (.setGlide imm) s = .next t) :
    (∃ x, sanTime s.fmt s.cfg.nanPolicy (s.fmt.toFLT imm) = some x ∧ t = { s with glide := msToS s.fmt x, cp := s.cp + 1 }) ∨
      (sanTime s.fmt s.cfg.nanPolicy (s.fmt.toFLT imm) = none ∧ t = s.refuse (.word (encode (.setGlide imm))) .nanPayload) := by
  simp only [exec, execSetGlide] at h
  exact finishSetter_next h

theorem execSetGain_next {imm : BitVec 32} {s t : State} (h : exec (.setGain imm) s = .next t) :
    (∃ x, sanUnit s.fmt s.cfg.nanPolicy (s.fmt.toFLT imm) = some x ∧ t = { s with gain := x, cp := s.cp + 1 }) ∨
      (sanUnit s.fmt s.cfg.nanPolicy (s.fmt.toFLT imm) = none ∧ t = s.refuse (.word (encode (.setGain imm))) .nanPayload) := by
  simp only [exec, execSetGain] at h
  exact finishSetter_next h

/-! ### The other commands complete whatever the state is -/

theorem exec_noteOn (note vel : Nat) (s : State) :
    exec (.noteOn note vel) s = .next (s.noteOn note vel).advance := rfl

theorem exec_noteOff (note : Nat) (s : State) : exec (.noteOff note) s =
    .next { s with voices := s.voices.map (releaseNote note s.pedal), cp := s.cp + 1 } := rfl

theorem exec_sustainPedal (down : Bool) (s : State) : exec (.sustainPedal down) s =
    .next { s with voices := pedalVoices s.pedal down s.voices, pedal := down, cp := s.cp + 1 } := rfl

theorem exec_setWave (u : Nat) (s : State) :
    exec (.setWave u) s = .next { s with wave := waveOf u, cp := s.cp + 1 } := rfl

theorem exec_setPoly (u : Nat) (s : State) : exec (.setPoly u) s =
    .next { s with voices := resize (clampCap u) s.voices, cp := s.cp + 1 } := rfl

theorem exec_tick (s : State) : exec .tick s = .next s.tickProc.advance := rfl

theorem exec_render (u : Nat) (s : State) : exec (.render u) s = .next (s.ticks u).advance := rfl

/-- A slot after a TICK. -/
theorem exec_tick_slot {s t : State} (h : exec .tick s = .next t) {i : Nat} {v : Voice}
    (hv : s.voices[i]? = some v) : t.voices[i]? = some (tickSlot s v).1 := by
  rw [exec_tick] at h
  cases h
  show s.tickProc.voices[i]? = _
  rw [tickProc_voices_getElem?, hv]; rfl

/-- An active slot after a TICK. -/
theorem tickSlot_active (s : State) {v : Voice} (ha : v.active = true) :
    (tickSlot s v).1 = (stepVoice s v).deactivate s.fmt := by rw [tickSlot_fst, if_pos ha]

/-- The ticks read neither CP nor the host's later moves. -/
theorem ticks_congr (u : Nat) (s : State) (c : Nat) (ms : List HostInput) :
    State.ticks u { s with cp := c, input := ms } = { s.ticks u with cp := c, input := ms } := by
  induction u generalizing s with
  | zero => rfl
  | succ u ih =>
    rw [ticks_succ, show State.tickProc { s with cp := c, input := ms } =
      { s.tickProc with cp := c, input := ms } from rfl, ih, ticks_succ]

/-! ### The step -/

/-- What a step does, said once: nothing with no move sent; a RESET; a word left without effect while STATUS
is Refused; an illegal word's refusal; a command's meaning (R79, R80, R202, R216, R220). -/
theorem step_next {s t : State} (h : step s = .next t) :
    (s.input = [] ∧ t = s) ∨
    (∃ c rest, s.input = .reset c :: rest ∧ t = (s.withInput rest).doReset c) ∨
    ∃ w rest, s.input = .command w :: rest ∧
      ((∃ info r, s.status = .refused info r ∧ t = s.withInput rest) ∨
        (s.status = .running ∧ ∃ r, decode w = .illegal r ∧ t = (s.withInput rest).refuse (.word w) r) ∨
        (s.status = .running ∧ ∃ i, decode w = .ok i ∧ exec i (s.withInput rest) = .next t)) := by
  unfold step at h
  split at h
  · rename_i hi
    cases h
    exact .inl ⟨hi, rfl⟩
  · rename_i c rest hi
    cases h
    exact .inr (.inl ⟨c, rest, hi, rfl⟩)
  · rename_i w rest hi
    refine .inr (.inr ⟨w, rest, hi, ?_⟩)
    split at h
    · rename_i info r hs
      cases h
      exact .inl ⟨info, r, hs, rfl⟩
    · rename_i hs
      split at h
      · rename_i r hd
        cases h
        exact .inr (.inl ⟨hs, r, hd, rfl⟩)
      · rename_i i hd
        exact .inr (.inr ⟨hs, i, hd, h⟩)

/-! ### A run, step by step -/

theorem run_succ {s t : State} (h : step s = .next t) (k : Nat) :
    Sys2Proof.core.run (k + 1) s = Sys2Proof.core.run k t := by
  have h' : Sys2Proof.core.step s = .next t := h
  simp only [Host.Core.run, h']

/-! ### What no command writes -/

/-- No command writes the parameters, SR or DT, nor takes a move of the host. -/
theorem exec_fixed {i : Instr} {s t : State} (h : exec i s = .next t) :
    t.cfg = s.cfg ∧ t.sr = s.sr ∧ t.dt = s.dt ∧ t.input = s.input := by
  cases i with
  | noteOn n v =>
    rw [exec_noteOn, noteOn_rest] at h
    cases h; exact ⟨rfl, rfl, rfl, rfl⟩
  | render u =>
    rw [exec_render, ticks_rest] at h
    cases h; exact ⟨rfl, rfl, rfl, rfl⟩
  | noteOff _ | sustainPedal _ | setWave _ | setPoly _ | tick => cases h; exact ⟨rfl, rfl, rfl, rfl⟩
  | setAttack _ => rcases execSetAttack_next h with ⟨_, _, rfl⟩ | ⟨_, rfl⟩ <;> exact ⟨rfl, rfl, rfl, rfl⟩
  | setDecay _ => rcases execSetDecay_next h with ⟨_, _, rfl⟩ | ⟨_, rfl⟩ <;> exact ⟨rfl, rfl, rfl, rfl⟩
  | setSustain _ => rcases execSetSustain_next h with ⟨_, _, rfl⟩ | ⟨_, rfl⟩ <;> exact ⟨rfl, rfl, rfl, rfl⟩
  | setRelease _ => rcases execSetRelease_next h with ⟨_, _, rfl⟩ | ⟨_, rfl⟩ <;> exact ⟨rfl, rfl, rfl, rfl⟩
  | setGlide _ => rcases execSetGlide_next h with ⟨_, _, rfl⟩ | ⟨_, rfl⟩ <;> exact ⟨rfl, rfl, rfl, rfl⟩
  | setGain _ => rcases execSetGain_next h with ⟨_, _, rfl⟩ | ⟨_, rfl⟩ <;> exact ⟨rfl, rfl, rfl, rfl⟩

end Sys2Proof.Machine
end

