-- ==== Sys2Proof/Laws/PerInstr.lean ====
section
/-! SUPPORT. The per-instruction family EncodedWordMatchesRow: the word of every command matches its own
row of the opcode table, match under mask (R74), so no operand reaches a reserved bit (R77). -/

namespace Sys2Proof

/-- The table's row for a command (R73, R74). -/
def Instr.row : Instr → Row
  | .noteOn _ _ => ⟨.noteOn, 0x0100000000000000#64, 0xFF8080FFFFFFFFFF#64⟩
  | .noteOff _ => ⟨.noteOff, 0x0200000000000000#64, 0xFF80FFFFFFFFFFFF#64⟩
  | .sustainPedal _ => ⟨.sustainPedal, 0x0300000000000000#64, 0xFFFFFFFFFFFFFFFE#64⟩
  | .setWave _ => ⟨.setWave, 0x1000000000000000#64, 0xFFFFFFFF00000000#64⟩
  | .setAttack _ => ⟨.setAttack, 0x1100000000000000#64, 0xFFFFFFFF00000000#64⟩
  | .setDecay _ => ⟨.setDecay, 0x1200000000000000#64, 0xFFFFFFFF00000000#64⟩
  | .setSustain _ => ⟨.setSustain, 0x1300000000000000#64, 0xFFFFFFFF00000000#64⟩
  | .setRelease _ => ⟨.setRelease, 0x1400000000000000#64, 0xFFFFFFFF00000000#64⟩
  | .setGlide _ => ⟨.setGlide, 0x1500000000000000#64, 0xFFFFFFFF00000000#64⟩
  | .setGain _ => ⟨.setGain, 0x1600000000000000#64, 0xFFFFFFFF00000000#64⟩
  | .setPoly _ => ⟨.setPoly, 0x1700000000000000#64, 0xFFFFFFFF00000000#64⟩
  | .tick => ⟨.tick, 0x2000000000000000#64, 0xFFFFFFFFFFFFFFFF#64⟩
  | .render _ => ⟨.render, 0x2100000000000000#64, 0xFFFFFFFF00000000#64⟩

theorem Instr.row_mem (i : Instr) : i.row ∈ opcodeTable := by
  cases i <;> simp [Instr.row, opcodeTable]

namespace Laws

/-- The encoded word, under its row's mask, is its row's match word, whatever the operands. -/
def EncodedWordMatchesRow.Statement (i : Instr) : Prop := encode i &&& i.row.mask = i.row.matchWord

theorem EncodedWordMatchesRow.noteOn (note vel : Nat) :
    EncodedWordMatchesRow.Statement (.noteOn note vel) :=
  layout_and 0x01#8 (BitVec.ofNat 7 note) (BitVec.ofNat 7 vel) 0#32 0#7 0#7 0xFFFFFFFF#32 (by simp) (by simp) (by simp)

theorem EncodedWordMatchesRow.noteOff (note : Nat) :
    EncodedWordMatchesRow.Statement (.noteOff note) :=
  layout_and 0x02#8 (BitVec.ofNat 7 note) 0#7 0#32 0#7 0x7F#7 0xFFFFFFFF#32 (by simp) (by simp) (by simp)

theorem EncodedWordMatchesRow.sustainPedal (down : Bool) :
    EncodedWordMatchesRow.Statement (.sustainPedal down) :=
  layout_and 0x03#8 0#7 0#7 (if down then 1#32 else 0#32) 0x7F#7 0x7F#7 0xFFFFFFFE#32 (by simp) (by simp) (by cases down <;> decide)

theorem EncodedWordMatchesRow.setWave (u : Nat) :
    EncodedWordMatchesRow.Statement (.setWave u) :=
  layout_and 0x10#8 0#7 0#7 (BitVec.ofNat 32 u) 0x7F#7 0x7F#7 0#32 (by simp) (by simp) (by simp)

theorem EncodedWordMatchesRow.setAttack (imm : BitVec 32) :
    EncodedWordMatchesRow.Statement (.setAttack imm) :=
  layout_and 0x11#8 0#7 0#7 imm 0x7F#7 0x7F#7 0#32 (by simp) (by simp) (by simp)

theorem EncodedWordMatchesRow.setDecay (imm : BitVec 32) :
    EncodedWordMatchesRow.Statement (.setDecay imm) :=
  layout_and 0x12#8 0#7 0#7 imm 0x7F#7 0x7F#7 0#32 (by simp) (by simp) (by simp)

theorem EncodedWordMatchesRow.setSustain (imm : BitVec 32) :
    EncodedWordMatchesRow.Statement (.setSustain imm) :=
  layout_and 0x13#8 0#7 0#7 imm 0x7F#7 0x7F#7 0#32 (by simp) (by simp) (by simp)

theorem EncodedWordMatchesRow.setRelease (imm : BitVec 32) :
    EncodedWordMatchesRow.Statement (.setRelease imm) :=
  layout_and 0x14#8 0#7 0#7 imm 0x7F#7 0x7F#7 0#32 (by simp) (by simp) (by simp)

theorem EncodedWordMatchesRow.setGlide (imm : BitVec 32) :
    EncodedWordMatchesRow.Statement (.setGlide imm) :=
  layout_and 0x15#8 0#7 0#7 imm 0x7F#7 0x7F#7 0#32 (by simp) (by simp) (by simp)

theorem EncodedWordMatchesRow.setGain (imm : BitVec 32) :
    EncodedWordMatchesRow.Statement (.setGain imm) :=
  layout_and 0x16#8 0#7 0#7 imm 0x7F#7 0x7F#7 0#32 (by simp) (by simp) (by simp)

theorem EncodedWordMatchesRow.setPoly (u : Nat) :
    EncodedWordMatchesRow.Statement (.setPoly u) :=
  layout_and 0x17#8 0#7 0#7 (BitVec.ofNat 32 u) 0x7F#7 0x7F#7 0#32 (by simp) (by simp) (by simp)

theorem EncodedWordMatchesRow.tick :
    EncodedWordMatchesRow.Statement (.tick) :=
  layout_and 0x20#8 0#7 0#7 0#32 0x7F#7 0x7F#7 0xFFFFFFFF#32 (by simp) (by simp) (by simp)

theorem EncodedWordMatchesRow.render (u : Nat) :
    EncodedWordMatchesRow.Statement (.render u) :=
  layout_and 0x21#8 0#7 0#7 (BitVec.ofNat 32 u) 0x7F#7 0x7F#7 0#32 (by simp) (by simp) (by simp)

end Laws

end Sys2Proof
end

