-- ==== Sys2Proof/Tests/Slice0.lean ====
section
/-! SUPPORT. Tests: words written out from the encodings of R65 to R74, single steps on small states with
the expected values of spec/95_test_vectors.md (its vector is named), and for every obligation with
hypotheses a state and operands that meet them (witness_<obligation>). -/

namespace Sys2Proof.Tests

open Sys2Proof Sys2Proof.Machine

-- One theorem at a time: a `decide +kernel` waits for every declaration before it, in a thread of its own.
set_option Elab.async false

/-! ### Helpers -/

/-- The default FLT, in which the vectors are given. -/
abbrev b32 : FltFormat := FltFormat.binary32

/-- The value of a binary32 pattern. -/
abbrev f32 (b : BitVec 32) : Flt := Flt.ofBits32 b

/-- The state an outcome leaves, if it is a next state. -/
def after (o : Host.Outcome State Fault Refusal) : Option State :=
  match o with
  | .next t => some t
  | _ => none

/-- The reference configuration REF of 95_test_vectors.md with these slots: SR 1024, DT 2^-10, saw, attack
2^-7, decay 2^-6, sustain 0.5, release 2^-8, glide off, gain 1.0. -/
def ref (vs : List Voice) : State :=
  { State.reset with
    voices := vs
    wave := .saw
    attack := f32 0x3C000000#32
    decay := f32 0x3C800000#32
    sustain := f32 0x3F000000#32
    release := f32 0x3B800000#32
    glide := f32 0#32
    gain := f32 0x3F800000#32
    sr := f32 0x44800000#32
    dt := f32 0x3A800000#32 }

/-- A voice sounding at velocity 1.0 with its key down. -/
def sounding (note : BitVec 7) (f env phase : BitVec 32) : Voice :=
  { note := note, active := true, keyDown := true, gate := true, freqTarget := f32 f,
    freqCurrent := f32 f, env := f32 env, phase := f32 phase, velocity := f32 0x3F800000#32 }

/-- The same after its key went up. -/
def releasing (note : BitVec 7) (f env phase : BitVec 32) : Voice :=
  { sounding note f env phase with keyDown := false, gate := false }

/-- Slot 0 plays A4 (note 69, 440 Hz) at envelope 0.25; slot 1 is free. -/
def playing : State := ref [sounding 69#7 0x43DC0000#32 0x3E800000#32 0#32, Voice.reset]

/-- Both slots play, note 60 at envelope 0.25 and note 64 at 0.125. -/
def full : State :=
  ref [sounding 60#7 0x4382D012#32 0x3E800000#32 0#32, sounding 64#7 0x43A4D054#32 0x3E000000#32 0#32]

/-- The state with one command word sent. -/
def sent (s : State) (w : Word) : State := { s with input := [.command w] }

/-! ### WellFormed refuses an operand outside its field (R81) -/

theorem test_wf_refuses_note_128 : (Instr.noteOn 128 0).wf = false := by decide
theorem test_wf_refuses_vel_128 : (Instr.noteOn 0 128).wf = false := by decide
theorem test_wf_refuses_note_off_128 : (Instr.noteOff 128).wf = false := by decide
theorem test_wf_refuses_wide_wave : (Instr.setWave 4294967296).wf = false := by decide
theorem test_wf_refuses_wide_poly : (Instr.setPoly 4294967296).wf = false := by decide
theorem test_wf_refuses_wide_render : (Instr.render 4294967296).wf = false := by decide

/-! ### Decoding: each constructor from a word written out from R65, R66, R73 (R83, section 2) -/

theorem test_decode_noteOn : decode 0x013C640000000000#64 = .ok (.noteOn 60 100) := by decide
theorem test_decode_noteOn_max : decode 0x017F7F0000000000#64 = .ok (.noteOn 127 127) := by decide
theorem test_decode_noteOff : decode 0x023C000000000000#64 = .ok (.noteOff 60) := by decide
theorem test_decode_sustainPedal : decode 0x0300000000000001#64 = .ok (.sustainPedal true) := by decide
theorem test_decode_setWave : decode 0x10000000FFFFFFFF#64 = .ok (.setWave 4294967295) := by decide
theorem test_decode_setAttack : decode 0x110000003C000000#64 = .ok (.setAttack 0x3C000000#32) := by decide
theorem test_decode_setDecay : decode 0x120000003C800000#64 = .ok (.setDecay 0x3C800000#32) := by decide
theorem test_decode_setSustain : decode 0x130000003F000000#64 = .ok (.setSustain 0x3F000000#32) := by decide
theorem test_decode_setRelease : decode 0x140000003B800000#64 = .ok (.setRelease 0x3B800000#32) := by decide
theorem test_decode_setGlide : decode 0x15000000407A0000#64 = .ok (.setGlide 0x407A0000#32) := by decide
theorem test_decode_setGain : decode 0x160000003F800000#64 = .ok (.setGain 0x3F800000#32) := by decide
theorem test_decode_setPoly : decode 0x1700000000000008#64 = .ok (.setPoly 8) := by decide
theorem test_decode_tick : decode 0x2000000000000000#64 = .ok .tick := by decide
theorem test_decode_render : decode 0x2100000000000064#64 = .ok (.render 100) := by decide

/-- The refused words of section 2. -/
theorem test_decode_refuses_reserved_bits :
    ([0x0180000000000000#64, 0x0100800000000000#64, 0x0100000100000000#64, 0x023C010000000000#64,
      0x0300000000000002#64, 0x10000001FFFFFFFF#64, 0x2000000000000001#64, 0x2100000100000000#64].all
        fun w => decode w = .illegal .reservedBitNonZero) = true := by decide

theorem test_decode_refuses_unassigned :
    ([0x0000000000000000#64, 0x0480000000000000#64, 0x2200000000000000#64, 0xFF00000000000000#64].all
        fun w => decode w = .illegal .unassignedOpcode) = true := by decide

theorem test_encode_noteOn : encode (.noteOn 69 127) = 0x01457F0000000000#64 := by decide
theorem test_encode_sustainPedal : encode (.sustainPedal true) = 0x0300000000000001#64 := by decide
theorem test_encode_render : encode (.render 4294967295) = 0x21000000FFFFFFFF#64 := by decide

/-- R51: NOTE_ON 60, 100 as bytes, least significant first. -/
theorem test_bytes_of_word :
    bytesOfWord 0x013C640000000000#64 = [0#8, 0#8, 0#8, 0#8, 0#8, 0x64#8, 0x3C#8, 0x01#8] := by decide

theorem test_decodeTableWord_noteOn : decodeTableWord 64 0x013C640000000000 = some (.noteOn 60 100) := by decide
theorem test_decodeTableWord_refused : decodeTableWord 64 0x0180000000000000 = none := by decide

/-! ### The assembler (R81 to R83) -/

theorem test_assemble_lines : assemble "NOTE_ON 60, 100\nRENDER 0x64 ; one hundred".toList =
    some [0x013C640000000000#64, 0x2100000000000064#64] := by decide +kernel
theorem test_assemble_floats : assemble "SET_ATTACK -1.0\nSET_GLIDE 3.90625\nSET_GAIN f:0x7FC00000".toList =
    some [0x11000000BF800000#64, 0x15000000407A0000#64, 0x160000007FC00000#64] := by decide +kernel
theorem test_assemble_refuses_outside_fields :
    assembleLine "NOTE_ON 1, 128".toList = none ∧ assembleLine "SUSTAIN_PEDAL 2".toList = none ∧
      assembleLine "RENDER 4294967296".toList = none ∧
      assembleLine "RENDER 4294967295".toList = some [.render 4294967295] := by decide +kernel
theorem test_assemble_refuses_note_128 : assemble "NOTE_ON 128, 1".toList = none := by decide +kernel

/-! ### Numbers (R14, R15, R130, R150) -/

/-- The patterns R10 and R16 give: 0.005, 1e-6 and PI. -/
theorem test_binary32_constants :
    b32.attackDefault = f32 0x3BA3D70A#32 ∧ b32.tauMix = f32 0x3BA3D70A#32 ∧
      b32.glideEps = f32 0x358637BD#32 ∧ b32.pi = f32 0x40490FDB#32 := by decide +kernel
/-- 1/48000 (S8). -/
theorem test_div_rounds : b32.div b32.one (b32.ofNat 48000) = f32 0x37AEC33E#32 := by decide +kernel
/-- E16: a division that overflows. -/
theorem test_div_overflows : b32.div (f32 0x3A800000#32) (f32 1#32) = b32.posInf := by decide +kernel
/-- 1/127 (section 6). -/
theorem test_velscale : VELSCALE b32 1 = f32 0x3C010204#32 := by decide +kernel
/-- Section 5: FREQ 21 is 27.5. -/
theorem test_freq : FREQ b32 21 = f32 0x41DC0000#32 := by decide +kernel
/-- Section 3: the saw and the triangle one step below TWO_PI. -/
theorem test_osc_saw : osc b32 .saw (f32 0x40C90FDA#32) = f32 0x3F7FFFFE#32 := by decide +kernel
theorem test_osc_tri : osc b32 .tri (f32 0x40C90FDA#32) = f32 0xBF7FFFFC#32 := by decide +kernel
/-- Section 3: the phase advance that wraps, from TWO_PI - 0.1. -/
theorem test_phase_wraps :
    wrapPhase b32 (b32.add (f32 0x40C5DCA8#32) (phaseInc b32 (f32 0x44800000#32) (f32 0x43DC0000#32))) =
      f32 0x4026633A#32 := by
  decide +kernel

/-! ### Another FLT (R9, R16, R51, R70): the block in binary64 -/

abbrev b64 : FltFormat := FltFormat.binary64

/-- The constants are those nearest in the format (R10, R16), and so is VELSCALE (R150). -/
theorem test_binary64_constants :
    b64.pi = ⟨false, 0x400921FB54442D18⟩ ∧ b64.twoPi = ⟨false, 0x401921FB54442D18⟩ ∧
      b64.attackDefault = ⟨false, 0x3F747AE147AE147B⟩ ∧ b64.glideEps = ⟨false, 0x3EB0C6F7A0B5ED8D⟩ ∧
      VELSCALE b64 100 = ⟨false, 0x3FE93264C993264D⟩ := by decide +kernel

/-- The exact widening of 0.1, the least denormal, -inf and a NaN. -/
theorem test_binary64_toFLT :
    b64.toFLT 0x3DCCCCCD#32 = ⟨false, 0x3FB99999A0000000⟩ ∧ b64.toFLT 1#32 = ⟨false, 0x36A0000000000000⟩ ∧
      b64.toFLT 0xFF800000#32 = b64.negInf ∧ b64.isNaN (b64.toFLT 0x7FC00000#32) = true := by decide +kernel

/-- The binary32 encoding of 0.1. -/
theorem test_binary64_sample : b64.toBits32 ⟨false, 0x3FB999999999999A⟩ = 0x3DCCCCCD#32 := by decide +kernel

/-- A binary64 block right after RESET(48000, 2). -/
def wide : State :=
  State.restart ⟨b64.ofNat 48000, 2⟩
    { State.reset with cfg := { Config.default with fmt := b64, mixGainInit := b64.one, defaultGain := b64.one } }

theorem test_binary64_reset :
    wide.sr = ⟨false, 0x40E7700000000000⟩ ∧ wide.dt = ⟨false, 0x3EF5D867C3ECE2A5⟩ ∧
      wide.attack = ⟨false, 0x3F747AE147AE147B⟩ := by decide +kernel

theorem test_binary64_setSustain :
    (after (exec (.setSustain 0x3DCCCCCD#32) wide)).map (fun t => t.sustain) =
      some ⟨false, 0x3FB99999A0000000⟩ := by decide +kernel

theorem test_binary64_noteOn :
    (after (exec (.noteOn 69 127) wide)).map (fun t => t.voices.map fun v => v.freqCurrent) =
      some [⟨false, 0x407B800000000000⟩, Flt.zero] := by decide +kernel

/-! ### One step of each command -/

/-- N1, with note 69: slot 0 is claimed, frequency 440, phase and envelope 0. -/
theorem test_noteOn_claims :
    (after (exec (.noteOn 69 127) (ref [Voice.reset, Voice.reset]))).map (fun t => (t.voices, t.cp)) =
      some ([sounding 69#7 0x43DC0000#32 0#32 0#32, Voice.reset], 1) := by decide +kernel

/-- N3: a retrigger keeps the phase and the slot. -/
theorem test_noteOn_retriggers :
    (after (exec (.noteOn 69 64) (ref [sounding 69#7 0x43DC0000#32 0x3F800000#32 0x3FEEC2D4#32, Voice.reset]))).map
        (fun t => t.voices) =
      some [{ sounding 69#7 0x43DC0000#32 0#32 0x3FEEC2D4#32 with velocity := f32 0x3F010204#32 }, Voice.reset] := by
  decide +kernel

/-- Program P3's steal, with note 69: slot 1 (the lower envelope) is taken. -/
theorem test_noteOn_steals_lowest :
    (after (exec (.noteOn 69 127) full)).map (fun t => t.voices.map fun v => v.note) = some [60#7, 69#7] := by
  decide +kernel

/-- N6: a tie goes to slot 0. -/
theorem test_noteOn_tie_takes_first :
    stealIndex b32 [sounding 60#7 0#32 0#32 0#32, sounding 64#7 0#32 0#32 0#32] = 0 := by decide

/-- R156: key and gate go, the envelope stays. -/
theorem test_noteOff_releases :
    (after (exec (.noteOff 69) playing)).map (fun t => t.voices) =
      some [releasing 69#7 0x43DC0000#32 0x3E800000#32 0#32, Voice.reset] := by decide

/-- N9: under the pedal the gate stays. -/
theorem test_noteOff_under_pedal :
    (after (exec (.noteOff 69) { playing with pedal := true })).map
      (fun t => t.voices.map fun v => (v.keyDown, v.gate)) = some [(false, true), (false, false)] := by decide

/-- N10: releasing the pedal clears the gate of the slot whose key is up, and no other. -/
theorem test_sustainPedal_releases :
    (after (exec (.sustainPedal false)
      { ref [{ sounding 60#7 0#32 0#32 0#32 with keyDown := false }, sounding 64#7 0#32 0#32 0#32]
        with pedal := true })).map
      (fun t => (t.pedal, t.voices.map fun v => v.gate)) = some (false, [false, true]) := by decide

/-- N11: a repeated release of the pedal touches no slot. -/
theorem test_sustainPedal_repeated_up :
    (after (exec (.sustainPedal false) (ref [{ sounding 60#7 0#32 0#32 0#32 with keyDown := false }]))).map
      (fun t => t.voices.map fun v => v.gate) = some [true] := by decide

/-- O6, O7: the selector, and a value above 3. -/
theorem test_setWave_tri : (after (exec (.setWave 3) playing)).map (fun t => t.wave) = some .tri := by decide
theorem test_setWave_above_3 : (after (exec (.setWave 4294967295) playing)).map (fun t => t.wave) = some .sine := by
  decide

/-- Section 4: -1.0 gives +0.0; E17 under each NAN_POLICY. -/
theorem test_setAttack_negative :
    (after (exec (.setAttack 0xBF800000#32) playing)).map (fun t => (t.attack, t.cp)) = some (Flt.zero, 1) := by
  decide
theorem test_setAttack_nan_refused :
    (after (exec (.setAttack 0x7FC00000#32)
      { State.reset with cfg := { Config.default with nanPolicy := .refuse } })).map
        (fun t => (t.attack, t.cp, t.status)) =
      some ((f32 0x3BA3D70A#32), 0, .refused (.word 0x110000007FC00000#64) .nanPayload) := by decide +kernel

/-- Section 4: 2^-149 is kept, and so is +inf. -/
theorem test_setDecay_denormal : (after (exec (.setDecay 1#32) playing)).map (fun t => t.decay) = some (f32 1#32) := by
  decide
theorem test_setRelease_inf :
    (after (exec (.setRelease 0x7F800000#32) playing)).map (fun t => t.release) = some b32.posInf := by decide
/-- Section 4: 2.0 as a level is 1.0. -/
theorem test_setSustain_above_one :
    (after (exec (.setSustain 0x40000000#32) playing)).map (fun t => t.sustain) = some b32.one := by decide
/-- G14: 50 ms. -/
theorem test_setGlide_ms :
    (after (exec (.setGlide 0x42480000#32) playing)).map (fun t => t.glide) = some (f32 0x3D4CCCCD#32) := by
  decide +kernel
/-- Section 4: 2^-149 ms underflows to +0.0. -/
theorem test_setGlide_underflows :
    (after (exec (.setGlide 1#32) playing)).map (fun t => t.glide) = some Flt.zero := by decide +kernel
/-- M10. -/
theorem test_setGain_negative :
    (after (exec (.setGain 0xBF800000#32) playing)).map (fun t => t.gain) = some Flt.zero := by decide

/-- N12, N13: clamped below to 1 and above to 32; what is dropped is the end. -/
theorem test_setPoly_zero :
    (after (exec (.setPoly 0) full)).map (fun t => t.voices.map fun v => v.note) = some [60#7] := by decide
theorem test_setPoly_above_32 :
    (after (exec (.setPoly 4294967295) full)).map (fun t => (t.cap, t.voices[31]?)) = some (32, some Voice.reset) := by
  decide

/-- Program P1, tick 1: the sample is taken before the phase advance, with the new envelope. -/
theorem test_tick_first :
    (after (exec .tick (ref [sounding 69#7 0x43DC0000#32 0#32 0#32, Voice.reset]))).map
        (fun t => (t.out, t.voices, t.mix, t.cp)) =
      some ([f32 0xBE000000#32], [sounding 69#7 0x43DC0000#32 0x3E000000#32 0x402CC9A0#32, Voice.reset], b32.one, 1) := by
  decide +kernel

/-- M11: the tick that ends a release deactivates the slot and emits +0.0. -/
theorem test_tick_deactivates :
    (after (exec .tick (ref [releasing 69#7 0x43DC0000#32 0x3E800000#32 0x406B9E94#32]))).map
        (fun t => (t.out, t.voices.map fun v => (v.active, v.env, v.phase))) =
      some ([Flt.zero], [(false, Flt.zero, (f32 0x3DC90FC0#32))]) := by decide +kernel

/-- G1: a glide from 20 to 440 Hz with coefficient 0.25 steps to 125. -/
theorem test_tick_glides :
    glideNext { playing with glide := f32 0x3B800000#32 } (f32 0x43DC0000#32) (f32 0x41A00000#32) = f32 0x42FA0000#32 := by
  decide +kernel

/-- E18: a rounded decay step. -/
theorem test_env_decay_rounds :
    envNext { playing with sustain := f32 0x3F7D70A4#32 } true b32.one = f32 0x3F7FD70A#32 := by decide +kernel

/-- Program P1: RENDER 10 is one command and ten samples. -/
theorem test_render_ten :
    (after (exec (.render 10) (ref [sounding 69#7 0x43DC0000#32 0#32 0#32, Voice.reset]))).map
        (fun t => (t.out.map Flt.bits32, t.cp)) =
      some ([0xBE000000#32, 0xBD100000#32, 0x3E8A0000#32, 0xBE580002#32, 0x3E8BFFFE#32, 0xBF070002#32,
        0x3E0BFFF9#32, 0xBF7C0002#32, 0xBDF80010#32, 0x3F3BFFFE#32], 1) := by decide +kernel

/-- M6: two voices at once exceed 1 until MIX has come down. -/
theorem test_render_overshoots :
    (after (exec (.render 3) { ref [sounding 60#7 0x4382D012#32 0#32 0#32, sounding 64#7 0x43A4D054#32 0#32 0#32]
        with attack := Flt.zero })).map (fun t => (t.out.map Flt.bits32, t.mix)) =
      some ([0xBFEB15C0#32, 0xBF3228E2#32, 0x3E7B5158#32], (f32 0x3F4AF2EE#32)) := by decide +kernel

/-- M7: with OUTPUT_CLAMP the first of them is -1.0. -/
theorem test_output_clamps :
    clampOut b32 true (f32 0xBFEB15C0#32) = b32.negOne := by decide

/-! ### The step -/

/-- Z1: RESET(1024, 2). -/
theorem test_reset :
    (after (step { full with input := [.reset ⟨(f32 0x44800000#32), 2⟩] })).map
        (fun t => (t.dt, t.voices, t.attack, t.mix, t.cp)) =
      some ((f32 0x3A800000#32), [Voice.reset, Voice.reset], (f32 0x3BA3D70A#32), b32.one, 0) := by decide +kernel

/-- Z2: CAP0 is clamped. -/
theorem test_reset_clamps : clampCap 0 = 1 ∧ clampCap (-5) = 1 ∧ clampCap 100 = 32 ∧ clampCap 8 = 8 := by decide

/-- Z3: RESET(-48000, 8). -/
theorem test_reset_refused :
    (after (step { full with input := [.reset ⟨(f32 0xC73B8000#32), 8⟩] })).map (fun t => (t.status, t.voices.length)) =
      some (.refused (.config ⟨(f32 0xC73B8000#32), 8⟩) .badResetConfig, 2) := by decide +kernel

/-- Program P5: a word with reserved bits set is refused. -/
theorem test_step_refuses :
    (after (step (sent playing 0x023C010000000000#64))).map (fun t => (t.status, t.cp, t.voices)) =
      some (.refused (.word 0x023C010000000000#64) .reservedBitNonZero, 0, playing.voices) := by decide +kernel

/-- `withFetchWord` puts a word where the next step takes it, after reset. -/
theorem test_withFetchWord :
    (after (step (State.reset.withFetchWord 64 0x1700000000000001))).map (fun t => (t.cap, t.cp)) = some (1, 1) := by
  decide +kernel

/-! ### Witnesses: states and operands that meet the hypotheses of each obligation

Where the only hypothesis is that a command or a step answers a next state, the witness names a state in
which it does. -/

theorem playing_inv : Inv playing where
  cap_pos := by decide
  cap_max := by decide
  voices := by
    intro v hv
    simp only [playing, ref, List.mem_cons, List.not_mem_nil, or_false] at hv
    rcases hv with rfl | rfl <;> constructor <;> decide
  unique := by decide
  params := by constructor <;> decide +kernel
  config := by constructor <;> decide

theorem full_inv : Inv full where
  cap_pos := by decide
  cap_max := by decide
  voices := by
    intro v hv
    simp only [full, ref, List.mem_cons, List.not_mem_nil, or_false] at hv
    rcases hv with rfl | rfl <;> constructor <;> decide
  unique := by decide
  params := by constructor <;> decide +kernel
  config := by constructor <;> decide

theorem playing_pitchInv : PitchInv playing where
  voices := by
    intro v hv
    simp only [playing, ref, List.mem_cons, List.not_mem_nil, or_false] at hv
    rcases hv with rfl | rfl <;> exact ⟨by decide, by decide, by decide, .inr (by decide)⟩
  glide := by decide
  config := by decide
  sr := by decide +kernel
  dt := by decide +kernel

theorem playing_mixInv : MixInv playing := ⟨by decide, by decide +kernel⟩

theorem playing_tunedInv : TunedInv playing := by
  intro v hv
  simp only [playing, ref, List.mem_cons, List.not_mem_nil, or_false] at hv
  rcases hv with rfl | rfl <;> exact ⟨by decide, by decide, by decide, by decide⟩

theorem witness_DecodeOfEncodeIsInstr :
    (Instr.noteOn 127 127).wf = true ∧ (Instr.noteOn 0 0).wf = true ∧ (Instr.noteOff 127).wf = true ∧
      (Instr.sustainPedal true).wf = true ∧ (Instr.setAttack 0xFFFFFFFF#32).wf = true ∧
      (Instr.setWave 4294967295).wf = true ∧ (Instr.setPoly 4294967295).wf = true ∧ Instr.tick.wf = true ∧
      (Instr.render 4294967295).wf = true := by decide

theorem witness_EncodeOfDecodedIsWord : decode 0x01457F0000000000#64 = .ok (.noteOn 69 127) := by decide

theorem witness_MatchAndMaskSelectTheCommand :
    (⟨.noteOn, 0x0100000000000000#64, 0xFF8080FFFFFFFFFF#64⟩ : Row) ∈ opcodeTable ∧
      0x017F7F0000000000#64 &&& 0xFF8080FFFFFFFFFF#64 = 0x0100000000000000#64 := by decide

/-- Each range of unassigned opcodes at both ends, and its neighbours. -/
theorem witness_UnassignedOpcodesAreIllegal :
    ([0x0000000000000000#64, 0x0400000000000000#64, 0x0F00000000000000#64, 0x1800000000000000#64,
      0x1F00000000000000#64, 0x2200000000000000#64, 0xFF00000000000000#64].all
        fun w => decode w = .illegal .unassignedOpcode) = true ∧
    ([0x0100000000000000#64, 0x0300000000000000#64, 0x1000000000000000#64, 0x1700000000000000#64,
      0x2000000000000000#64, 0x2100000000000000#64].all
        fun w => decode w ≠ .illegal .unassignedOpcode) = true := by decide

/-- Each way a reserved bit can be set, at a boundary of its field: bits 55, 47, 39, 32, NOTE, VEL, IMM, bits
31 and 1 of FMT_B. -/
theorem witness_ReservedBitsAreIllegal :
    ([0x2180000000000000#64, 0x2100800000000000#64, 0x2100008000000000#64, 0x2100000100000000#64,
      0x2140000000000000#64, 0x2101000000000000#64, 0x0200400000000000#64, 0x0200010000000000#64,
      0x0100000080000000#64, 0x0200000000000001#64, 0x2000000000000001#64, 0x0300000080000000#64,
      0x0300000000000002#64].all fun w => decode w = .illegal .reservedBitNonZero) = true := by decide

theorem witness_ByteTransportDeliversTheWords :
    0 < 8 ∧ 7 < 8 ∧ 3 < 4 ∧ ([] : List Byte).length < 8 ∧
      ([1#8, 2#8, 3#8, 4#8, 5#8, 6#8, 7#8] : List Byte).length < 8 ∧ b32.isNaN (f32 0xFF800000#32) = false := by
  decide

/-- The last operand inside each field and the first outside it, with the line that gives it. -/
theorem witness_AssembledWordsAreLegal :
    (lineHead "NOTE_ON 127, 128".toList = some (.op .noteOn) ∧
      lineOperands "NOTE_ON 127, 128".toList = ["127".toList, "128".toList] ∧
      parseInt "127".toList = some 127 ∧ parseInt "128".toList = some 128) ∧
    (lineHead "NOTE_OFF 128".toList = some (.op .noteOff) ∧ lineOperands "NOTE_OFF 128".toList = ["128".toList]) ∧
    (lineHead "SUSTAIN_PEDAL 2".toList = some (.op .sustainPedal) ∧
      lineOperands "SUSTAIN_PEDAL 2".toList = ["2".toList] ∧ parseInt "2".toList = some 2) ∧
    (lineHead "SET_WAVE 4294967296".toList = some (.op .setWave) ∧
      lineHead "SET_POLY 4294967296".toList = some (.op .setPoly) ∧
      lineHead "RENDER 4294967296".toList = some (.op .render) ∧
      lineOperands "RENDER 4294967296".toList = ["4294967296".toList] ∧
      parseInt "4294967296".toList = some 4294967296 ∧ parseInt "4294967295".toList = some 4294967295) ∧
    spelledCommands "NOTE_OFF 128".toList = some [.noteOff 128] ∧
    spelledCommands "NOTE_OFF 127".toList = some [.noteOff 127] ∧
    ("NOTE_OFF 128".toList ∈ splitAtChar '\n' "TICK\nNOTE_OFF 128".toList ∧
      assembleLine "NOTE_OFF 128".toList = none) ∧
    assemble "TICK".toList = some [0x2000000000000000#64] := by decide +kernel

theorem witness_StepRunsDecodedCommand :
    (sent playing 0x2000000000000000#64).status = .running ∧
      (sent playing 0x2000000000000000#64).input = [.command 0x2000000000000000#64] ∧
      decode 0x2000000000000000#64 = .ok .tick := by decide +kernel

theorem witness_IllegalWordIsRefused :
    (sent playing 0x2000000000000001#64).status = .running ∧
      (sent playing 0x2000000000000001#64).input = [.command 0x2000000000000001#64] ∧
      decode 0x2000000000000001#64 = .illegal .reservedBitNonZero ∧
      decode 0x0000000000000000#64 = .illegal .unassignedOpcode ∧
      ({ playing with input := [.command 0#64, .command 0x2000000000000000#64] } : State).input =
        .command 0#64 :: [.command 0x2000000000000000#64] := by decide +kernel

/-- A refused block with a word sent. -/
def refusedSent : State :=
  { sent playing 0x2000000000000000#64 with status := .refused (.word 0#64) .unassignedOpcode }

theorem witness_RefusedBlockExecutesNothing :
    refusedSent.status = .refused (.word 0#64) .unassignedOpcode ∧
      refusedSent.input = [.command 0x2000000000000000#64] ∧ playing.input = [] := ⟨rfl, rfl, rfl⟩

/-- A RESET that restarts the block and one that is refused. -/
theorem witness_ResetSetsEveryRegister :
    ({ playing with input := [.reset ⟨(f32 0x44800000#32), 2⟩] } : State).input = [.reset ⟨(f32 0x44800000#32), 2⟩] ∧
      (b32.isFinite (f32 0x44800000#32) && b32.gt (f32 0x44800000#32) Flt.zero) = true ∧
      (b32.isFinite (f32 0x7F800000#32) && b32.gt (f32 0x7F800000#32) Flt.zero) = false := ⟨rfl, by decide, by decide⟩

/-- +0.0 and -0.0; the least negative value; the first NaN; +inf; and the least and the greatest SR that are
taken. A TICK stands after the RESET. -/
theorem witness_BadSampleRateIsRefused :
    ({ playing with input := [.reset ⟨Flt.zero, 8⟩, .command 0x2000000000000000#64] } : State).input =
        .reset ⟨Flt.zero, 8⟩ :: [.command 0x2000000000000000#64] ∧
      Flt.zero.isZero = true ∧ Flt.negZero.isZero = true ∧ (f32 0x80000001#32).sgn = true ∧
      b32.isNaN (f32 0x7F800001#32) = true ∧ b32.isInf (f32 0x7F800000#32) = true ∧
      ¬((f32 1#32).isZero = true ∨ (f32 1#32).sgn = true ∨ b32.isNaN (f32 1#32) = true ∨
        b32.isInf (f32 1#32) = true) ∧
      ¬((f32 0x7F7FFFFF#32).isZero = true ∨ (f32 0x7F7FFFFF#32).sgn = true ∨
        b32.isNaN (f32 0x7F7FFFFF#32) = true ∨ b32.isInf (f32 0x7F7FFFFF#32) = true) := ⟨rfl, by decide⟩

/-- A command that completes, and a setter refused for a NaN. -/
theorem witness_CpAdvancesPerCompletedCommand :
    (∃ t, exec .tick playing = .next t ∧ t.cp = playing.cp + 1) ∧
      ∃ t, exec (.setAttack 0x7FC00000#32) { playing with cfg := { playing.cfg with nanPolicy := .refuse } } = .next t ∧
        t.cp = playing.cp := ⟨⟨_, rfl, rfl⟩, ⟨_, rfl, rfl⟩⟩

theorem witness_OnlyTicksEmitAndMoveMix :
    (∃ t, exec .tick playing = .next t) ∧ (∃ t, exec (.render 2) playing = .next t) ∧
      (∃ t, exec (.setWave 1) playing = .next t) ∧ Instr.setWave 1 ≠ .tick ∧ ∀ u, Instr.setWave 1 ≠ .render u :=
  ⟨⟨_, rfl⟩, ⟨_, rfl⟩, ⟨_, rfl⟩, by decide, by intro u h; cases h⟩

theorem witness_RateAndParametersAreFixed :
    (∃ t, step (sent playing 0x2000000000000000#64) = .next t) ∧
      ∀ c rest, (sent playing 0x2000000000000000#64).input ≠ .reset c :: rest :=
  ⟨⟨_, rfl⟩, by intro c rest h; cases h⟩

/-- From the invariant, a TICK (with MIX in its range), a NOTE_ON that steals, and a RESET are taken. -/
theorem witness_StepKeepsInv :
    (Inv { playing with input := [.command 0x2000000000000000#64] } ∧
      MixInv { playing with input := [.command 0x2000000000000000#64] } ∧ b32.le playing.dt b32.one = true ∧
      ∃ t, step { playing with input := [.command 0x2000000000000000#64] } = .next t) ∧
    (Inv { full with input := [.command 0x01457F0000000000#64] } ∧
      ∃ t, step { full with input := [.command 0x01457F0000000000#64] } = .next t) ∧
    (Inv { full with input := [.reset ⟨(f32 0x44800000#32), 2⟩] } ∧
      ∃ t, step { full with input := [.reset ⟨(f32 0x44800000#32), 2⟩] } = .next t) :=
  ⟨⟨⟨playing_inv.1, playing_inv.2, playing_inv.3, playing_inv.4,
      ⟨playing_inv.5.1, playing_inv.5.2, playing_inv.5.3, playing_inv.5.4, playing_inv.5.5, playing_inv.5.6,
        playing_inv.5.7, playing_inv.5.8⟩, playing_inv.6⟩,
      ⟨playing_mixInv.1, playing_mixInv.2⟩, by decide, ⟨_, rfl⟩⟩,
    ⟨⟨full_inv.1, full_inv.2, full_inv.3, full_inv.4,
      ⟨full_inv.5.1, full_inv.5.2, full_inv.5.3, full_inv.5.4, full_inv.5.5, full_inv.5.6, full_inv.5.7,
        full_inv.5.8⟩, full_inv.6⟩, ⟨_, rfl⟩⟩,
    ⟨⟨full_inv.1, full_inv.2, full_inv.3, full_inv.4,
      ⟨full_inv.5.1, full_inv.5.2, full_inv.5.3, full_inv.5.4, full_inv.5.5, full_inv.5.6, full_inv.5.7,
        full_inv.5.8⟩, full_inv.6⟩, ⟨_, rfl⟩⟩⟩

theorem witness_EnvelopeStaysInUnitRange :
    Inv playing ∧ (∃ t, Sys2Proof.core.run 2 playing = .next t ∧
      sounding 69#7 0x43DC0000#32 0x3E800000#32 0#32 ∈ t.voices) :=
  ⟨playing_inv, ⟨playing, rfl, by decide⟩⟩

/-- A NOTE_ON of note 69, a frequency in the range, in a tuned block. -/
theorem witness_StepKeepsPitchInv :
    PitchInv (sent playing 0x01457F0000000000#64) ∧ TunedInv (sent playing 0x01457F0000000000#64) ∧
      (sent playing 0x01457F0000000000#64).movesInTune ∧
      ∃ t, step (sent playing 0x01457F0000000000#64) = .next t := by
  refine ⟨⟨playing_pitchInv.1, playing_pitchInv.2, playing_pitchInv.3, playing_pitchInv.4, playing_pitchInv.5⟩,
    playing_tunedInv, ?_, ⟨_, rfl⟩⟩
  intro w rest note vel hi hd
  cases hi
  have h : decode 0x01457F0000000000#64 = .ok (.noteOn 69 127) := by decide
  rw [h] at hd
  cases hd
  decide +kernel

theorem witness_NoteOnRetriggersTheHolder :
    full.voices[1]? = some (sounding 64#7 0x43A4D054#32 0x3E000000#32 0#32) ∧
      (sounding 64#7 0x43A4D054#32 0x3E000000#32 0#32).active = true ∧
      (sounding 64#7 0x43A4D054#32 0x3E000000#32 0#32).note.toNat = 64 ∧
      ∀ k < 1, ∀ u, full.voices[k]? = some u → ¬(u.active = true ∧ u.note.toNat = 64) := by
  refine ⟨rfl, rfl, rfl, fun k hk u hu => ?_⟩
  obtain rfl : k = 0 := by omega
  cases hu
  decide

theorem witness_NoteOnClaimsTheFirstFreeSlot :
    (∀ u ∈ playing.voices, ¬(u.active = true ∧ u.note.toNat = 127)) ∧
      playing.voices[1]? = some Voice.reset ∧ Voice.reset.active = false ∧
      ∀ i < 1, ∀ u, playing.voices[i]? = some u → u.active = true := by
  refine ⟨by decide, rfl, rfl, fun i hi u hu => ?_⟩
  obtain rfl : i = 0 := by omega
  cases hu
  decide

/-- Slot 1 of `full` is the quietest. -/
theorem witness_NoteOnStealsTheQuietestSlot :
    (∀ u ∈ full.voices, u.active = true ∧ u.note.toNat ≠ 0 ∧ b32.isNaN u.env = false) ∧
      full.voices[1]? = some (sounding 64#7 0x43A4D054#32 0x3E000000#32 0#32) ∧
      (∀ u ∈ full.voices, b32.le (sounding 64#7 0x43A4D054#32 0x3E000000#32 0#32).env u.env = true) ∧
      ∀ i < 1, ∀ u, full.voices[i]? = some u →
        b32.lt (sounding 64#7 0x43A4D054#32 0x3E000000#32 0#32).env u.env = true := by
  refine ⟨by decide, rfl, by decide, fun i hi u hu => ?_⟩
  obtain rfl : i = 0 := by omega
  cases hu
  decide

/-- A note that is held, one that takes a free slot, one that steals; notes 0 and 127. -/
theorem witness_NoteOnLeavesOneHolder :
    Inv playing ∧ Inv full ∧ 127 ≤ 127 ∧ 0 ≤ 127 ∧
      (∃ v ∈ playing.voices, v.active = true ∧ v.note.toNat = 69) ∧
      (∀ v ∈ playing.voices, ¬(v.active = true ∧ v.note.toNat = 127)) ∧
      (∃ v ∈ playing.voices, v.active = false) ∧
      (∀ v ∈ full.voices, ¬(v.active = true ∧ v.note.toNat = 0)) ∧
      (∀ v ∈ full.voices, v.active = true) :=
  ⟨playing_inv, full_inv, by decide⟩

theorem witness_NoteOnFrame :
    (∃ t, exec (.noteOn 69 1) playing = .next t) ∧ playing.findNote 69 = some 0 ∧
      playing.voices[0]? = some (sounding 69#7 0x43DC0000#32 0x3E800000#32 0#32) := ⟨⟨_, rfl⟩, by decide, rfl⟩

theorem witness_ReleaseCommandsFrame :
    (∃ t, exec (.noteOff 69) playing = .next t) ∧ (∃ t, exec (.sustainPedal false) playing = .next t) ∧
      playing.voices[0]? = some (sounding 69#7 0x43DC0000#32 0x3E800000#32 0#32) := ⟨⟨_, rfl⟩, ⟨_, rfl⟩, rfl⟩

theorem witness_SustainPedalReleases :
    playing.pedal = false ∧ ({ playing with pedal := true } : State).pedal = true := ⟨rfl, rfl⟩

theorem witness_PedalHoldsUntilReleased : ({ playing with pedal := true } : State).pedal = true := rfl

theorem witness_SetWaveSelects : 3 < 4 ∧ 3 < 4294967295 := by decide

/-- A NaN under ClampLow; under either policy -0.0, the least positive value and +inf. -/
theorem witness_TimeSettersStoreSanitised :
    playing.cfg.nanPolicy = .clampLow ∧ b32.isNaN (b32.toFLT 0x7FC00000#32) = true ∧
      b32.isNaN (b32.toFLT 0x80000000#32) = false ∧ b32.le (b32.toFLT 0x80000000#32) Flt.zero = true ∧
      b32.isNaN (b32.toFLT 1#32) = false ∧ b32.le (b32.toFLT 1#32) Flt.zero = false ∧
      b32.isNaN (b32.toFLT 0x7F800000#32) = false ∧ playing.fmt = b32 := by decide +kernel

/-- Also 1.0 and the value next below it. -/
theorem witness_UnitSettersStoreSanitised :
    playing.cfg.nanPolicy = .clampLow ∧ b32.isNaN (b32.toFLT 0x7FC00000#32) = true ∧
      b32.le (b32.toFLT 0x80000000#32) Flt.zero = true ∧ b32.le (b32.toFLT 1#32) Flt.zero = false ∧
      b32.ge (b32.toFLT 0x3F800000#32) b32.one = true ∧ b32.ge (b32.toFLT 0x3F7FFFFF#32) b32.one = false ∧
      playing.fmt = b32 := by decide +kernel

theorem witness_NanPayloadIsRefused :
    Instr.setGain 0x7FC00000#32 ∈ [Instr.setAttack 0x7FC00000#32, .setDecay 0x7FC00000#32, .setSustain 0x7FC00000#32,
        .setRelease 0x7FC00000#32, .setGlide 0x7FC00000#32, .setGain 0x7FC00000#32] ∧
      ({ playing with cfg := { playing.cfg with nanPolicy := .refuse } } : State).cfg.nanPolicy = .refuse ∧
      playing.fmt.isNaN (playing.fmt.toFLT 0x7FC00000#32) = true := by decide +kernel

theorem witness_SettersFrame :
    (∃ t, exec (.setWave 1) playing = .next t) ∧ (∃ t, exec (.setAttack 0#32) playing = .next t) ∧
      (∃ t, exec (.setDecay 0#32) playing = .next t) ∧ (∃ t, exec (.setSustain 0#32) playing = .next t) ∧
      (∃ t, exec (.setRelease 0#32) playing = .next t) ∧ (∃ t, exec (.setGlide 0#32) playing = .next t) ∧
      ∃ t, exec (.setGain 0#32) playing = .next t :=
  ⟨⟨_, rfl⟩, ⟨_, rfl⟩, ⟨_, rfl⟩, ⟨_, rfl⟩, ⟨_, rfl⟩, ⟨_, rfl⟩, ⟨_, rfl⟩⟩

theorem witness_SettersAndReleasesAreIdempotent :
    ∃ t, exec (.setPoly 5) playing = .next t ∧ ∃ t', exec (.setPoly 5) t = .next t' := ⟨_, rfl, _, rfl⟩

theorem witness_TickFollowsTheProcedure :
    ∃ vs sum n, playing.voices.foldl (Sys2Proof.Spec.tickBody playing) ([], Flt.zero, 0) = (vs, sum, n) :=
  ⟨_, _, _, rfl⟩

/-- Each branch of the transition rule: attack below 1.0, decay above the sustain level, release, and none
(at 1.0 with the sustain level at 1.0). -/
theorem witness_EnvelopeTransitionRule :
    (∃ t, exec .tick playing = .next t) ∧
      playing.voices[0]? = some (sounding 69#7 0x43DC0000#32 0x3E800000#32 0#32) ∧
      (sounding 69#7 0x43DC0000#32 0x3E800000#32 0#32).active = true ∧
      b32.lt (f32 0x3F7FFFFF#32) b32.one = true ∧ b32.lt (f32 0x3F800000#32) b32.one = false ∧
      b32.gt (f32 0x3F800000#32) playing.sustain = true ∧ b32.gt (f32 0x3F800000#32) b32.one = false ∧
      (releasing 69#7 0x43DC0000#32 0#32 0#32).active = true ∧
      (releasing 69#7 0x43DC0000#32 0#32 0#32).gate = false :=
  ⟨⟨_, rfl⟩, rfl, rfl, by decide⟩

/-- A gated slot with attack 0 and an ungated one with release 0. -/
def instant : State :=
  { ref [sounding 69#7 0x43DC0000#32 0#32 0#32, releasing 57#7 0x435C0000#32 0x3F800000#32 0#32] with
    attack := Flt.zero, release := Flt.zero }

theorem witness_ZeroTimesAreInstant :
    (∃ t, exec .tick instant = .next t) ∧
      instant.voices[0]? = some (sounding 69#7 0x43DC0000#32 0#32 0#32) ∧
      instant.voices[1]? = some (releasing 57#7 0x435C0000#32 0x3F800000#32 0#32) ∧
      instant.attack = Flt.zero ∧ instant.release = Flt.zero ∧
      (sounding 69#7 0x43DC0000#32 0#32 0#32).gate = true ∧
      b32.lt (sounding 69#7 0x43DC0000#32 0#32 0#32).env b32.one = true ∧
      (releasing 57#7 0x435C0000#32 0x3F800000#32 0#32).gate = false ∧
      (releasing 57#7 0x435C0000#32 0x3F800000#32 0#32).active = true :=
  ⟨⟨_, rfl⟩, rfl, rfl, rfl, rfl, rfl, by decide, rfl, rfl⟩

/-- A gated slot at 1.0 with attack 0, sustain 0.5 and decay 2^-6. -/
def hovering : State := { ref [sounding 69#7 0x43DC0000#32 0x3F800000#32 0#32] with attack := Flt.zero }

theorem witness_GatedEnvelopeHovers :
    Inv hovering ∧ (∃ t, exec .tick hovering = .next t ∧ ∃ t', exec .tick t = .next t') ∧
      hovering.voices[0]? = some (sounding 69#7 0x43DC0000#32 0x3F800000#32 0#32) ∧
      hovering.attack = Flt.zero ∧ b32.lt hovering.sustain b32.one = true ∧
      b32.gt hovering.decay Flt.zero = true ∧
      b32.lt (envNext hovering true b32.one) b32.one = true := by
  refine ⟨?_, ⟨_, rfl, _, rfl⟩, rfl, rfl, by decide, by decide, by decide +kernel⟩
  refine ⟨by decide, by decide, fun v hv => ?_, by decide, by constructor <;> decide +kernel,
    by constructor <;> decide⟩
  simp only [hovering, ref, List.mem_cons, List.not_mem_nil, or_false] at hv
  subst hv
  constructor <;> decide

/-- An active slot and an inactive one. -/
theorem witness_DeactivationRule :
    (∃ t, exec .tick playing = .next t) ∧ playing.voices[1]? = some Voice.reset ∧ Voice.reset.active = false ∧
      playing.voices[0]? = some (sounding 69#7 0x43DC0000#32 0x3E800000#32 0#32) ∧
      (sounding 69#7 0x43DC0000#32 0x3E800000#32 0#32).active = true := ⟨⟨_, rfl⟩, rfl, rfl, rfl, rfl⟩

theorem witness_GlideStepRule :
    (∃ t, exec .tick playing = .next t) ∧
      playing.voices[0]? = some (sounding 69#7 0x43DC0000#32 0x3E800000#32 0#32) ∧
      (sounding 69#7 0x43DC0000#32 0x3E800000#32 0#32).active = true := ⟨⟨_, rfl⟩, rfl, rfl⟩

/-- A phase at each end of [0, TWO_PI), with a frequency that is not below zero. -/
theorem witness_PhaseAdvanceRule :
    (∃ t, exec .tick playing = .next t) ∧
      playing.voices[0]? = some (sounding 69#7 0x43DC0000#32 0x3E800000#32 0#32) ∧
      b32.posFinite playing.sr = true ∧ b32.inRange b32.twoPi (f32 0#32) = true ∧
      b32.inRange b32.twoPi (f32 0x40C90FDA#32) = true ∧
      b32.nonneg (tickSlot playing (sounding 69#7 0x43DC0000#32 0x3E800000#32 0#32)).1.freqCurrent = true :=
  ⟨⟨_, rfl⟩, rfl, by decide, by decide, by decide, by decide +kernel⟩

theorem witness_FmodIsExact :
    b32.isFinite (f32 0x7F7FFFFF#32) = true ∧ (f32 0x7F7FFFFF#32).sgn = false ∧ b32.isFinite b32.twoPi = true ∧
      b32.twoPi.sgn = false ∧ 0 < b32.twoPi.mag ∧ 0 < (f32 1#32).mag := by decide

/-- Both ends of the phase range. -/
theorem witness_OscillatorRange :
    b32.inRange b32.twoPi (f32 0#32) = true ∧ b32.inRange b32.twoPi (f32 0x40C90FDA#32) = true := by decide

theorem witness_TriangleModChangesNothing :
    b32.inRange b32.twoPi (f32 0#32) = true ∧ b32.inRange b32.twoPi (f32 0x40C90FDA#32) = true := by decide

theorem witness_ContributingIsActive : Inv playing ∧ ∃ t, exec .tick playing = .next t := ⟨playing_inv, ⟨_, rfl⟩⟩

theorem witness_MixAtTargetStays :
    (∃ t, exec .tick playing = .next t) ∧ b32.isFinite playing.dt = true ∧ playing.dt.sgn = false ∧
      playing.mix = mixTarget b32 (voicesOn b32 (tickSlots playing)) := ⟨⟨_, rfl⟩, by decide, by decide, by decide +kernel⟩

theorem witness_EmittedSampleIsFinite :
    (∃ t, exec .tick playing = .next t) ∧
      ({ playing with cfg := { playing.cfg with outputClamp := true } } : State).cfg.outputClamp = true :=
  ⟨⟨_, rfl⟩, rfl⟩

theorem witness_RenderIsTicksInARow : playing.status = .running := rfl

theorem witness_TickAndRenderFrame :
    (∃ t, exec .tick playing = .next t) ∧ (∃ t, exec (.render 2) playing = .next t) ∧
      playing.voices[1]? = some Voice.reset ∧ Voice.reset.active = false := ⟨⟨_, rfl⟩, ⟨_, rfl⟩, rfl, rfl⟩

/-- 1.0 and -1.0 (a zero sum), 1.0 twice (a zero difference), the greatest finite value and the least, a
divisor that is not zero and one that is, each NaN at the edge of the patterns, and both infinities. -/
theorem witness_FltOperationsRoundOnce :
    b32.isFinite b32.one = true ∧ b32.isFinite b32.negOne = true ∧ b32.val b32.one + b32.val b32.negOne = 0 ∧
      b32.val b32.one - b32.val b32.one = 0 ∧ b32.isFinite (f32 0x7F7FFFFF#32) = true ∧ b32.isFinite (f32 1#32) = true ∧
      b32.val (f32 0x7F7FFFFF#32) + b32.val (f32 1#32) ≠ 0 ∧
      b32.val (f32 0x7F7FFFFF#32) - b32.val (f32 1#32) ≠ 0 ∧ (f32 1#32).mag ≠ 0 ∧
      Flt.negZero.mag = 0 ∧ Flt.zero.mag = 0 ∧
      b32.isNaN (f32 0x7F800001#32) = true ∧ b32.isNaN (f32 0xFFFFFFFF#32) = true ∧
      b32.isInf b32.posInf = true ∧ b32.isInf b32.negInf = true ∧ b32.posInf.sgn ≠ b32.negInf.sgn ∧
      b32.le b32.negOne b32.one = true ∧ b32.le b32.one b32.negOne = false ∧
      b32.ge b32.one b32.negOne = true ∧ b32.ge b32.negOne b32.one = false ∧
      (2 ^ 24 : Int).natAbs ≤ 2 ^ 24 ∧ (-2 ^ 24 : Int).natAbs ≤ 2 ^ 24 := by decide +kernel

/-- DT over an infinite time is +0.0 (R112). -/
theorem test_div_by_infinity : b32.div (f32 0x37AEC33E#32) b32.posInf = f32 0x00000000#32 := by decide +kernel

/-- A tie (one and a half units lies between the patterns 1 and 2, and goes to the even one), and the least
value that is rounded to infinity. -/
theorem witness_RoundingIsToNearestEven :
    0 < 2 ∧ 1 < b32.infMag ∧ b32.roundMag 3 2 = 2 ∧ b32.roundMag 3 2 < b32.infMag ∧ 1 ≠ b32.roundMag 3 2 ∧
      (((b32.unitsOf 1 * 2 : Nat) : Int) - 3).natAbs = (((b32.unitsOf (b32.roundMag 3 2) * 2 : Nat) : Int) - 3).natAbs ∧
      b32.roundMag ((2 ^ 25 - 1) * 2 ^ 252) 1 = b32.infMag := by decide +kernel

theorem witness_SinAndPow2Properties :
    b32.isFinite (f32 0x7F7FFFFF#32) = true ∧ (-6 : Int) ≤ -6 ∧ (-6 : Int) ≤ 5 ∧ (5 : Int) ≤ 5 := by decide

theorem witness_OctaveFrequenciesAreExact :
    0 ≤ 127 ∧ 127 ≤ 127 ∧ (-5 : Int) ≤ -5 ∧ (-5 : Int) ≤ 4 ∧ (4 : Int) ≤ 4 ∧
      (69 + 12 * (-5 : Int)).toNat = 9 ∧ (69 + 12 * (4 : Int)).toNat = 117 := by decide

theorem witness_VelocityScale : 0 ≤ 127 ∧ 127 ≤ 127 := by decide

end Sys2Proof.Tests
end

section
/-! O56, O57, O48: the FLT operations (R14) operand class by operand class, the conversions (R70), the one rounding,
and the values and neighbours of the constants that the oscillator and the note map use. -/

namespace Sys2Proof

/-! ### Rounding to an integer -/

/-- `divRound n d` is a multiple of `d` nearest to `n`; where another is as near, it is even. -/
theorem divRound_nearest {n d : Nat} (hd : 0 < d) (j : Nat) :
    (((divRound n d * d : Nat) : Int) - n).natAbs ≤ (((j * d : Nat) : Int) - n).natAbs ∧
      (j ≠ divRound n d → (((j * d : Nat) : Int) - n).natAbs = (((divRound n d * d : Nat) : Int) - n).natAbs →
        divRound n d % 2 = 0) := by
  have hn := Nat.div_add_mod' n d
  have hr := Nat.mod_lt n hd
  have hup : (n / d + 1) * d = n / d * d + d := Nat.succ_mul _ _
  -- the other multiple lies at or below the lower neighbour, or at or above the upper one
  have hj : j = n / d ∨ j = n / d + 1 ∨ j * d + d ≤ n / d * d ∨ n / d * d + 2 * d ≤ j * d := by
    rcases Nat.lt_trichotomy j (n / d) with h | h | h
    · have := Nat.mul_le_mul_right d (Nat.succ_le_of_lt h)
      rw [Nat.succ_mul] at this
      omega
    · omega
    · rcases Nat.lt_or_eq_of_le (Nat.succ_le_of_lt h) with h' | h'
      · have := Nat.mul_le_mul_right d (Nat.succ_le_of_lt h')
        rw [Nat.succ_mul, Nat.succ_mul] at this
        omega
      · omega
  unfold divRound
  generalize n / d = a at *
  generalize n % d = b at *
  split
  · rw [hup]
    rcases hj with rfl | rfl | hj | hj <;> constructor <;> omega
  · rcases hj with rfl | rfl | hj | hj <;> constructor <;> omega

/-- Rounding reaches an even multiple exactly from half a multiple below it on. -/
theorem even_le_divRound_iff {n d k : Nat} (hd : 0 < d) (hk : k % 2 = 0) :
    k ≤ divRound n d ↔ 2 * k * d ≤ 2 * n + d := by
  have hn := Nat.div_add_mod' n d
  have hr := Nat.mod_lt n hd
  have hup : (n / d + 1) * d = n / d * d + d := Nat.succ_mul _ _
  rw [Nat.mul_assoc]
  have hkd : k ≤ n / d ∧ k * d ≤ n / d * d ∨ k = n / d + 1 ∨ n / d + 1 < k ∧ n / d * d + 2 * d ≤ k * d := by
    rcases Nat.lt_trichotomy k (n / d + 1) with h | h | h
    · exact .inl ⟨by omega, Nat.mul_le_mul_right d (by omega)⟩
    · exact .inr (.inl h)
    · have := Nat.mul_le_mul_right d (Nat.succ_le_of_lt h)
      rw [Nat.succ_mul, hup] at this
      exact .inr (.inr ⟨h, by omega⟩)
  unfold divRound
  generalize n / d = a at *
  generalize n % d = b at *
  split <;> rcases hkd with ⟨h1, h2⟩ | rfl | ⟨h1, h2⟩ <;> omega

/-- The value next below a positive one. -/
def Flt.below (x : Flt) : Flt := ⟨false, x.mag - 1⟩

namespace FltFormat

variable {F : FltFormat} {a b : Flt}

/-! ### Whole numbers in FLT (R14) -/

/-- `toF` of an integer is that of its distance from zero, with its sign. -/
theorem ofInt_eq (F : FltFormat) (n : Int) : F.ofInt n = ⟨decide (n < 0), (F.ofNat n.natAbs).mag⟩ := by
  have hU : (0 : Int) < F.unitsPerOne := by exact_mod_cast unitsPerOne_pos F
  have hs : n * (F.unitsPerOne : Int) < 0 ↔ n < 0 := by
    rw [← not_le, ← not_le, mul_nonneg_iff_of_pos_right hU]
  rw [ofNat_eq, ofInt, ofUnits, Int.natAbs_mul, Int.natAbs_natCast,
    decide_eq_decide.2 hs]

/-- `toF` is exact up to 2^24, on either side of zero (R14). -/
theorem ofInt_exact (F : FltFormat) {n : Int} (h : n.natAbs ≤ 2 ^ 24) :
    F.val (F.ofInt n) = n * (F.unitsPerOne : Int) ∧ F.isFinite (F.ofInt n) = true := by
  obtain ⟨hu, hf⟩ := ofNat_units (F := F) (n := n.natAbs) (by omega)
  rw [ofInt_eq]
  refine ⟨?_, (isFinite_iff _).2 hf⟩
  simp only [val, units, hu]
  by_cases hn : n < 0
  · have : (n.natAbs : Int) = -n := by omega
    simp [hn, this]
  · have : (n.natAbs : Int) = n := by omega
    simp [hn, this]

theorem ofInt_injective (F : FltFormat) {m n : Int} (hm : m.natAbs ≤ 2 ^ 24) (hn : n.natAbs ≤ 2 ^ 24)
    (h : F.ofInt m = F.ofInt n) : m = n := by
  have hU : (F.unitsPerOne : Int) ≠ 0 := by exact_mod_cast (unitsPerOne_pos F).ne'
  have e : m * (F.unitsPerOne : Int) = n * F.unitsPerOne := by
    rw [← (ofInt_exact F hm).1, ← (ofInt_exact F hn).1, h]
  exact Int.eq_of_mul_eq_mul_right hU e

theorem units_ofInt (F : FltFormat) {n : Int} (h : n.natAbs ≤ 16777216) :
    F.units (F.ofInt n) = n.natAbs * F.unitsPerOne := by
  rw [ofInt_eq]
  exact (ofNat_units h).1

/-- A difference of whole numbers is exact (R14). -/
theorem sub_ofNat (F : FltFormat) {m n : Nat} (hm : m ≤ 16777216) (hn : n ≤ 16777216) :
    F.sub (F.ofNat m) (F.ofNat n) = F.ofInt ((m : Int) - n) := by
  have hv : F.val (F.ofNat m) + F.val (F.ofNat n).negate = ((m : Int) - n) * F.unitsPerOne := by
    have em : F.units (F.ofNat m) = m * F.unitsPerOne := (ofNat_units hm).1
    have en : F.units (F.ofNat n) = n * F.unitsPerOne := (ofNat_units hn).1
    rw [negate_val, val_of_sgn_false (ofNat_sgn m),
      val_of_sgn_false (ofNat_sgn n), em, en]
    push_cast
    ring
  unfold sub
  rw [add_of_finite (ofNat_isFinite hm) (b := (F.ofNat n).negate) (ofNat_isFinite hn),
    addFinite, hv]
  split
  · rename_i h0
    rw [ofInt, h0, ofNat_sgn]
    exact (congrArg (fun r => (⟨false, r⟩ : Flt)) (roundMag_zero 1)).symm
  · rfl

/-- A multiple of a whole number over that number is exact (R14). -/
theorem div_ofInt_mul (F : FltFormat) {n : Nat} {k : Int} (hn : 1 ≤ n) (hn' : n ≤ 16777216)
    (hk : ((n : Int) * k).natAbs ≤ 16777216) : F.div (F.ofInt (n * k)) (F.ofNat n) = F.ofInt k := by
  have hp : F.posFinite (F.ofNat n) = true := ofNat_posFinite hn hn'
  have hU := unitsPerOne_pos F
  have en : F.units (F.ofNat n) = n * F.unitsPerOne := (ofNat_units hn').1
  have hs : (n : Int) * k < 0 ↔ k < 0 := by
    rw [← not_le, ← not_le, mul_nonneg_iff_of_pos_left (by omega)]
  rw [div_of_finite (ofInt_exact F hk).2 (posFinite_isFinite hp)
    (posFinite_not_isZero hp), units_ofInt F hk, en, ofNat_sgn, Bool.bne_false, ofInt_eq, ofInt_eq,
    ofNat_eq k.natAbs, decide_eq_decide.2 hs]
  refine congrArg (Flt.mk _) (roundMag_congr (Nat.mul_pos hn hU) (by omega) ?_)
  rw [Int.natAbs_mul, Int.natAbs_natCast]
  ring

/-- A whole number times a power of two over 64 is the rounded product (R14). -/
theorem mul_ofNat_ofRat (F : FltFormat) {n m : Nat} (hn : n ≤ 16777216) (hm : m ≤ 16777216) :
    F.mul (F.ofNat n) (F.ofRat false m 64) = F.ofRat false (n * m) 64 := by
  obtain ⟨hu, hf⟩ := ofRat_pow_units (F := F) false (k := 6) hm (by omega)
  have en : F.units (F.ofNat n) = n * F.unitsPerOne := (ofNat_units hn).1
  have em : F.units (F.ofRat false m 64) * 64 = m * F.unitsPerOne := hu
  have hf' : F.isFinite (F.ofRat false m 64) = true := (isFinite_iff _).2 hf
  rw [mul_of_finite (ofNat_isFinite hn) hf', en, ofNat_sgn]
  refine congrArg (Flt.mk false) (roundMag_congr (unitsPerOne_pos F) (by omega) ?_)
  calc n * F.unitsPerOne * F.units (F.ofRat false m 64) * 64
      = n * F.unitsPerOne * (F.units (F.ofRat false m 64) * 64) := by ring
    _ = n * m * F.unitsPerOne * F.unitsPerOne := by rw [em]; ring

theorem zero_le_ofNat (F : FltFormat) (n : Nat) : F.le Flt.zero (F.ofNat n) = true :=
  (le_iff_mag zero_nonneg (ofNat_nonneg n)).2 (Nat.zero_le _)

/-! ### Finite operands: one rounding of the exact value -/

theorem add_of_val_ne_zero (ha : F.isFinite a = true) (hb : F.isFinite b = true) (h : F.val a + F.val b ≠ 0) :
    F.add a b = ⟨decide (F.val a + F.val b < 0), F.roundMag (F.val a + F.val b).natAbs 1⟩ := by
  rw [add_of_finite ha hb, addFinite, if_neg h, ofUnits]

theorem add_of_val_eq_zero (ha : F.isFinite a = true) (hb : F.isFinite b = true) (h : F.val a + F.val b = 0) :
    F.add a b = if a.sgn && b.sgn then Flt.negZero else Flt.zero := by
  rw [add_of_finite ha hb, addFinite, if_pos h]

theorem val_sub_eq (a b : Flt) : F.val a + F.val b.negate = F.val a - F.val b := by
  rw [negate_val, Int.sub_eq_add_neg]

theorem sub_of_val_ne_zero (ha : F.isFinite a = true) (hb : F.isFinite b = true) (h : F.val a - F.val b ≠ 0) :
    F.sub a b = ⟨decide (F.val a - F.val b < 0), F.roundMag (F.val a - F.val b).natAbs 1⟩ := by
  rw [← val_sub_eq] at h ⊢
  exact add_of_val_ne_zero ha hb h

theorem sub_of_val_eq_zero (ha : F.isFinite a = true) (hb : F.isFinite b = true) (h : F.val a - F.val b = 0) :
    F.sub a b = if a.sgn && !b.sgn then Flt.negZero else Flt.zero := by
  rw [← val_sub_eq] at h
  exact add_of_val_eq_zero ha hb h

theorem isZero_eq_false (h : b.mag ≠ 0) : b.isZero = false := by simpa [Flt.isZero] using h

theorem isZero_eq_true (h : b.mag = 0) : b.isZero = true := by simpa [Flt.isZero] using h

/-- The floor of a finite value is the greatest integer not above it. -/
theorem floor_of_finite (ha : F.isFinite a = true) : ∃ k : Int, F.floor a = F.ofUnits (k * (F.unitsPerOne : Int)) ∧
    k * (F.unitsPerOne : Int) ≤ F.val a ∧ F.val a < (k + 1) * (F.unitsPerOne : Int) := by
  have hU : (0 : Int) < F.unitsPerOne := by exact_mod_cast unitsPerOne_pos F
  exact ⟨F.val a / F.unitsPerOne, by rw [floor, if_pos ha], Int.ediv_mul_le _ hU.ne', Int.lt_ediv_add_one_mul_self _ hU⟩

theorem toRat_le_iff (a b : Flt) : F.toRat a ≤ F.toRat b ↔ F.val a ≤ F.val b := by
  unfold toRat
  rw [div_le_div_iff_of_pos_right (unitsPerOne_pos_rat F)]
  exact_mod_cast Iff.rfl

/-- A comparison of finite values is that of their counts. -/
theorem le_iff_val (ha : F.isFinite a = true) (hb : F.isFinite b = true) : F.le a b = true ↔ F.val a ≤ F.val b :=
  (le_iff_toRat ha hb).trans (toRat_le_iff a b)

theorem lt_iff_val (ha : F.isFinite a = true) (hb : F.isFinite b = true) : F.lt a b = true ↔ F.val a < F.val b := by
  rw [lt_iff_toRat ha hb, ← not_le, toRat_le_iff, not_le]

theorem eqv_iff_le (a b : Flt) : F.eqv a b = true ↔ F.le a b = true ∧ F.le b a = true := by
  have : F.eqv a b = true ↔ F.isNaN a = false ∧ F.isNaN b = false ∧ a.key = b.key := by simp [eqv, and_assoc]
  rw [this, le_iff, le_iff]
  constructor
  · rintro ⟨ha, hb, hk⟩
    exact ⟨⟨ha, hb, hk.le⟩, hb, ha, hk.ge⟩
  · rintro ⟨⟨ha, hb, hk⟩, -, -, hk'⟩
    exact ⟨ha, hb, Int.le_antisymm hk hk'⟩

theorem eqv_iff_val (ha : F.isFinite a = true) (hb : F.isFinite b = true) :
    F.eqv a b = true ↔ F.val a = F.val b := by
  rw [eqv_iff_le, le_iff_val ha hb, le_iff_val hb ha, ← le_antisymm_iff]

/-- In its domain `fmod` is the remainder of the counts: the one rounding changes nothing. -/
theorem units_fmod {x y : Flt} (hx : F.isFinite x = true) (hs : x.sgn = false)
    (hy : F.posFinite y = true) : F.units (F.fmod x y) = F.units x % F.units y := by
  obtain ⟨-, hm, hl⟩ := (posFinite_iff y).1 hy
  have hx0 : F.ge x Flt.zero = true := by
    have hn : F.nonneg x = true := (nonneg_iff x).2 ⟨hs, Nat.le_of_lt ((isFinite_iff x).1 hx)⟩
    exact (le_iff_mag zero_nonneg hn).2 (Nat.zero_le _)
  have hy0 : F.gt y Flt.zero = true := (gt_zero_iff (posFinite_nonneg hy)).2 hm
  unfold fmod
  rw [hx, posFinite_isFinite hy, hx0, hy0, ofUnits_natCast]
  exact (unitsOf_mod_exact ((isFinite_iff x).1 hx) hl hm).1

/-! ### NaN operands -/

theorem nan_or (h : F.isNaN a = true ∨ F.isNaN b = true) : (F.isNaN a || F.isNaN b) = true := by simpa using h

/-- A comparison with a NaN is false. -/
theorem cmp_of_nan (h : F.isNaN a = true ∨ F.isNaN b = true) :
    F.lt a b = false ∧ F.le a b = false ∧ F.gt a b = false ∧ F.ge a b = false ∧ F.eqv a b = false := by
  unfold gt ge lt le eqv
  rcases h with h | h <;> simp [h]

/-- An operation on a NaN gives a NaN. -/
theorem ops_of_nan (h : F.isNaN a = true ∨ F.isNaN b = true) : F.isNaN (F.add a b) = true ∧
    F.isNaN (F.sub a b) = true ∧ F.isNaN (F.mul a b) = true ∧ F.isNaN (F.div a b) = true := by
  have hn := nan_or h
  have hn' : (F.isNaN a || F.isNaN b.negate) = true := hn
  unfold sub add mul div
  rw [if_pos hn, if_pos hn', if_pos hn, if_pos hn]
  exact ⟨nanResult_isNaN .., nanResult_isNaN .., nanResult_isNaN .., nanResult_isNaN ..⟩

/-! ### Infinities and zero divisors -/

theorem isInf_iff (x : Flt) : F.isInf x = true ↔ x.mag = F.infMag := by simp [isInf]

theorem isInf_not_isNaN {x : Flt} (h : F.isInf x = true) : F.isNaN x = false :=
  (not_isNaN_iff x).2 (Nat.le_of_eq ((isInf_iff x).1 h))

theorem isInf_not_isZero {x : Flt} (h : F.isInf x = true) : x.isZero = false := by
  have := infMag_pos F
  exact isZero_eq_false (by rw [(isInf_iff x).1 h]; omega)

/-- An infinity lies beyond every finite value. -/
theorem finite_between_infs (ha : F.isFinite a = true) : F.lt a F.posInf = true ∧ F.gt a F.negInf = true := by
  have hm := (isFinite_iff a).1 ha
  have hn := isFinite_not_isNaN ha
  have hp : F.isNaN F.posInf = false := (not_isNaN_iff _).2 (Nat.le_refl _)
  have hq : F.isNaN F.negInf = false := (not_isNaN_iff _).2 (Nat.le_refl _)
  unfold gt
  rw [lt_iff, lt_iff]
  have hk : -(F.infMag : Int) < a.key ∧ a.key < F.infMag := by
    unfold Flt.key
    split <;> omega
  exact ⟨⟨hn, hp, hk.2⟩, hq, hn, hk.1⟩

theorem negInf_lt_posInf (F : FltFormat) : F.lt F.negInf F.posInf = true := by
  have h := infMag_pos F
  rw [lt_iff]
  refine ⟨(not_isNaN_iff _).2 (Nat.le_refl _), (not_isNaN_iff _).2 (Nat.le_refl _), ?_⟩
  simp only [Flt.key, posInf, negInf, if_true, Bool.false_eq_true, if_false]
  omega

theorem isFinite_eq_false_iff (a : Flt) :
    F.isFinite a = false ↔ F.isNaN a = true ∨ a = F.posInf ∨ a = F.negInf := by
  obtain ⟨s, m⟩ := a
  simp only [isFinite, isNaN, posInf, negInf, Flt.mk.injEq, decide_eq_false_iff_not, decide_eq_true_eq]
  cases s <;> simp <;> omega

theorem add_inf_right (ha : F.isFinite a = true) (hb : F.isInf b = true) : F.add a b = b := by
  simp [add, isFinite_not_isNaN ha, isInf_not_isNaN hb, isFinite_not_isInf ha, hb]

theorem add_inf_left (ha : F.isFinite a = true) (hb : F.isInf b = true) : F.add b a = b := by
  simp [add, isFinite_not_isNaN ha, isInf_not_isNaN hb, isFinite_not_isInf ha, hb]

/-- An infinity times a value: an infinity, or a NaN for a zero. -/
theorem mul_by_inf (ha : F.isNaN a = false) (hb : F.isInf b = true) :
    (a.isZero = false → F.mul a b = ⟨a.sgn != b.sgn, F.infMag⟩ ∧ F.mul b a = ⟨a.sgn != b.sgn, F.infMag⟩) ∧
    (a.isZero = true → F.isNaN (F.mul a b) = true ∧ F.isNaN (F.mul b a) = true) := by
  have hn := isInf_not_isNaN hb
  have hz := isInf_not_isZero hb
  have hs : (b.sgn != a.sgn) = (a.sgn != b.sgn) := bne_comm
  constructor <;> intro h <;> simp [mul, ha, hn, hb, hz, h, hs, nanResult_isNaN]

theorem div_by_inf (ha : F.isFinite a = true) (hb : F.isInf b = true) : F.div a b = ⟨a.sgn != b.sgn, 0⟩ := by
  simp [div, isFinite_not_isNaN ha, isInf_not_isNaN hb, isFinite_not_isInf ha, hb]

theorem inf_div (ha : F.isFinite a = true) (hb : F.isInf b = true) : F.div b a = ⟨a.sgn != b.sgn, F.infMag⟩ := by
  have hs : (b.sgn != a.sgn) = (a.sgn != b.sgn) := bne_comm
  simp [div, isFinite_not_isNaN ha, isInf_not_isNaN hb, isFinite_not_isInf ha, hb, hs]

/-- Two infinities add when their signs agree, and give a NaN when they do not. -/
theorem add_inf_inf (ha : F.isInf a = true) (hb : F.isInf b = true) :
    (a.sgn = b.sgn → F.add a b = a) ∧ (a.sgn ≠ b.sgn → F.isNaN (F.add a b) = true) := by
  constructor <;> intro h <;>
    simp [add, isInf_not_isNaN ha, isInf_not_isNaN hb, ha, hb, h, nanResult_isNaN]

theorem sub_inf_inf (ha : F.isInf a = true) (hb : F.isInf b = true) :
    (a.sgn = b.sgn → F.isNaN (F.sub a b) = true) ∧ (a.sgn ≠ b.sgn → F.sub a b = a) := by
  obtain ⟨h1, h2⟩ := add_inf_inf (b := b.negate) ha hb
  refine ⟨fun h => h2 ?_, fun h => h1 ?_⟩
  · rw [Flt.negate_sgn, h]; cases b.sgn <;> decide
  · rw [Flt.negate_sgn]; exact Bool.eq_not_of_ne h

theorem div_inf_inf (ha : F.isInf a = true) (hb : F.isInf b = true) : F.isNaN (F.div a b) = true := by
  simp [div, isInf_not_isNaN ha, isInf_not_isNaN hb, ha, hb, nanResult_isNaN]

/-- A finite value over a zero: an infinity, or a NaN for a zero. -/
theorem div_by_zero (ha : F.isFinite a = true) (hb : b.mag = 0) :
    (a.mag ≠ 0 → F.div a b = ⟨a.sgn != b.sgn, F.infMag⟩) ∧ (a.mag = 0 → F.isNaN (F.div a b) = true) := by
  have hz := isZero_eq_true hb
  have hbf : F.isFinite b = true := (isFinite_iff b).2 (by rw [hb]; exact infMag_pos F)
  have hd : F.div a b = if a.isZero then F.nanResult .div a b else ⟨a.sgn != b.sgn, F.infMag⟩ := by
    simp [div, isFinite_not_isNaN ha, isFinite_not_isNaN hbf, isFinite_not_isInf ha, isFinite_not_isInf hbf, hz]
  rw [hd]
  constructor <;> intro h
  · rw [isZero_eq_false h, if_neg Bool.false_ne_true]
  · rw [isZero_eq_true h, if_pos rfl]
    exact nanResult_isNaN ..

/-! ### toFLT (R70) -/

theorem toFLT_sgn (imm : BitVec 32) : (F.toFLT imm).sgn = (Flt.ofBits32 imm).sgn := rfl

theorem toFLT_nan {imm : BitVec 32} (h : binary32.isNaN (Flt.ofBits32 imm) = true) : (F.toFLT imm).mag =
    F.infMag + ((Flt.ofBits32 imm).mag - binary32.infMag) * 2 ^ F.extraFrac.val := if_pos h

theorem toFLT_inf {imm : BitVec 32} (h : binary32.isInf (Flt.ofBits32 imm) = true) :
    (F.toFLT imm).mag = F.infMag := by
  simp [toFLT, isInf_not_isNaN h, h]

theorem toFLT_finite {imm : BitVec 32} (h : binary32.isFinite (Flt.ofBits32 imm) = true) : (F.toFLT imm).mag =
    F.roundMag (binary32.units (Flt.ofBits32 imm) * F.unitsPerOne) binary32.unitsPerOne := by
  simp [toFLT, isFinite_not_isNaN h, isFinite_not_isInf h]

theorem class_cases (F : FltFormat) (x : Flt) : F.isNaN x = true ∨ F.isInf x = true ∨ F.isFinite x = true := by
  rw [isNaN_iff, isInf_iff, isFinite_iff]
  omega

/-- In binary32 a payload is its own pattern. -/
theorem toFLT_binary32 (imm : BitVec 32) : binary32.toFLT imm = Flt.ofBits32 imm := by
  refine Flt.ext_sgn_mag (toFLT_sgn imm) ?_
  rcases class_cases binary32 (Flt.ofBits32 imm) with h | h | h
  · have hlt := (isNaN_iff _).1 h
    have he : binary32.extraFrac.val = 0 := rfl
    rw [toFLT_nan h, he]
    omega
  · rw [toFLT_inf h, (isInf_iff _).1 h]
  · have hm := Nat.le_of_lt ((isFinite_iff _).1 h)
    rw [toFLT_finite h, units, roundMag_congr (d' := 1) (unitsPerOne_pos _) Nat.one_pos (Nat.mul_one _),
      roundMag_unitsOf hm]

/-- One, counted in a format's units, is a power of two times one counted in binary32's. -/
theorem unitsPerOne_eq_binary32 (F : FltFormat) :
    F.unitsPerOne = 2 ^ (F.fracBits - 23) * 2 ^ (F.bias - 127) * binary32.unitsPerOne := by
  have hb := bias_ge F
  have hf := fracBits_ge F
  have h32 : binary32.unitsPerOne = 2 ^ 149 := rfl
  rw [h32, unitsPerOne, ← Nat.pow_add, ← Nat.pow_add]
  congr 1
  omega

/-- A binary32 magnitude is a magnitude of every format: toFLT is exact. -/
theorem roundMag_widen {m : Nat} (hm : m < binary32.infMag) :
    F.unitsOf (F.roundMag (binary32.unitsOf m * F.unitsPerOne) binary32.unitsPerOne) * binary32.unitsPerOne =
      binary32.unitsOf m * F.unitsPerOne ∧
    F.roundMag (binary32.unitsOf m * F.unitsPerOne) binary32.unitsPerOne < F.infMag := by
  have hb := bias_ge F
  have hf := fracBits_ge F
  obtain ⟨k, e, hk, he, hu, -⟩ := unitsOf_form hm
  have hb32 : binary32.bias = 127 := rfl
  have hf32 : binary32.fracBits = 23 := rfl
  rw [hb32] at he
  rw [hf32] at hk
  have hk' : k * 2 ^ (F.fracBits - 23) < 2 * 2 ^ F.fracBits := by
    calc k * 2 ^ (F.fracBits - 23) < 2 * 2 ^ 23 * 2 ^ (F.fracBits - 23) :=
          Nat.mul_lt_mul_of_pos_right hk (Nat.pow_pos (by omega))
      _ = 2 * 2 ^ F.fracBits := by rw [Nat.mul_assoc, ← Nat.pow_add, show 23 + (F.fracBits - 23) = F.fracBits by omega]
  have hx : binary32.unitsOf m * F.unitsPerOne =
      k * 2 ^ (F.fracBits - 23) * 2 ^ (e + (F.bias - 127)) * binary32.unitsPerOne := by
    rw [hu, unitsPerOne_eq_binary32 F, Nat.pow_add]
    ring
  obtain ⟨h1, h2⟩ := roundMag_exact (F := F) hk' (e := e + (F.bias - 127)) (by omega)
  rw [roundMag_congr (d' := 1) (unitsPerOne_pos _) Nat.one_pos ((Nat.mul_one _).trans hx), hx]
  exact ⟨by rw [h1], h2⟩

/-- What toFLT makes of each class of payload. -/
theorem toFLT_class (F : FltFormat) (imm : BitVec 32) :
    (binary32.isFinite (Flt.ofBits32 imm) = true → F.isFinite (F.toFLT imm) = true ∧
      F.units (F.toFLT imm) * binary32.unitsPerOne = binary32.units (Flt.ofBits32 imm) * F.unitsPerOne) ∧
    (binary32.isInf (Flt.ofBits32 imm) = true → F.isInf (F.toFLT imm) = true) ∧
    (binary32.isNaN (Flt.ofBits32 imm) = true → F.isNaN (F.toFLT imm) = true) := by
  refine ⟨fun h => ?_, fun h => (isInf_iff _).2 (toFLT_inf h), fun h => ?_⟩
  · obtain ⟨h1, h2⟩ := roundMag_widen (F := F) ((isFinite_iff _).1 h)
    rw [isFinite_iff, units, toFLT_finite h]
    exact ⟨h2, h1⟩
  · have hlt := (isNaN_iff _).1 h
    have hp : 0 < 2 ^ F.extraFrac.val := Nat.pow_pos (by omega)
    rw [isNaN_iff, toFLT_nan h]
    have := Nat.mul_pos (Nat.sub_pos_of_lt hlt) hp
    omega

/-! ### The nearest magnitude -/

/-- The finite rounding is nearest to the exact value; where another magnitude is as near, its pattern is even. -/
theorem roundMag_nearest {n d m : Nat} (hd : 0 < d) (hm : m < F.infMag) (hf : F.roundMag n d < F.infMag) :
    (((F.unitsOf (F.roundMag n d) * d : Nat) : Int) - n).natAbs ≤ (((F.unitsOf m * d : Nat) : Int) - n).natAbs ∧
      (m ≠ F.roundMag n d → (((F.unitsOf m * d : Nat) : Int) - n).natAbs =
        (((F.unitsOf (F.roundMag n d) * d : Nat) : Int) - n).natAbs → F.roundMag n d % 2 = 0) := by
  have hu := unitsOf_roundMag hf
  obtain ⟨-, hsp⟩ := spacing_spec F (n / d)
  have hr : F.roundMag n d = F.spacing (n / d) * 2 ^ F.fracBits + divRound n (d * 2 ^ F.spacing (n / d)) := by
    unfold roundMag at hf ⊢
    omega
  generalize F.spacing (n / d) = sp at *
  have hp : 0 < 2 ^ sp := Nat.pow_pos (by omega)
  have hD : 0 < d * 2 ^ sp := Nat.mul_pos hd hp
  have hnear := divRound_nearest (n := n) hD
  have hassoc : ∀ q : Nat, q * 2 ^ sp * d = q * (d * 2 ^ sp) := fun q => by ring
  have hud : F.unitsOf (F.roundMag n d) * d = divRound n (d * 2 ^ sp) * (d * 2 ^ sp) := by rw [hu, hassoc]
  by_cases hdvd : 2 ^ sp ∣ F.unitsOf m
  · -- a multiple of the spacing
    obtain ⟨j, hj⟩ := hdvd
    have hmd : F.unitsOf m * d = j * (d * 2 ^ sp) := by rw [hj, Nat.mul_comm (2 ^ sp), hassoc]
    rw [hud, hmd]
    refine ⟨(hnear j).1, fun hne he => ?_⟩
    have hjne : j ≠ divRound n (d * 2 ^ sp) := fun e => by
      apply hne
      rw [← roundMag_unitsOf (Nat.le_of_lt hm), hj, e, Nat.mul_comm, ← hu, roundMag_unitsOf (Nat.le_of_lt hf)]
    have heven := (hnear j).2 hjne he
    have hfb : 2 ^ F.fracBits % 2 = 0 := by
      rw [show F.fracBits = F.fracBits - 1 + 1 by have := fracBits_ge F; omega, Nat.pow_succ]
      omega
    rw [hr, Nat.add_mod, Nat.mul_mod, hfb, heven]
    simp
  · -- any other magnitude lies below the binade of the exact value, whose first pattern is nearer
    have hlt : F.unitsOf m < 2 ^ sp * 2 ^ F.fracBits := Nat.lt_of_not_le fun h => hdvd (unitsOf_dvd hm h)
    have hsp0 : 0 < sp := by
      rcases Nat.eq_zero_or_pos sp with h0 | h0
      · rw [h0, Nat.pow_zero] at hdvd
        exact absurd (Nat.one_dvd _) hdvd
      · exact h0
    have h1 : F.unitsOf m * d < 2 ^ F.fracBits * (d * 2 ^ sp) := by
      calc F.unitsOf m * d < 2 ^ sp * 2 ^ F.fracBits * d := Nat.mul_lt_mul_of_pos_right hlt hd
        _ = 2 ^ F.fracBits * (d * 2 ^ sp) := by ring
    have h2 : 2 ^ F.fracBits * (d * 2 ^ sp) ≤ n := by
      calc 2 ^ F.fracBits * (d * 2 ^ sp) = d * (2 ^ sp * 2 ^ F.fracBits) := by ring
        _ ≤ d * (n / d) := Nat.mul_le_mul_left d (hsp hsp0)
        _ ≤ n := Nat.mul_div_le n d
    have h3 := (hnear (2 ^ F.fracBits)).1
    rw [hud]
    constructor <;> omega

/-! ### Where the rounding overflows -/

/-- Half a spacing above the largest finite magnitude, in units. -/
def overflowUnits (F : FltFormat) : Nat := (2 ^ (F.fracBits + 2) - 1) * 2 ^ (2 * F.bias - 2)

/-- It lies in the last binade. -/
theorem overflowUnits_bounds (F : FltFormat) : 2 ^ (2 * F.bias - 1) * 2 ^ F.fracBits ≤ F.overflowUnits ∧
    F.overflowUnits < 2 ^ (2 * F.bias - 1) * (2 * 2 ^ F.fracBits) ∧
    2 * F.overflowUnits + 2 ^ (2 * F.bias - 1) = 2 * (2 * 2 ^ F.fracBits) * 2 ^ (2 * F.bias - 1) := by
  have hf := frac_pos F
  have hb := bias_ge F
  have hp : 0 < 2 ^ (2 * F.bias - 2) := Nat.pow_pos (by omega)
  have e1 : 2 ^ (F.fracBits + 2) = 4 * 2 ^ F.fracBits := by rw [Nat.pow_add]; ring
  have e2 : 2 ^ (2 * F.bias - 1) = 2 * 2 ^ (2 * F.bias - 2) := by
    rw [← Nat.pow_succ', show (2 * F.bias - 2).succ = 2 * F.bias - 1 by omega]
  -- everything as a multiple of a significand's reach at half the last binade's spacing
  have e3 : F.overflowUnits + 2 ^ (2 * F.bias - 2) = 4 * (2 ^ F.fracBits * 2 ^ (2 * F.bias - 2)) := by
    calc F.overflowUnits + 2 ^ (2 * F.bias - 2)
        = (4 * 2 ^ F.fracBits - 1 + 1) * 2 ^ (2 * F.bias - 2) := by rw [overflowUnits, e1, Nat.add_mul, Nat.one_mul]
      _ = 4 * (2 ^ F.fracBits * 2 ^ (2 * F.bias - 2)) := by rw [Nat.sub_add_cancel (by omega), Nat.mul_assoc]
  have h1 : 2 ^ (2 * F.bias - 2) ≤ 2 ^ F.fracBits * 2 ^ (2 * F.bias - 2) := Nat.le_mul_of_pos_left _ hf
  have e4 : 2 ^ (2 * F.bias - 1) * 2 ^ F.fracBits = 2 * (2 ^ F.fracBits * 2 ^ (2 * F.bias - 2)) := by rw [e2]; ring
  have e5 : 2 ^ (2 * F.bias - 1) * (2 * 2 ^ F.fracBits) = 4 * (2 ^ F.fracBits * 2 ^ (2 * F.bias - 2)) := by rw [e2]; ring
  have e6 : 2 * (2 * 2 ^ F.fracBits) * 2 ^ (2 * F.bias - 1) = 8 * (2 ^ F.fracBits * 2 ^ (2 * F.bias - 2)) := by
    rw [e2]; ring
  omega

theorem infMag_lastBinade (F : FltFormat) :
    F.infMag = (2 * F.bias - 1) * 2 ^ F.fracBits + 2 * 2 ^ F.fracBits := by
  have := bias_ge F
  rw [infMag_eq, ← Nat.add_mul]
  congr 1
  omega

/-- Infinity is chosen exactly from half a spacing above the largest finite magnitude on. -/
theorem roundMag_eq_infMag_iff {n d : Nat} (hd : 0 < d) : F.roundMag n d = F.infMag ↔ F.overflowUnits * d ≤ n := by
  obtain ⟨hT1, hT2, hT3⟩ := overflowUnits_bounds F
  obtain ⟨hq1, hq2⟩ := divRound_spacing F n d
  obtain ⟨hs1, hs2⟩ := spacing_spec F (n / d)
  have hb := bias_ge F
  have hiff : F.overflowUnits * d ≤ n ↔ F.overflowUnits ≤ n / d := (Nat.le_div_iff_mul_le hd).symm
  have hr : F.roundMag n d = F.infMag ↔ (2 * F.bias - 1) * 2 ^ F.fracBits + 2 * 2 ^ F.fracBits ≤
      F.spacing (n / d) * 2 ^ F.fracBits + divRound n (d * 2 ^ F.spacing (n / d)) := by
    rw [← infMag_lastBinade]
    unfold roundMag
    omega
  rw [hr]
  generalize F.spacing (n / d) = sp at *
  rcases Nat.lt_trichotomy sp (2 * F.bias - 1) with hsp | rfl | hsp
  · -- below the last binade
    have h1 : (sp + 1) * 2 ^ F.fracBits ≤ (2 * F.bias - 1) * 2 ^ F.fracBits := Nat.mul_le_mul_right _ hsp
    have h2 : 2 ^ (sp + 1) * 2 ^ F.fracBits ≤ 2 ^ (2 * F.bias - 1) * 2 ^ F.fracBits :=
      Nat.mul_le_mul_right _ (Nat.pow_le_pow_right (by omega) hsp)
    have h3 : 2 ^ (sp + 1) * 2 ^ F.fracBits = 2 ^ sp * (2 * 2 ^ F.fracBits) := by rw [Nat.pow_succ]; ring
    have := frac_pos F
    rw [Nat.succ_mul] at h1
    rw [hiff]
    omega
  · -- in the last binade: where its rounding reaches the upper end
    rw [Nat.add_le_add_iff_left, even_le_divRound_iff (Nat.mul_pos hd (Nat.pow_pos (by omega))) (by omega)]
    have h1 : 2 * (2 * 2 ^ F.fracBits) * (d * 2 ^ (2 * F.bias - 1)) =
        2 * (F.overflowUnits * d) + d * 2 ^ (2 * F.bias - 1) := by
      calc 2 * (2 * 2 ^ F.fracBits) * (d * 2 ^ (2 * F.bias - 1))
          = 2 * (2 * 2 ^ F.fracBits) * 2 ^ (2 * F.bias - 1) * d := by ring
        _ = 2 * (F.overflowUnits * d) + d * 2 ^ (2 * F.bias - 1) := by rw [← hT3]; ring
    omega
  · -- above it
    have h1 : (2 * F.bias - 1 + 1) * 2 ^ F.fracBits ≤ sp * 2 ^ F.fracBits := Nat.mul_le_mul_right _ hsp
    have h2 : 2 ^ (2 * F.bias - 1 + 1) * 2 ^ F.fracBits ≤ 2 ^ sp * 2 ^ F.fracBits :=
      Nat.mul_le_mul_right _ (Nat.pow_le_pow_right (by omega) hsp)
    have h3 : 2 ^ (2 * F.bias - 1 + 1) * 2 ^ F.fracBits = 2 ^ (2 * F.bias - 1) * (2 * 2 ^ F.fracBits) := by
      rw [Nat.pow_succ]; ring
    rw [Nat.succ_mul] at h1
    have h4 := hq2 (by omega)
    have h5 := hs2 (by omega)
    rw [hiff]
    omega

/-! ### Neighbouring magnitudes -/

/-- Twice a magnitude of at most 4.0 is a magnitude. -/
theorem roundMag_double {m : Nat} (hm : m < F.infMag) (h4 : F.unitsOf m ≤ 4 * F.unitsPerOne) :
    F.unitsOf (F.roundMag (2 * F.unitsOf m) 1) = 2 * F.unitsOf m ∧ F.roundMag (2 * F.unitsOf m) 1 < F.infMag := by
  have hb := bias_ge F
  obtain ⟨k, e, hk, he, hu, hke⟩ := unitsOf_form hm
  have he' : e + 1 < 2 * F.bias := by
    by_contra hc
    have hlt : 2 ^ F.fracBits * 2 ^ (F.bias + 2) ≤ k * 2 ^ e :=
      Nat.mul_le_mul (hke (by omega)) (Nat.pow_le_pow_right (by omega) (by omega))
    rw [hu, unitsPerOne_eq] at h4
    have hb2 : 2 ^ (F.bias + 2) = 8 * 2 ^ (F.bias - 1) := by
      rw [show F.bias + 2 = 3 + (F.bias - 1) by omega, Nat.pow_add]
    have hp : 0 < 2 ^ F.fracBits * 2 ^ (F.bias - 1) := Nat.mul_pos (frac_pos F) (Nat.pow_pos (by omega))
    have e8 : 2 ^ F.fracBits * 2 ^ (F.bias + 2) = 8 * (2 ^ F.fracBits * 2 ^ (F.bias - 1)) := by rw [hb2]; ring
    omega
  have e2 : 2 * F.unitsOf m = k * 2 ^ (e + 1) := by rw [hu, Nat.pow_succ]; ring
  rw [e2]
  exact roundMag_exact hk he'

/-- The pattern below the first one of a binade has the greatest significand of the binade below. -/
theorem unitsOf_binade_pred (F : FltFormat) (e : Nat) :
    F.unitsOf ((e + 1) * 2 ^ F.fracBits + 2 ^ F.fracBits - 1) = (2 * 2 ^ F.fracBits - 1) * 2 ^ e := by
  have hP := frac_pos F
  rw [Nat.succ_mul, show e * 2 ^ F.fracBits + 2 ^ F.fracBits + 2 ^ F.fracBits - 1 =
    e * 2 ^ F.fracBits + (2 * 2 ^ F.fracBits - 1) by omega]
  exact unitsOf_spacing (by omega) (fun _ => by omega)

theorem unitsOf_binade (F : FltFormat) (e : Nat) :
    F.unitsOf (e * 2 ^ F.fracBits + 2 ^ F.fracBits) = 2 ^ F.fracBits * 2 ^ e :=
  unitsOf_spacing (by have := frac_pos F; omega) (fun _ => Nat.le_refl _)

/-- One pattern down loses at least one part in `2 * 2 ^ fracBits`. -/
theorem unitsOf_pred_le {m : Nat} (hm : 0 < m) :
    2 * 2 ^ F.fracBits * F.unitsOf (m - 1) ≤ (2 * 2 ^ F.fracBits - 1) * F.unitsOf m := by
  have hP := frac_pos F
  obtain ⟨sp, q, rfl, hq, hsp, hu⟩ := mag_form F m
  rw [hu]
  by_cases hc : 0 < sp ∧ q = 2 ^ F.fracBits
  · -- the first pattern of a binade
    obtain ⟨h0, rfl⟩ := hc
    obtain ⟨e, rfl⟩ : ∃ e, sp = e + 1 := ⟨sp - 1, by omega⟩
    rw [unitsOf_binade_pred, Nat.pow_succ]
    exact Nat.le_of_eq (by ring)
  · -- the significand has one unit less
    obtain ⟨r, rfl⟩ : ∃ r, q = r + 1 := ⟨q - 1, by
      rcases Nat.eq_zero_or_pos sp with h0 | h0
      · rw [h0] at hm; omega
      · have := hsp h0; omega⟩
    rw [← Nat.add_assoc, Nat.add_sub_cancel, unitsOf_spacing (by omega)
      (fun h => by have := hsp h; omega), ← Nat.mul_assoc, ← Nat.mul_assoc]
    refine Nat.mul_le_mul_right _ ?_
    obtain ⟨w, hw⟩ : ∃ w, 2 * 2 ^ F.fracBits = w + 1 := ⟨2 * 2 ^ F.fracBits - 1, by omega⟩
    rw [hw, Nat.add_sub_cancel, Nat.succ_mul, Nat.mul_succ]
    omega

theorem toRat_of_sgn_false {x : Flt} (h : x.sgn = false) :
    F.toRat x = (F.units x : ℚ) / F.unitsPerOne := by
  rw [toRat_eq_units, h]
  simp

theorem toRat_pos {x : Flt} (h : F.posFinite x = true) : 0 < F.toRat x := by
  obtain ⟨hs, hm, hl⟩ := (posFinite_iff x).1 h
  have hu : (0 : ℚ) < F.units x := by exact_mod_cast unitsOf_pos hm (Nat.le_of_lt hl)
  have hU := unitsPerOne_pos_rat F
  rw [toRat_of_sgn_false hs]
  positivity

/-- What lies below a positive value is less by at least one part in `2 * 2 ^ fracBits`. -/
theorem toRat_le_of_mag_lt {p y : Flt} (hy : F.nonneg y = true) (hp : p.sgn = false)
    (hlt : p.mag < y.mag) : F.toRat p ≤ F.toRat y * (1 - 1 / (2 * 2 ^ F.fracBits)) := by
  obtain ⟨hys, hym⟩ := (nonneg_iff y).1 hy
  have h1 : F.units p ≤ F.unitsOf (y.mag - 1) := unitsOf_mono (by omega) (by omega)
  have h2 : 2 * 2 ^ F.fracBits * F.units p + F.units y ≤ 2 * 2 ^ F.fracBits * F.units y := by
    have h3 : 2 * 2 ^ F.fracBits * F.unitsOf (y.mag - 1) ≤ (2 * 2 ^ F.fracBits - 1) * F.units y :=
      unitsOf_pred_le (by omega)
    have h4 := Nat.mul_le_mul_left (2 * 2 ^ F.fracBits) h1
    have h5 : F.units y ≤ 2 * 2 ^ F.fracBits * F.units y :=
      Nat.le_mul_of_pos_left _ (by have := frac_pos F; omega)
    rw [Nat.sub_mul, Nat.one_mul] at h3
    omega
  have h2' : 2 * 2 ^ F.fracBits * (F.units p : ℚ) + F.units y ≤ 2 * 2 ^ F.fracBits * F.units y := by exact_mod_cast h2
  rw [toRat_of_sgn_false hp, toRat_of_sgn_false hys, div_mul_eq_mul_div]
  refine div_le_div_of_nonneg_right ?_ (unitsPerOne_pos_rat F).le
  have e : (F.units y : ℚ) * (1 - 1 / (2 * 2 ^ F.fracBits)) =
      (2 * 2 ^ F.fracBits * F.units y - F.units y) / (2 * 2 ^ F.fracBits) := by field_simp
  rw [e, le_div_iff₀ (by positivity)]
  linarith

/-- Below a power of two it is less by exactly that part. -/
theorem toRat_below {x : Flt} {e : Nat} (hs : x.sgn = false)
    (he : x.mag = (e + 1) * 2 ^ F.fracBits + 2 ^ F.fracBits) :
    F.toRat x.below = F.toRat x * (1 - 1 / (2 * 2 ^ F.fracBits)) := by
  have hP := frac_pos F
  have h1 : F.units x.below = (2 * 2 ^ F.fracBits - 1) * 2 ^ e := by
    rw [← unitsOf_binade_pred, ← he]; rfl
  have h2 : F.units x = 2 ^ F.fracBits * 2 ^ (e + 1) := by rw [← unitsOf_binade, ← he]; rfl
  rw [toRat_of_sgn_false (x := x.below) rfl, toRat_of_sgn_false hs, h1, h2, div_mul_eq_mul_div]
  congr 1
  rw [Nat.cast_mul, Nat.cast_sub (by omega)]
  push_cast
  field_simp
  ring

/-- 1.0 and 2.0 are the first patterns of their binades. -/
theorem one_mag_binade (F : FltFormat) : F.one.mag = (F.bias - 2 + 1) * 2 ^ F.fracBits + 2 ^ F.fracBits := by
  have hb := bias_ge F
  rw [← Nat.succ_mul, show (F.bias - 2 + 1).succ = F.bias by omega]
  rfl

theorem two_mag_binade (F : FltFormat) : (F.ofNat 2).mag = (F.bias - 1 + 1) * 2 ^ F.fracBits + 2 ^ F.fracBits := by
  have hb := bias_ge F
  have hle : (F.bias - 1 + 1) * 2 ^ F.fracBits + 2 ^ F.fracBits ≤ F.infMag := by
    rw [infMag_eq, ← Nat.succ_mul]
    exact Nat.mul_le_mul_right _ (by omega)
  rw [← roundMag_unitsOf hle, unitsOf_binade, ofNat_eq, unitsPerOne_eq, Nat.pow_succ]
  exact congrArg (fun n => F.roundMag n 1) (by ring)

theorem one_posFinite (F : FltFormat) : F.posFinite F.one = true :=
  (posFinite_iff _).2 ⟨rfl, one_mag_pos F, one_mag_lt F⟩

theorem below_isFinite {x : Flt} (hx : F.posFinite x = true) : F.isFinite x.below = true :=
  (isFinite_iff _).2 (Nat.lt_of_le_of_lt (Nat.sub_le _ _) ((posFinite_iff x).1 hx).2.2)

theorem lt_of_le_below {x y : Flt} (hx : F.posFinite x = true) (h : F.le y x.below = true) :
    F.lt y x = true := by
  obtain ⟨hs, hm, hl⟩ := (posFinite_iff x).1 hx
  obtain ⟨hy, -, hk⟩ := (le_iff _ _).1 h
  refine (lt_iff _ _).2 ⟨hy, (not_isNaN_iff x).2 (Nat.le_of_lt hl), ?_⟩
  rw [Flt.key_of_sgn_false hs]
  rw [Flt.key_of_sgn_false (x := x.below) rfl] at hk
  have : x.below.mag = x.mag - 1 := rfl
  omega

/-- Where `y / z` is a power of two, what lies below `y` over `z` is at most the value next below that power. -/
theorem div_le_below {p y z x : Flt} {e : Nat} (hp : p.sgn = false) (hy : F.nonneg y = true)
    (hlt : p.mag < y.mag) (hz : F.posFinite z = true) (hx : F.posFinite x = true)
    (he : x.mag = (e + 1) * 2 ^ F.fracBits + 2 ^ F.fracBits) (hq : F.toRat y = F.toRat x * F.toRat z) :
    F.le (F.div p z) x.below = true := by
  have hxs := ((posFinite_iff x).1 hx).1
  have hym := ((nonneg_iff y).1 hy).2
  have hz0 := toRat_pos hz
  refine div_le_of ((isFinite_iff p).2 (by omega)) (posFinite_isFinite hz)
    (posFinite_not_isZero hz) (below_isFinite hx) ?_
  rw [div_le_iff₀ hz0, toRat_below hxs he]
  calc F.toRat p ≤ F.toRat y * (1 - 1 / (2 * 2 ^ F.fracBits)) := toRat_le_of_mag_lt hy hp hlt
    _ = F.toRat x * (1 - 1 / (2 * 2 ^ F.fracBits)) * F.toRat z := by rw [hq]; ring

/-! ### Known values and results -/

theorem toRat_two (F : FltFormat) : F.toRat (F.ofNat 2) = 2 := by
  rw [toRat_ofNat (by omega)]
  norm_num

theorem toRat_negOne (F : FltFormat) : F.toRat F.negOne = -1 := by
  rw [show F.negOne = F.one.negate from rfl, toRat_neg, toRat_one]

theorem half_isFinite_toRat (F : FltFormat) : F.isFinite F.half = true ∧ F.toRat F.half = 1 / 2 := by
  have h := toRat_ofRat_pow (F := F) (n := 1) (k := 1) (by omega) (by omega)
  have hf := (ofRat_pow_units (F := F) false (n := 1) (k := 1) (by omega) (by omega)).2
  refine ⟨(isFinite_iff _).2 hf, ?_⟩
  rw [pow_one] at h
  rw [half, h]
  norm_num

theorem half_lt_one (F : FltFormat) : F.lt F.half F.one = true := by
  obtain ⟨hf, hh⟩ := half_isFinite_toRat F
  rw [lt_iff_toRat hf one_isFinite, hh, toRat_one]
  norm_num

theorem four_isFinite (F : FltFormat) : F.isFinite F.four = true := ofNat_isFinite (by omega)

theorem four_sgn (F : FltFormat) : F.four.sgn = false := ofNat_sgn 4

theorem zero_between_ones (F : FltFormat) : F.le F.negOne Flt.zero = true ∧ F.le Flt.zero F.one = true := by
  have h : F.le F.one.negate Flt.zero.negate = true := by
    rw [le_negate, le_iff_mag zero_nonneg one_nonneg]
    exact Nat.zero_le _
  refine ⟨?_, (le_iff_mag zero_nonneg one_nonneg).2 (Nat.zero_le _)⟩
  obtain ⟨h1, h2, h3⟩ := (le_iff _ _).1 h
  exact (le_iff _ _).2 ⟨h1, zero_isNaN, h3⟩

/-- What is at least a value above zero is above zero. -/
theorem gt_zero_of_ge {x y : Flt} (hy : F.gt y Flt.zero = true) (h : F.ge x y = true) :
    F.gt x Flt.zero = true := by
  obtain ⟨hz, -, hk⟩ := (lt_iff _ _).1 hy
  obtain ⟨-, hx, hk'⟩ := (le_iff _ _).1 h
  exact (lt_iff _ _).2 ⟨hz, hx, Int.lt_of_lt_of_le hk hk'⟩

/-- A difference in [-1, 1] is rounded into [-1, 1]. -/
theorem sub_between {a b : Flt} (ha : F.isFinite a = true) (hb : F.isFinite b = true)
    (h1 : -1 ≤ F.toRat a - F.toRat b) (h2 : F.toRat a - F.toRat b ≤ 1) :
    F.le F.negOne (F.sub a b) = true ∧ F.le (F.sub a b) F.one = true :=
  ⟨le_sub_of ha hb negOne_isFinite (by rwa [toRat_negOne]),
    sub_le_of ha hb one_isFinite (by rwa [toRat_one])⟩

/-- `4.0 * t` does not leave the whole numbers that bound the exact product. -/
theorem mul_four_between {t : Flt} {lo hi : Nat} (ht : F.isFinite t = true) (hlo : lo ≤ 16777216)
    (hhi : hi ≤ 16777216) (h1 : (lo : ℚ) ≤ 4 * F.toRat t) (h2 : 4 * F.toRat t ≤ hi) :
    F.isFinite (F.mul F.four t) = true ∧ (lo : ℚ) ≤ F.toRat (F.mul F.four t) ∧ F.toRat (F.mul F.four t) ≤ hi := by
  have h4f := four_isFinite F
  have h4 : F.toRat F.four = 4 := by
    rw [four, toRat_ofNat (by omega)]
    norm_num
  have hl := le_mul_of h4f ht (ofNat_isFinite hlo) (by rwa [toRat_ofNat hlo, h4])
  have hu := mul_le_of h4f ht (ofNat_isFinite hhi) (by rwa [toRat_ofNat hhi, h4])
  have hf := isFinite_of_le (ofNat_isFinite hlo) (ofNat_isFinite hhi) hl hu
  refine ⟨hf, ?_, ?_⟩
  · rw [← toRat_ofNat (F := F) hlo]
    exact (le_iff_toRat (ofNat_isFinite hlo) hf).1 hl
  · rw [← toRat_ofNat (F := F) hhi]
    exact (le_iff_toRat hf (ofNat_isFinite hhi)).1 hu

theorem zero_div_posFinite {z : Flt} (hz : F.posFinite z = true) : F.div Flt.zero z = Flt.zero := by
  have hu : F.units Flt.zero = 0 := unitsOf_zero
  rw [div_of_finite zero_isFinite (posFinite_isFinite hz)
    (posFinite_not_isZero hz), hu, Nat.zero_mul, roundMag_zero, ((posFinite_iff z).1 hz).1]
  rfl

theorem div_self_eq_one {z : Flt} (hz : F.posFinite z = true) : F.div z z = F.one := by
  have hz0 := units_pos (posFinite_isFinite hz) (posFinite_not_isZero hz)
  rw [div_of_finite (posFinite_isFinite hz) (posFinite_isFinite hz)
    (posFinite_not_isZero hz), bne_self_eq_false,
    roundMag_congr (n' := F.unitsPerOne) (d' := 1) hz0 Nat.one_pos (by ring), ← one_units,
    roundMag_unitsOf (Nat.le_of_lt (one_mag_lt F))]
  rfl

theorem zero_sub_one (F : FltFormat) : F.sub Flt.zero F.one = F.negOne := by
  have hU := unitsPerOne_pos F
  have hv : F.val Flt.zero - F.val F.one = -(F.unitsPerOne : Int) := by
    rw [val_of_sgn_false one_sgn, val_of_sgn_false Flt.zero_sgn, units,
      units, one_units, Flt.zero_mag, unitsOf_zero]
    exact Int.zero_sub _
  rw [sub_of_val_ne_zero zero_isFinite one_isFinite (by rw [hv]; omega), hv,
    Int.natAbs_neg, Int.natAbs_natCast, ← one_units,
    roundMag_unitsOf (Nat.le_of_lt (one_mag_lt F)), one_units]
  exact congrArg (fun s => (⟨s, F.one.mag⟩ : Flt)) (decide_eq_true (by omega))

theorem one_sub_one (F : FltFormat) : F.sub F.one F.one = Flt.zero := by
  rw [sub_of_val_eq_zero one_isFinite one_isFinite (Int.sub_self _)]
  rfl

theorem mul_four_half (F : FltFormat) : F.mul F.four F.half = F.ofNat 2 := by
  have hU := unitsPerOne_pos F
  have h4 : F.units F.four = 4 * F.unitsPerOne := (ofNat_units (by omega)).1
  have hh : F.units F.half * 2 = 1 * F.unitsPerOne :=
    (ofRat_pow_units (F := F) false (n := 1) (k := 1) (by omega) (by omega)).1
  rw [mul_of_finite (four_isFinite F) (half_isFinite_toRat F).1, h4, ofNat_eq, four_sgn]
  refine congrArg (Flt.mk false) (roundMag_congr hU Nat.one_pos ?_)
  calc 4 * F.unitsPerOne * F.units F.half * 1 = 2 * F.unitsPerOne * (F.units F.half * 2) := by ring
    _ = 2 * F.unitsPerOne * F.unitsPerOne := by rw [hh, Nat.one_mul]

end FltFormat

/-! ### The claims of R14 -/

open Flt FltFormat in
/-- Settles O56: operand class by operand class, then the conversions. -/
theorem fltOperationsRoundOnce : Obligations.FltOperationsRoundOnce := by
  refine ⟨fun F a b => ⟨fun ha hb => ?_, fun h => ⟨cmp_of_nan h, ops_of_nan h⟩, finite_between_infs,
    negInf_lt_posInf F, fun h => if_pos h, fun h => if_neg (by simp [h]), fun h => if_pos h,
    fun h => if_neg (by simp [h]), ⟨rfl, rfl⟩, isFinite_eq_false_iff a, fun ha hb => ?_, fun ha hb => ?_,
    div_by_zero⟩, rfl, fun F n h => ofInt_exact F h, toFLT_binary32,
    fun F imm x hx => hx ▸ ⟨rfl, toFLT_class F imm⟩⟩
  · exact ⟨add_of_val_ne_zero ha hb, add_of_val_eq_zero ha hb, sub_of_val_ne_zero ha hb, sub_of_val_eq_zero ha hb,
      mul_of_finite ha hb, fun h => div_of_finite ha hb (isZero_eq_false h), floor_of_finite ha, lt_iff_val ha hb,
      le_iff_val ha hb, lt_iff_val hb ha, le_iff_val hb ha, eqv_iff_val ha hb⟩
  · obtain ⟨hmul, hnan⟩ := mul_by_inf (isFinite_not_isNaN ha) hb
    exact ⟨add_inf_right ha hb, add_inf_left ha hb, add_inf_left (b := b) (a := a.negate) ha hb,
      add_inf_right (b := b.negate) ha hb, div_by_inf ha hb, inf_div ha hb, fun h => hmul (isZero_eq_false h),
      fun h => hnan (isZero_eq_true h)⟩
  · obtain ⟨hadd, haddn⟩ := add_inf_inf ha hb
    obtain ⟨hsubn, hsub⟩ := sub_inf_inf ha hb
    exact ⟨fun h => ⟨hadd h, hsubn h⟩, fun h => ⟨haddn h, hsub h⟩,
      ((mul_by_inf (isInf_not_isNaN ha) hb).1 (isInf_not_isZero ha)).1, div_inf_inf ha hb⟩

/-- Settles O57: among the multiples of the spacing `divRound` takes the nearest, and no magnitude off that grid is
nearer; above the largest finite magnitude the grid's next multiple is infinity. -/
theorem roundingIsToNearestEven : Obligations.RoundingIsToNearestEven :=
  fun _ _ _ hd => ⟨fun _ hm hf => FltFormat.roundMag_nearest hd hm hf, FltFormat.roundMag_eq_infMag_iff hd⟩

/-- Settles O48: the remainder of two finite magnitudes is itself a magnitude of the format. -/
theorem fmodIsExact : Obligations.FmodIsExact := by
  intro F x y hx hy hxs hys hm
  have hp : F.posFinite y = true := (FltFormat.posFinite_iff y).2 ⟨hys, hm, (FltFormat.isFinite_iff y).1 hy⟩
  exact ⟨FltFormat.units_fmod hx hxs hp, FltFormat.fmod_inRange x hp⟩

end Sys2Proof
end

section
/-! O58, O59, O49: SIN and POW2 (R15), the octave frequencies (R130), the oscillator (R90 to R95, R98). -/

namespace Sys2Proof.Machine

/-! ### SIN and POW2 (R15) -/

/-- A table over a range of indices, its keys told apart, is looked up by index. -/
theorem lookup_map_range {α β : Type} [BEq α] [LawfulBEq α] (f : Nat → α) (g : Nat → β) {n j : Nat} (hj : j < n)
    (hf : ∀ k < n, f k = f j → k = j) : ((List.range n).map fun k => (f k, g k)).lookup (f j) = some (g j) := by
  induction n with
  | zero => omega
  | succ n ih =>
    rw [List.range_succ, List.map_append, List.lookup_append]
    by_cases hjn : j = n
    · subst hjn
      have hnone : ((List.range j).map fun k => (f k, g k)).lookup (f j) = none := by
        rw [List.lookup_eq_none_iff]
        intro p hp
        obtain ⟨k, hk, rfl⟩ := List.mem_map.1 hp
        have hk := List.mem_range.1 hk
        have hne : f k ≠ f j := fun e => by
          have := hf k (by omega) e
          omega
        simpa using hne.symm
      simp [hnone]
    · rw [ih (by omega) fun k hk => hf k (by omega)]
      rfl

/-- POW2_INT (R15). -/
theorem POW2_ofInt (F : FltFormat) {k : Int} (h1 : -6 ≤ k) (h2 : k ≤ 5) :
    POW2 F (F.ofInt k) = F.ofRat false (2 ^ (k + 6).toNat) 64 := by
  have hk : ((k + 6).toNat : Int) - 6 = k := by omega
  have hl : (pow2Table F).lookup (F.ofInt k) = some (F.ofRat false (2 ^ (k + 6).toNat) 64) := by
    have := lookup_map_range (fun j : Nat => F.ofInt ((j : Int) - 6)) (fun j => F.ofRat false (2 ^ j) 64)
      (n := 12) (j := (k + 6).toNat) (by omega) fun j hj e => by
        have := FltFormat.ofInt_injective F (by omega) (by omega) e
        omega
    simp only [hk] at this
    exact this
  unfold POW2
  rw [hl]

@[simp] theorem SIN_zero (F : FltFormat) : SIN F Flt.zero = Flt.zero := if_pos rfl

/-- SIN_RANGE (R15). -/
theorem SIN_range {F : FltFormat} {x : Flt} (hx : F.isFinite x = true) :
    F.le F.negOne (SIN F x) = true ∧ F.le (SIN F x) F.one = true := by
  unfold SIN
  split
  · exact FltFormat.zero_between_ones F
  · split
    · exact FltFormat.zero_between_ones F
    · rename_i h
      simpa [hx] using h

/-- Settles O58: SIN and POW2 are the free functions with just these properties imposed. -/
theorem sinAndPow2Properties : Obligations.SinAndPow2Properties := by
  refine fun F => ⟨SIN_zero F, fun x hx => SIN_range hx, fun k h1 h2 => POW2_ofInt F h1 h2, fun x hx => ?_⟩
  have hp := POW2_posFinite hx
  exact ⟨(FltFormat.gt_zero_iff (FltFormat.posFinite_nonneg hp)).2 ((FltFormat.posFinite_iff _).1 hp).2.1,
    FltFormat.posFinite_isFinite hp⟩

/-! ### Octave frequencies (R130) -/

/-- The distance of note `69 + 12 k` from A4, in octaves, is exactly `k` (R130). -/
theorem octaves_eq_ofInt (F : FltFormat) {k : Int} (h1 : -5 ≤ k) (h2 : k ≤ 4) :
    F.div (F.sub (F.ofNat (69 + 12 * k).toNat) F.a4Note) F.semitones = F.ofInt k := by
  have e : (((69 + 12 * k).toNat : Int) - (69 : Nat)) = (12 : Nat) * k := by omega
  rw [FltFormat.a4Note, FltFormat.semitones, FltFormat.sub_ofNat F (by omega) (by omega), e,
    FltFormat.div_ofInt_mul F (by omega) (by omega) (by omega)]

/-- Settles O59: every operation of the formula is exact at a whole number of octaves. -/
theorem octaveFrequenciesAreExact : Obligations.OctaveFrequenciesAreExact := by
  refine fun F => ⟨fun note _ => rfl, fun k h1 h2 => ?_⟩
  have hpow : 2 ^ (k + 6).toNat ≤ 2 ^ 10 := Nat.pow_le_pow_right (by omega) (by omega)
  rw [FREQ_eq, octaves_eq_ofInt F h1 h2, POW2_ofInt F (by omega) (by omega), FltFormat.a4Freq,
    FltFormat.mul_ofNat_ofRat F (by omega) (by omega)]
  refine congrArg (Flt.mk false) (FltFormat.roundMag_congr (by omega) (by omega) ?_)
  rw [show (k + 6).toNat = (k + 5).toNat + 1 by omega, Nat.pow_succ]
  ring

/-! ### PI and TWO_PI (R16) -/

/-- The patterns of R16. -/
theorem pi_patterns : FltFormat.binary32.pi = Flt.ofBits32 0x40490FDB#32 ∧
    FltFormat.binary32.twoPi = Flt.ofBits32 0x40C90FDB#32 := by decide +kernel

theorem pi_units_le (F : FltFormat) : F.units F.pi ≤ 4 * F.unitsPerOne := by
  rw [← (FltFormat.ofNat_units (F := F) (n := 4) (by omega)).1]
  exact FltFormat.unitsOf_mono (pi_bounds F).2 (Nat.le_of_lt (FltFormat.ofNat_mag_lt (by omega)))

/-- TWO_PI is exactly twice PI (R16). -/
theorem twoPi_units (F : FltFormat) : F.units F.twoPi = 2 * F.units F.pi := by
  have hpf := FltFormat.posFinite_isFinite (pi_posFinite F)
  have h2 : F.units (F.ofNat 2) = 2 * F.unitsPerOne := (FltFormat.ofNat_units (by omega)).1
  unfold FltFormat.twoPi
  rw [FltFormat.mul_of_finite (FltFormat.ofNat_isFinite (by omega)) hpf, h2]
  show F.unitsOf (F.roundMag _ _) = _
  rw [FltFormat.roundMag_congr (n' := 2 * F.units F.pi) (d' := 1) (FltFormat.unitsPerOne_pos F) Nat.one_pos (by ring)]
  exact (FltFormat.roundMag_double ((FltFormat.isFinite_iff _).1 hpf) (pi_units_le F)).1

theorem toRat_twoPi (F : FltFormat) : F.toRat F.twoPi = 2 * F.toRat F.pi := by
  have hs : F.twoPi.sgn = false := ((FltFormat.posFinite_iff _).1 (twoPi_posFinite F)).1
  rw [FltFormat.toRat_of_sgn_false hs, FltFormat.toRat_of_sgn_false (x := F.pi) rfl, twoPi_units]
  push_cast
  ring

/-! ### A phase in range -/

section Phase

variable {F : FltFormat} {p : Flt} (hp : F.inRange F.twoPi p = true)

include hp

theorem phase_sgn_mag : p.sgn = false ∧ p.mag < F.twoPi.mag :=
  (FltFormat.inRange_iff (FltFormat.posFinite_nonneg (twoPi_posFinite F))).1 hp

theorem phase_isFinite : F.isFinite p = true := by
  have hl := ((FltFormat.posFinite_iff _).1 (twoPi_posFinite F)).2.2
  exact (FltFormat.isFinite_iff p).2 (Nat.lt_trans (phase_sgn_mag hp).2 hl)

theorem phase_nonneg : F.nonneg p = true :=
  (FltFormat.nonneg_iff p).2 ⟨(phase_sgn_mag hp).1, Nat.le_of_lt ((FltFormat.isFinite_iff p).1 (phase_isFinite hp))⟩

/-- The phase over PI stays below 2.0 (R93). -/
theorem div_pi_le_below : F.le (F.div p F.pi) (F.ofNat 2).below = true :=
  FltFormat.div_le_below (phase_sgn_mag hp).1 (FltFormat.posFinite_nonneg (twoPi_posFinite F)) (phase_sgn_mag hp).2
    (pi_posFinite F) (FltFormat.ofNat_posFinite (by omega) (by omega)) (FltFormat.two_mag_binade F)
    (by rw [toRat_twoPi, FltFormat.toRat_two])

/-- The phase over TWO_PI stays below 1.0 (R94). -/
theorem div_twoPi_le_below : F.le (F.div p F.twoPi) F.one.below = true :=
  FltFormat.div_le_below (phase_sgn_mag hp).1 (FltFormat.posFinite_nonneg (twoPi_posFinite F)) (phase_sgn_mag hp).2
    (twoPi_posFinite F) (FltFormat.one_posFinite F) (FltFormat.one_mag_binade F) (by rw [FltFormat.toRat_one, one_mul])

theorem phase_div_nonneg {z : Flt} (hz : F.posFinite z = true) : F.nonneg (F.div p z) = true :=
  FltFormat.div_nonneg (phase_nonneg hp) hz

end Phase

/-! ### The four waveforms (R91 to R94) -/

/-- A value in [0, 1) is its own fractional part: its floor is +0.0 and the difference is exact. -/
theorem fracPart_of_lt_one {F : FltFormat} {x : Flt} (hn : F.nonneg x = true) (h : F.lt x F.one = true) :
    fracPart F x = x := by
  obtain ⟨hs, hm⟩ := (FltFormat.nonneg_iff x).1 hn
  have hlt := (FltFormat.lt_iff_mag hn FltFormat.one_nonneg).1 h
  have hf : F.isFinite x = true := (FltFormat.isFinite_iff x).2 (Nat.lt_trans hlt (FltFormat.one_mag_lt F))
  have hv := FltFormat.val_of_sgn_false (F := F) hs
  have hu : F.val x < F.unitsPerOne := by
    have := (FltFormat.lt_iff_val hf FltFormat.one_isFinite).1 h
    rwa [FltFormat.val_of_sgn_false FltFormat.one_sgn, FltFormat.units, FltFormat.one_units] at this
  have hfloor : F.floor x = Flt.zero := by
    rw [FltFormat.floor, if_pos hf, Int.ediv_eq_zero_of_lt (by rw [hv]; exact Int.natCast_nonneg _) hu, Int.zero_mul,
      show (0 : Int) = ((0 : Nat) : Int) from rfl, FltFormat.ofUnits_natCast, FltFormat.roundMag_zero]
    rfl
  have hv0 : F.val Flt.zero = 0 := by simp [FltFormat.val, FltFormat.units]
  rw [fracPart, hfloor]
  by_cases h0 : F.val x = 0
  · rw [FltFormat.sub_of_val_eq_zero hf FltFormat.zero_isFinite (by rw [h0, hv0]; rfl)]
    have hx0 : F.unitsOf x.mag = 0 := by
      rw [hv] at h0
      exact_mod_cast h0
    refine Flt.ext_sgn_mag (by simp [hs]) ?_
    rw [← FltFormat.roundMag_unitsOf hm, hx0, FltFormat.roundMag_zero]
    simp [hs]
  · have hd : F.val x - F.val Flt.zero = F.val x := by rw [hv0]; exact Int.sub_zero _
    rw [FltFormat.sub_of_val_ne_zero hf FltFormat.zero_isFinite (by rwa [hd]), hd, hv, Int.natAbs_natCast]
    exact Flt.ext_sgn_mag (by simp [hs]) (FltFormat.roundMag_unitsOf hm)

/-- The saw of a phase in range is in [-1, 1) (R93). -/
theorem oscSaw_range {F : FltFormat} {p : Flt} (hp : F.inRange F.twoPi p = true) :
    F.le F.negOne (oscSaw F p) = true ∧ F.lt (oscSaw F p) F.one = true := by
  have h2 : F.posFinite (F.ofNat 2) = true := FltFormat.ofNat_posFinite (by omega) (by omega)
  have hle := div_pi_le_below hp
  have hn := phase_div_nonneg hp (pi_posFinite F)
  have hf : F.isFinite (F.div p F.pi) = true :=
    FltFormat.isFinite_of_le FltFormat.zero_isFinite (FltFormat.below_isFinite h2)
    ((FltFormat.le_iff_mag FltFormat.zero_nonneg hn).2 (Nat.zero_le _)) hle
  have h0 := FltFormat.toRat_nonneg_of_sgn (F := F) ((FltFormat.nonneg_iff _).1 hn).1
  have hup := (FltFormat.le_iff_toRat hf (FltFormat.below_isFinite h2)).1 hle
  rw [FltFormat.toRat_below (FltFormat.ofNat_sgn 2) (FltFormat.two_mag_binade F), FltFormat.toRat_two] at hup
  have hw : (0 : ℚ) ≤ 1 / (2 * 2 ^ F.fracBits) := by positivity
  constructor
  · refine FltFormat.le_sub_of hf FltFormat.one_isFinite FltFormat.negOne_isFinite ?_
    rw [FltFormat.toRat_negOne, FltFormat.toRat_one]
    linarith
  · refine FltFormat.lt_of_le_below (FltFormat.one_posFinite F)
      (FltFormat.sub_le_of hf FltFormat.one_isFinite (FltFormat.below_isFinite (FltFormat.one_posFinite F)) ?_)
    rw [FltFormat.toRat_below FltFormat.one_sgn (FltFormat.one_mag_binade F), FltFormat.toRat_one]
    linarith

/-- The triangle, its normalised phase written out. -/
theorem oscTri_eq (F : FltFormat) (p : Flt) : oscTri F p =
    if F.lt (fracPart F (F.div p F.twoPi)) F.half then F.sub (F.mul F.four (fracPart F (F.div p F.twoPi))) F.one
    else F.sub F.three (F.mul F.four (fracPart F (F.div p F.twoPi))) := rfl

/-- The triangle of a phase in range is in [-1, 1] (R94). -/
theorem oscTri_range {F : FltFormat} {p : Flt} (hp : F.inRange F.twoPi p = true) :
    F.le F.negOne (oscTri F p) = true ∧ F.le (oscTri F p) F.one = true := by
  have hlt := FltFormat.lt_of_le_below (FltFormat.one_posFinite F) (div_twoPi_le_below hp)
  have hn := phase_div_nonneg hp (twoPi_posFinite F)
  rw [oscTri_eq, fracPart_of_lt_one hn hlt]
  generalize F.div p F.twoPi = t at *
  obtain ⟨hhf, hh⟩ := FltFormat.half_isFinite_toRat F
  have htf : F.isFinite t = true := (FltFormat.isFinite_iff t).2
    (Nat.lt_trans ((FltFormat.lt_iff_mag hn FltFormat.one_nonneg).1 hlt) (FltFormat.one_mag_lt F))
  have h0 := FltFormat.toRat_nonneg_of_sgn (F := F) ((FltFormat.nonneg_iff t).1 hn).1
  have h1 := (FltFormat.lt_iff_toRat htf FltFormat.one_isFinite).1 hlt
  rw [FltFormat.toRat_one] at h1
  have hhalf := FltFormat.lt_iff_toRat htf hhf
  rw [hh] at hhalf
  split
  · rename_i hc
    have hc := hhalf.1 hc
    obtain ⟨hf, hl, hu⟩ := FltFormat.mul_four_between (lo := 0) (hi := 2) htf (by omega) (by omega)
      (by push_cast; linarith) (by push_cast; linarith)
    push_cast at hl hu
    exact FltFormat.sub_between hf FltFormat.one_isFinite (by rw [FltFormat.toRat_one]; linarith)
      (by rw [FltFormat.toRat_one]; linarith)
  · rename_i hc
    have hc : 1 / 2 ≤ F.toRat t := not_lt.1 fun h => hc (hhalf.2 h)
    obtain ⟨hf, hl, hu⟩ := FltFormat.mul_four_between (lo := 2) (hi := 4) htf (by omega) (by omega)
      (by push_cast; linarith) (by push_cast; linarith)
    push_cast at hl hu
    have h3 : F.toRat F.three = 3 := by
      rw [FltFormat.three, FltFormat.toRat_ofNat (by omega)]
      norm_num
    exact FltFormat.sub_between (FltFormat.ofNat_isFinite (by omega)) hf (by rw [h3]; linarith) (by rw [h3]; linarith)

theorem oscSquare_values (F : FltFormat) (p : Flt) : oscSquare F p = F.negOne ∨ oscSquare F p = F.one := by
  unfold oscSquare
  split
  · exact .inr rfl
  · exact .inl rfl

/-- PI over TWO_PI is exactly one half. -/
theorem pi_div_twoPi (F : FltFormat) : F.div F.pi F.twoPi = F.half := by
  have hz := twoPi_posFinite F
  have hpi := pi_posFinite F
  have hp0 := FltFormat.units_pos (FltFormat.posFinite_isFinite hpi) (FltFormat.posFinite_not_isZero hpi)
  rw [FltFormat.div_of_finite (FltFormat.posFinite_isFinite hpi) (FltFormat.posFinite_isFinite hz)
    (FltFormat.posFinite_not_isZero hz), twoPi_units, ((FltFormat.posFinite_iff _).1 hz).1]
  exact congrArg (Flt.mk false) (FltFormat.roundMag_congr (by omega) (by omega) (by ring))

theorem oscTri_zero (F : FltFormat) : oscTri F Flt.zero = F.negOne := by
  have h1 : F.lt Flt.zero F.one = true :=
    (FltFormat.lt_iff_mag FltFormat.zero_nonneg FltFormat.one_nonneg).2 (FltFormat.one_mag_pos F)
  obtain ⟨hf, hh⟩ := FltFormat.half_isFinite_toRat F
  have h2 : F.lt Flt.zero F.half = true := by
    rw [FltFormat.lt_iff_toRat FltFormat.zero_isFinite hf, hh, FltFormat.toRat_zero]
    norm_num
  have hm : F.mul F.four Flt.zero = Flt.zero := by
    have hu : F.units Flt.zero = 0 := FltFormat.unitsOf_zero
    rw [FltFormat.mul_of_finite (FltFormat.four_isFinite F) FltFormat.zero_isFinite, hu, Nat.mul_zero,
      FltFormat.roundMag_zero, FltFormat.four_sgn]
    rfl
  rw [oscTri_eq, FltFormat.zero_div_posFinite (twoPi_posFinite F), fracPart_of_lt_one FltFormat.zero_nonneg h1,
    if_pos h2, hm, FltFormat.zero_sub_one]

theorem oscTri_pi (F : FltFormat) : oscTri F F.pi = F.one := by
  have hn : F.nonneg F.half = true := FltFormat.nonneg_mk (FltFormat.roundMag_le _ _)
  have hh : F.lt F.half F.half = false := by simp [FltFormat.lt]
  rw [oscTri_eq, pi_div_twoPi, fracPart_of_lt_one hn (FltFormat.half_lt_one F), hh,
    if_neg Bool.false_ne_true, FltFormat.mul_four_half, FltFormat.three,
    FltFormat.sub_ofNat F (by omega) (by omega), FltFormat.ofInt_eq, ← FltFormat.ofNat_one, FltFormat.ofNat_eq]
  rfl

/-- The oscillator's named values. -/
theorem osc_named_values (F : FltFormat) : osc F .sine Flt.zero = Flt.zero ∧ osc F .square Flt.zero = F.one ∧
    osc F .saw Flt.zero = F.negOne ∧ osc F .saw F.pi = Flt.zero ∧ osc F .tri Flt.zero = F.negOne ∧
    osc F .tri F.pi = F.one := by
  refine ⟨SIN_zero F, ?_, ?_, ?_, oscTri_zero F, oscTri_pi F⟩
  · have h : F.ge (SIN F Flt.zero) Flt.zero = true := by
      rw [SIN_zero]
      exact (FltFormat.le_iff_mag FltFormat.zero_nonneg FltFormat.zero_nonneg).2 (Nat.le_refl _)
    rw [osc, oscSquare, if_pos h]
  · show F.sub (F.div Flt.zero F.pi) F.one = F.negOne
    rw [FltFormat.zero_div_posFinite (pi_posFinite F), FltFormat.zero_sub_one]
  · show F.sub (F.div F.pi F.pi) F.one = Flt.zero
    rw [FltFormat.div_self_eq_one (pi_posFinite F), FltFormat.one_sub_one]

/-- Settles O49: the formulas are the model's own; a phase in range divided by PI or TWO_PI stays a whole pattern
below 2.0 or 1.0, and what follows is bounded by monotone rounding. -/
theorem oscillatorRange : Obligations.OscillatorRange := by
  refine ⟨pi_patterns.1, pi_patterns.2, fun F => ⟨⟨twoPi_units F, FltFormat.posFinite_isFinite (twoPi_posFinite F)⟩,
    fun p => ⟨rfl, rfl, rfl, fun t ht => ?_⟩, osc_named_values F, fun p hp => ?_⟩⟩
  · rw [ht]; rfl
  · exact ⟨oscSaw_range hp, oscTri_range hp, oscSquare_values F p, SIN_range (phase_isFinite hp)⟩

end Sys2Proof.Machine
end

section
/-! O18, O19: what no step changes, and the state after RESET. -/

namespace Sys2Proof.Machine

/-! ### What no step changes (R9, R44) -/

theorem doReset_cfg (s : State) (c : ResetConfig) : (s.doReset c).cfg = s.cfg := by
  rcases doReset_cases c s with ⟨-, e⟩ | ⟨-, e⟩ <;> rw [e] <;> rfl

/-- Settles O18: by the moves a step can take; a RESET keeps the parameters, and a command SR and DT too. -/
theorem rateAndParametersAreFixed : Obligations.RateAndParametersAreFixed := by
  intro s t h
  rcases step_next h with ⟨-, rfl⟩ | ⟨c, rest, hi, rfl⟩ | ⟨w, rest, -, hw⟩
  · exact ⟨rfl, fun _ => ⟨rfl, rfl⟩⟩
  · exact ⟨doReset_cfg _ c, fun hn => absurd hi (hn c rest)⟩
  · rcases hw with ⟨_, _, -, rfl⟩ | ⟨-, _, -, rfl⟩ | ⟨-, i, -, he⟩
    · exact ⟨rfl, fun _ => ⟨rfl, rfl⟩⟩
    · exact ⟨rfl, fun _ => ⟨rfl, rfl⟩⟩
    · obtain ⟨hc, hsr, hdt, -⟩ := exec_fixed he
      exact ⟨hc, fun _ => ⟨hsr, hdt⟩⟩

/-! ### The state after RESET(48000, 8) (R220) -/

/-- ATTACK_DEFAULT, 48000, 1/48000 and 1000 as binary32 patterns (R10, R44). -/
theorem reset_patterns :
    FltFormat.binary32.attackDefault = Flt.ofBits32 0x3BA3D70A#32 ∧
      FltFormat.binary32.ofNat 48000 = Flt.ofBits32 0x473B8000#32 ∧
      FltFormat.binary32.div FltFormat.binary32.one (FltFormat.binary32.ofNat 48000) = Flt.ofBits32 0x37AEC33E#32 ∧
      FltFormat.binary32.msPerS = Flt.ofBits32 0x447A0000#32 := by decide +kernel

/-- Settles O19: field by field, the rounded constants being the patterns the rules give. -/
theorem resetStateIsAsTheRulesSay : Obligations.ResetStateIsAsTheRulesSay := by
  obtain ⟨hattack, hsr, hdt, hms⟩ := reset_patterns
  have hglide : State.reset.glide =
      FltFormat.binary32.div State.reset.cfg.defaultGlideMs (Flt.ofBits32 0x447A0000#32) := by
    rw [← hms]; rfl
  exact ⟨rfl, rfl, rfl, hattack, rfl, rfl, rfl, hglide, rfl, rfl, hsr, hdt, rfl, rfl, rfl, rfl⟩

end Sys2Proof.Machine
end

section
/-! O24: the pitch invariants under every step of the host (R32 item 4, R33 item 4, R96). -/

namespace Sys2Proof.Machine

/-! ### The slots a command leaves (R151, R152, R156, R158, R160) -/

/-- A NOTE operand that a word holds is a note number (R67). -/
theorem note_le_of_decode {w : Word} {note vel : Nat} (h : decode w = .ok (.noteOn note vel)) : note ≤ 127 := by
  obtain ⟨r, -, -, hi⟩ := (decode_ok_iff w _).1 h
  cases hop : r.op <;> rw [hop] at hi <;> simp only [Op.assemble, reduceCtorEq] at hi
  obtain ⟨rfl, -⟩ := Instr.noteOn.inj hi
  have : field w 54 48 < 2 ^ (54 + 1 - 48) := BitVec.isLt _
  exact Nat.le_of_lt_succ this

/-- Where the slots come from that a command other than TICK and RENDER leaves: kept, reset, released, or
written by a NOTE_ON, which retriggers active slots only. -/
inductive SlotAfter (s : State) : Instr → Voice → Prop
  | kept {i : Instr} {v : Voice} (h : v ∈ s.voices) : SlotAfter s i v
  | reset {i : Instr} : SlotAfter s i Voice.reset
  | keyUp {i : Instr} {v : Voice} (pedal : Bool) (h : v ∈ s.voices) : SlotAfter s i (v.keyUp pedal)
  | pedalUp {i : Instr} {v : Voice} (h : v ∈ s.voices) : SlotAfter s i v.pedalUp
  | retriggered {v : Voice} (note vel : Nat) (h : v ∈ s.voices) (ha : v.active = true) :
      SlotAfter s (.noteOn note vel) (retrigger s (FREQ s.fmt note) (VELSCALE s.fmt vel) v)
  | claimed {v : Voice} (note vel : Nat) (h : v ∈ s.voices) :
      SlotAfter s (.noteOn note vel) (claim s note (FREQ s.fmt note) (VELSCALE s.fmt vel) v)

/-- NOTE_ON writes one slot: the holder, which is active, or the free or stolen one (R154). -/
theorem noteOn_slotAfter {s : State} {note vel : Nat} {v : Voice} (hv : v ∈ (s.noteOn note vel).voices) :
    SlotAfter s (.noteOn note vel) v := by
  rcases noteOn_cases note vel s with ⟨j, hj, e⟩ | ⟨k, -, -, e⟩ | ⟨-, -, e⟩ <;>
    rw [e, State.modifySlot_voices] at hv
  · obtain ⟨u, hu, hh, -⟩ := findNote_some hj
    rw [modify_eq_set hu] at hv
    rcases List.mem_or_eq_of_mem_set hv with hv | rfl
    · exact .kept hv
    · have ha : u.active = true := by
        simp only [Voice.holds, Bool.and_eq_true] at hh
        exact hh.1
      exact .retriggered note vel (List.mem_of_getElem? hu) ha
  · rcases mem_modify hv with hv | ⟨u, hu, rfl⟩
    · exact .kept hv
    · exact .claimed note vel hu
  · rcases mem_modify hv with hv | ⟨u, hu, rfl⟩
    · exact .kept hv
    · exact .claimed note vel hu

theorem exec_slotAfter {i : Instr} {s t : State} (h : exec i s = .next t) (hk : i ≠ .tick)
    (hr : ∀ u, i ≠ .render u) {v : Voice} (hv : v ∈ t.voices) : SlotAfter s i v := by
  cases i with
  | tick => exact absurd rfl hk
  | render u => exact absurd rfl (hr u)
  | noteOn note vel =>
    rw [exec_noteOn] at h
    cases h
    exact noteOn_slotAfter hv
  | noteOff note =>
    rw [exec_noteOff] at h
    cases h
    obtain ⟨u, hu, rfl⟩ := List.mem_map.1 hv
    unfold releaseNote
    split
    · exact .keyUp s.pedal hu
    · exact .kept hu
  | sustainPedal down =>
    rw [exec_sustainPedal] at h
    cases h
    simp only [pedalVoices] at hv
    split at hv
    · obtain ⟨u, hu, rfl⟩ := List.mem_map.1 hv
      exact .pedalUp hu
    · exact .kept hv
  | setPoly u =>
    rw [exec_setPoly] at h
    cases h
    rcases mem_resize hv with hv | rfl
    · exact .kept hv
    · exact .reset
  | setWave u =>
    rw [exec_setWave] at h
    cases h
    exact .kept hv
  | setAttack imm => rcases execSetAttack_next h with ⟨_, _, rfl⟩ | ⟨_, rfl⟩ <;> exact .kept hv
  | setDecay imm => rcases execSetDecay_next h with ⟨_, _, rfl⟩ | ⟨_, rfl⟩ <;> exact .kept hv
  | setSustain imm => rcases execSetSustain_next h with ⟨_, _, rfl⟩ | ⟨_, rfl⟩ <;> exact .kept hv
  | setRelease imm => rcases execSetRelease_next h with ⟨_, _, rfl⟩ | ⟨_, rfl⟩ <;> exact .kept hv
  | setGlide imm => rcases execSetGlide_next h with ⟨_, _, rfl⟩ | ⟨_, rfl⟩ <;> exact .kept hv
  | setGain imm => rcases execSetGain_next h with ⟨_, _, rfl⟩ | ⟨_, rfl⟩ <;> exact .kept hv

/-- A command keeps P.GLIDE, or stores a legal time (R134). -/
theorem exec_glide {i : Instr} {s t : State} (h : exec i s = .next t) :
    t.glide = s.glide ∨ s.fmt.nonneg t.glide = true := by
  cases i with
  | noteOn n v =>
    rw [exec_noteOn, noteOn_rest] at h
    cases h; exact .inl rfl
  | render u =>
    rw [exec_render, ticks_rest] at h
    cases h; exact .inl rfl
  | setGlide imm =>
    rcases execSetGlide_next h with ⟨x, hx, rfl⟩ | ⟨_, rfl⟩
    · exact .inr (msToS_nonneg (sanTime_nonneg hx))
    · exact .inl rfl
  | noteOff _ | sustainPedal _ | setWave _ | setPoly _ | tick => cases h; exact .inl rfl
  | setAttack _ => rcases execSetAttack_next h with ⟨_, _, rfl⟩ | ⟨_, rfl⟩ <;> exact .inl rfl
  | setDecay _ => rcases execSetDecay_next h with ⟨_, _, rfl⟩ | ⟨_, rfl⟩ <;> exact .inl rfl
  | setSustain _ => rcases execSetSustain_next h with ⟨_, _, rfl⟩ | ⟨_, rfl⟩ <;> exact .inl rfl
  | setRelease _ => rcases execSetRelease_next h with ⟨_, _, rfl⟩ | ⟨_, rfl⟩ <;> exact .inl rfl
  | setGain _ => rcases execSetGain_next h with ⟨_, _, rfl⟩ | ⟨_, rfl⟩ <;> exact .inl rfl

/-! ### The pitch of a slot -/

/-- A slot that keeps its pitch and phase and is not newly active keeps what is said of its pitch. -/
theorem Voice.PitchOk.of_eq {F : FltFormat} {u v : Voice} (h : u.PitchOk F)
    (ha : v.active = true → u.active = true) (ht : v.freqTarget = u.freqTarget)
    (hc : v.freqCurrent = u.freqCurrent) (hp : v.phase = u.phase) : v.PitchOk F where
  above hv := by rw [ht]; exact h.above (ha hv)
  target := by rw [ht]; exact h.target
  current := by rw [hc]; exact h.current
  phase := by rw [hp]; exact h.phase

theorem Voice.TunedOk.of_eq {F : FltFormat} {u v : Voice} (h : u.TunedOk F)
    (ha : v.active = true → u.active = true) (ht : v.freqTarget = u.freqTarget)
    (hc : v.freqCurrent = u.freqCurrent) (hp : v.phase = u.phase) : v.TunedOk F where
  target hv := by rw [ht]; exact h.target (ha hv)
  current hv := by rw [hc]; exact h.current (ha hv)
  ceiling := by rw [hc]; exact h.ceiling
  phase := by rw [hp]; exact h.phase

theorem zero_inRange_twoPi (F : FltFormat) : F.inRange F.twoPi Flt.zero = true :=
  (FltFormat.inRange_iff (FltFormat.posFinite_nonneg (twoPi_posFinite F))).2
    ⟨rfl, ((FltFormat.posFinite_iff _).1 (twoPi_posFinite F)).2.1⟩

theorem Voice.reset_pitchOk (F : FltFormat) : Voice.reset.PitchOk F where
  above h := by simp [Voice.reset] at h
  target := FltFormat.nonneg_notNeg FltFormat.zero_nonneg
  current := FltFormat.nonneg_notNeg FltFormat.zero_nonneg
  phase := .inr (zero_inRange_twoPi F)

theorem Voice.reset_tunedOk (F : FltFormat) : Voice.reset.TunedOk F where
  target h := by simp [Voice.reset] at h
  current h := by simp [Voice.reset] at h
  ceiling := FltFormat.zero_le_ofNat F _
  phase := zero_inRange_twoPi F

theorem retrigger_pitchOk {s : State} {f vel : Flt} {v : Voice} (hf : s.fmt.gt f Flt.zero = true)
    (h : v.PitchOk s.fmt) : (retrigger s f vel v).PitchOk s.fmt where
  above _ := hf
  target := FltFormat.notNeg_of_gt_zero hf
  current := by
    simp only [retrigger]
    split
    · exact FltFormat.notNeg_of_gt_zero hf
    · exact h.current
  phase := h.phase

theorem claim_pitchOk {s : State} {note : Nat} {f vel : Flt} {v : Voice} (hf : s.fmt.gt f Flt.zero = true)
    (h : v.PitchOk s.fmt) : (claim s note f vel v).PitchOk s.fmt where
  above _ := hf
  target := FltFormat.notNeg_of_gt_zero hf
  current := by
    simp only [claim]
    split
    · exact FltFormat.notNeg_of_gt_zero hf
    · rcases FltFormat.max_eq (F := s.fmt) v.freqCurrent s.fmt.glideFloor with ⟨e, -⟩ | ⟨e, -⟩ <;> rw [e]
      · exact h.current
      · exact FltFormat.nonneg_notNeg (FltFormat.ofNat_nonneg _)
  phase := .inr (zero_inRange_twoPi _)

/-- A tuned frequency is above zero and below the ceiling. -/
theorem tuned_pos_ceiling {F : FltFormat} {f : Flt} (h : tuned F f = true) :
    F.gt f Flt.zero = true ∧ F.le f (F.ofNat 32768) = true := by
  obtain ⟨hf, h8, hm⟩ := tuned_bounds h
  constructor
  · refine (FltFormat.lt_iff_toRat FltFormat.zero_isFinite hf).2 ?_
    rw [FltFormat.toRat_zero]; linarith
  · rw [FltFormat.le_iff_toRat hf (ceiling_isFinite F), ceiling_toRat]
    linarith

theorem glideFloor_pos_ceiling (F : FltFormat) :
    F.gt F.glideFloor Flt.zero = true ∧ F.le F.glideFloor (F.ofNat 32768) = true := by
  have hn : F.nonneg F.glideFloor = true := FltFormat.ofNat_nonneg _
  exact ⟨(FltFormat.gt_zero_iff hn).2 (FltFormat.ofNat_mag_pos (by omega)),
    (FltFormat.le_iff_mag hn (FltFormat.ofNat_nonneg _)).2 (FltFormat.ofNat_mono (by omega))⟩

theorem retrigger_tunedOk {s : State} {f vel : Flt} {v : Voice} (hf : tuned s.fmt f = true)
    (ha : v.active = true) (h : v.TunedOk s.fmt) : (retrigger s f vel v).TunedOk s.fmt where
  target _ := hf
  current _ := by
    simp only [retrigger]
    split
    · exact (tuned_pos_ceiling hf).1
    · exact h.current ha
  ceiling := by
    simp only [retrigger]
    split
    · exact (tuned_pos_ceiling hf).2
    · exact h.ceiling
  phase := h.phase

theorem claim_tunedOk {s : State} {note : Nat} {f vel : Flt} {v : Voice} (hf : tuned s.fmt f = true)
    (h : v.TunedOk s.fmt) : (claim s note f vel v).TunedOk s.fmt := by
  have hcur : s.fmt.gt (claim s note f vel v).freqCurrent Flt.zero = true ∧
      s.fmt.le (claim s note f vel v).freqCurrent (s.fmt.ofNat 32768) = true := by
    simp only [claim]
    split
    · exact tuned_pos_ceiling hf
    · have hg := glideFloor_pos_ceiling s.fmt
      rcases FltFormat.max_eq (F := s.fmt) v.freqCurrent s.fmt.glideFloor with ⟨e, hge⟩ | ⟨e, -⟩ <;> rw [e]
      · exact ⟨FltFormat.gt_zero_of_ge hg.1 hge, h.ceiling⟩
      · exact hg
  exact ⟨fun _ => hf, fun _ => hcur.1, hcur.2, zero_inRange_twoPi _⟩

theorem SlotAfter.pitchOk {s : State} {i : Instr} {v : Voice} (h : SlotAfter s i v)
    (hs : ∀ u ∈ s.voices, u.PitchOk s.fmt) (hn : ∀ note vel, i = .noteOn note vel → note ≤ 127) :
    v.PitchOk s.fmt := by
  cases h with
  | kept h => exact hs _ h
  | reset => exact Voice.reset_pitchOk _
  | keyUp p h => exact (hs _ h).of_eq id rfl rfl rfl
  | pedalUp h => exact (hs _ h).of_eq id rfl rfl rfl
  | retriggered note vel h ha => exact retrigger_pitchOk (FREQ_pos _ (hn note vel rfl)) (hs _ h)
  | claimed note vel h => exact claim_pitchOk (FREQ_pos _ (hn note vel rfl)) (hs _ h)

theorem SlotAfter.tunedOk {s : State} {i : Instr} {v : Voice} (h : SlotAfter s i v)
    (hs : ∀ u ∈ s.voices, u.TunedOk s.fmt)
    (hn : ∀ note vel, i = .noteOn note vel → tuned s.fmt (FREQ s.fmt note) = true) : v.TunedOk s.fmt := by
  cases h with
  | kept h => exact hs _ h
  | reset => exact Voice.reset_tunedOk _
  | keyUp p h => exact (hs _ h).of_eq id rfl rfl rfl
  | pedalUp h => exact (hs _ h).of_eq id rfl rfl rfl
  | retriggered note vel h ha => exact retrigger_tunedOk (hn note vel rfl) ha (hs _ h)
  | claimed note vel h => exact claim_tunedOk (hn note vel rfl) (hs _ h)

/-! ### A tick (R96, R131, R180) -/

theorem PitchInv.dt_notNeg {s : State} (h : PitchInv s) : s.fmt.notNeg s.dt = true := by
  rw [h.dt]
  exact FltFormat.nonneg_notNeg (FltFormat.div_nonneg FltFormat.one_nonneg h.sr)

theorem phaseInc_notNeg {F : FltFormat} {sr f : Flt} (hsr : F.posFinite sr = true) (hf : F.notNeg f = true) :
    F.notNeg (phaseInc F sr f) = true :=
  FltFormat.div_notNeg
    (FltFormat.mul_notNeg (FltFormat.nonneg_notNeg (FltFormat.posFinite_nonneg (twoPi_posFinite F))) hf)
    (FltFormat.nonneg_notNeg (FltFormat.posFinite_nonneg hsr))

/-- The phase increment of a finite frequency that is not below zero is no NaN. -/
theorem phaseInc_nonneg {F : FltFormat} {sr f : Flt} (hsr : F.posFinite sr = true) (hf : F.isFinite f = true)
    (hn : F.notNeg f = true) : F.nonneg (phaseInc F sr f) = true := by
  have ht := twoPi_posFinite F
  refine FltFormat.div_nonneg (FltFormat.notNeg_nonneg
    (FltFormat.mul_notNeg (FltFormat.nonneg_notNeg (FltFormat.posFinite_nonneg ht)) hn) ?_) hsr
  rw [FltFormat.mul_of_finite (FltFormat.posFinite_isFinite ht) hf]
  exact (FltFormat.not_isNaN_iff _).2 (FltFormat.roundMag_le _ _)

theorem phase_notNeg {F : FltFormat} {x : Flt} (h : F.isNaN x = true ∨ F.inRange F.twoPi x = true) :
    F.notNeg x = true := by
  rcases h with h | h
  · exact (FltFormat.notNeg_iff x).2 (.inl h)
  · exact FltFormat.nonneg_notNeg (phase_nonneg h)

/-- A wrapped phase sum that is no NaN is in range (R96). -/
theorem wrapPhase_inRange_of_nonneg {F : FltFormat} {x : Flt} (h : F.nonneg x = true) :
    F.inRange F.twoPi (wrapPhase F x) = true := by
  refine (wrapPhase_inRange (FltFormat.nonneg_notNeg h)).resolve_left fun hn => ?_
  have hw : F.nonneg (wrapPhase F x) = true := by
    unfold wrapPhase
    split
    · exact phase_nonneg (FltFormat.fmod_inRange x (twoPi_posFinite F))
    · exact h
  rw [FltFormat.nonneg_not_isNaN hw] at hn
  exact Bool.false_ne_true hn

theorem tickSlot_pitchOk {s : State} (h : PitchInv s) {v : Voice} (hv : v.PitchOk s.fmt) :
    (tickSlot s v).1.PitchOk s.fmt := by
  cases ha : v.active with
  | false => rw [tickSlot_fst, ha]; exact hv
  | true =>
    rw [tickSlot_active s ha]
    have hc := glideNext_notNeg h.dt_notNeg h.glide hv.target hv.current
    exact ⟨fun _ => hv.above ha, hv.target, hc,
      wrapPhase_inRange (FltFormat.add_notNeg (phase_notNeg hv.phase) (phaseInc_notNeg h.sr hc))⟩

theorem tickSlot_tunedOk {s : State} (h : PitchInv s) {v : Voice} (hv : v.TunedOk s.fmt) :
    (tickSlot s v).1.TunedOk s.fmt := by
  cases ha : v.active with
  | false => rw [tickSlot_fst, ha]; exact hv
  | true =>
    rw [tickSlot_active s ha]
    obtain ⟨hp, hc⟩ := glideNext_tuned h.dt_notNeg h.glide (hv.target ha) (hv.current ha) hv.ceiling
    have hn := FltFormat.notNeg_of_gt_zero hp
    have hf : s.fmt.isFinite (glideNext s v.freqTarget v.freqCurrent) = true := by
      refine FltFormat.isFinite_of_le FltFormat.zero_isFinite (ceiling_isFinite _) ?_ hc
      obtain ⟨h1, h2, h3⟩ := (FltFormat.lt_iff _ _).1 hp
      exact (FltFormat.le_iff _ _).2 ⟨h1, h2, Int.le_of_lt h3⟩
    exact ⟨fun _ => hv.target ha, fun _ => hp, hc,
      wrapPhase_inRange_of_nonneg (FltFormat.add_nonneg (phase_nonneg hv.phase) (phaseInc_nonneg h.sr hf hn))⟩

theorem mem_tickProc {s : State} {v : Voice} (hv : v ∈ s.tickProc.voices) :
    ∃ u ∈ s.voices, v = (tickSlot s u).1 := by
  simp only [State.tickProc_voices, tickSlots, List.map_map, List.mem_map] at hv
  obtain ⟨u, hu, rfl⟩ := hv
  exact ⟨u, hu, rfl⟩

theorem PitchInv.tickProc {s : State} (h : PitchInv s) : PitchInv s.tickProc where
  voices v hv := by
    obtain ⟨u, hu, rfl⟩ := mem_tickProc hv
    exact tickSlot_pitchOk h (h.voices u hu)
  glide := h.glide
  config := h.config
  sr := h.sr
  dt := h.dt

theorem PitchInv.ticks {s : State} (h : PitchInv s) (u : Nat) : PitchInv (s.ticks u) := by
  induction u generalizing s with
  | zero => exact h
  | succ u ih => exact ih h.tickProc

theorem TunedInv.ticks {s : State} (h : TunedInv s) (hp : PitchInv s) (u : Nat) : TunedInv (s.ticks u) := by
  induction u generalizing s with
  | zero => exact h
  | succ u ih =>
    refine ih (fun v hv => ?_) hp.tickProc
    obtain ⟨w, hw, rfl⟩ := mem_tickProc hv
    exact tickSlot_tunedOk hp (h w hw)

/-! ### Every step -/

/-- The slots after any command: those of some ticks, or as `SlotAfter` says. -/
theorem exec_voices {i : Instr} {s t : State} (h : exec i s = .next t) :
    (∃ u, t.voices = (s.ticks u).voices) ∨ ∀ v ∈ t.voices, SlotAfter s i v := by
  by_cases hk : i = .tick
  · subst hk
    rw [exec_tick] at h
    cases h
    exact .inl ⟨1, rfl⟩
  by_cases hr : ∃ u, i = .render u
  · obtain ⟨u, rfl⟩ := hr
    rw [exec_render] at h
    cases h
    exact .inl ⟨u, rfl⟩
  · exact .inr fun v hv => exec_slotAfter h hk (fun u hu => hr ⟨u, hu⟩) hv

theorem ticks_fmt (s : State) (u : Nat) : (s.ticks u).fmt = s.fmt := by rw [ticks_rest]; rfl

theorem exec_pitchInv {i : Instr} {s t : State} (hs : PitchInv s) (h : exec i s = .next t)
    (hn : ∀ note vel, i = .noteOn note vel → note ≤ 127) : PitchInv t := by
  obtain ⟨hcfg, hsr, hdt, -⟩ := exec_fixed h
  have hfmt : t.fmt = s.fmt := congrArg Config.fmt hcfg
  refine ⟨fun v hv => ?_, ?_, ?_, ?_, ?_⟩ <;> rw [hfmt]
  · rcases exec_voices h with ⟨u, e⟩ | hv'
    · rw [← ticks_fmt s u]
      exact (hs.ticks u).voices v (e ▸ hv)
    · exact (hv' v hv).pitchOk hs.voices hn
  · rcases exec_glide h with e | hg
    · rw [e]; exact hs.glide
    · exact hg
  · rw [hcfg]; exact hs.config
  · rw [hsr]; exact hs.sr
  · rw [hdt, hsr]; exact hs.dt

theorem exec_tunedInv {i : Instr} {s t : State} (hs : PitchInv s) (ht : TunedInv s) (h : exec i s = .next t)
    (hn : ∀ note vel, i = .noteOn note vel → tuned s.fmt (FREQ s.fmt note) = true) : TunedInv t := by
  have hfmt : t.fmt = s.fmt := congrArg Config.fmt (exec_fixed h).1
  intro v hv
  rw [hfmt]
  rcases exec_voices h with ⟨u, e⟩ | hv'
  · rw [← ticks_fmt s u]
    exact ht.ticks hs u v (e ▸ hv)
  · exact (hv' v hv).tunedOk ht hn

/-- A state with the slots, P.GLIDE, SR, DT and parameters of another has its pitch invariant. -/
theorem PitchInv.of_eq {s t : State} (h : PitchInv s) (hv : t.voices = s.voices) (hg : t.glide = s.glide)
    (hc : t.cfg = s.cfg) (hs : t.sr = s.sr) (hd : t.dt = s.dt) : PitchInv t := by
  have hf : t.fmt = s.fmt := congrArg Config.fmt hc
  refine ⟨?_, ?_, ?_, ?_, ?_⟩ <;> simp only [hf, hv, hg, hc, hs]
  · exact h.voices
  · exact h.glide
  · exact h.config
  · exact h.sr
  · rw [hd]; exact h.dt

theorem doReset_pitchInv {s : State} (h : PitchInv s) (c : ResetConfig) : PitchInv (s.doReset c) := by
  rcases doReset_cases c s with ⟨hsr, e⟩ | ⟨-, e⟩ <;> rw [e]
  · refine ⟨fun v hv => ?_, msToS_nonneg h.config, h.config, hsr, rfl⟩
    rw [List.eq_of_mem_replicate hv]
    exact Voice.reset_pitchOk _
  · exact h.of_eq rfl rfl rfl rfl rfl

theorem doReset_tunedInv {s : State} (h : TunedInv s) (c : ResetConfig) : TunedInv (s.doReset c) := by
  rcases doReset_cases c s with ⟨-, e⟩ | ⟨-, e⟩ <;> rw [e]
  · intro v hv
    rw [List.eq_of_mem_replicate hv]
    exact Voice.reset_tunedOk _
  · exact h

/-- Settles O24: the slots a step leaves are reset, kept, released, written by a NOTE_ON with a frequency above
zero, or ticked; each keeps what is said of its pitch. -/
theorem stepKeepsPitchInv : Obligations.StepKeepsPitchInv := by
  intro s t hs h
  rcases step_next h with ⟨-, rfl⟩ | ⟨c, rest, -, rfl⟩ | ⟨w, rest, hi, hw⟩
  · exact ⟨hs, fun ht _ => ht⟩
  · have hs' : PitchInv (s.withInput rest) := hs.of_eq rfl rfl rfl rfl rfl
    exact ⟨doReset_pitchInv hs' c, fun ht _ => doReset_tunedInv (s := s.withInput rest) ht c⟩
  have hs' : PitchInv (s.withInput rest) := hs.of_eq rfl rfl rfl rfl rfl
  rcases hw with ⟨_, _, -, rfl⟩ | ⟨-, _, -, rfl⟩ | ⟨-, i, hd, he⟩
  · exact ⟨hs', fun ht _ => ht⟩
  · exact ⟨hs'.of_eq rfl rfl rfl rfl rfl, fun ht _ => ht⟩
  · refine ⟨exec_pitchInv hs' he fun note vel e => ?_, fun ht hm => exec_tunedInv hs' ht he fun note vel e => ?_⟩
    · subst e
      exact note_le_of_decode hd
    · subst e
      exact hm w rest note vel hi hd

end Sys2Proof.Machine
end

section
/-! O16, O17: what a command can answer (R45 to R47, R80, R111). -/

namespace Sys2Proof.Machine

/-- The six real-valued setters (R111). -/
def realSetters (imm : BitVec 32) : List Instr :=
  [.setAttack imm, .setDecay imm, .setSustain imm, .setRelease imm, .setGlide imm, .setGain imm]

/-- How many ticks a command runs, each with its sample (R186, R187). -/
def tickCount : Instr → Nat
  | .tick => 1
  | .render u => u
  | _ => 0

/-- What each command answers, the six real-valued setters taken together: one stores a register and completes, or
is refused for a NaN payload. -/
inductive Answer (s : State) : Instr → State → Prop
  | noteOn (note vel : Nat) : Answer s (.noteOn note vel) (s.noteOn note vel).advance
  | noteOff (note : Nat) : Answer s (.noteOff note)
      { s with voices := s.voices.map (releaseNote note s.pedal), cp := s.cp + 1 }
  | sustainPedal (down : Bool) : Answer s (.sustainPedal down)
      { s with voices := pedalVoices s.pedal down s.voices, pedal := down, cp := s.cp + 1 }
  | setWave (u : Nat) : Answer s (.setWave u) { s with wave := waveOf u, cp := s.cp + 1 }
  | setPoly (u : Nat) : Answer s (.setPoly u) { s with voices := resize (clampCap u) s.voices, cp := s.cp + 1 }
  | tick : Answer s .tick s.tickProc.advance
  | render (u : Nat) : Answer s (.render u) (s.ticks u).advance
  | stored {i : Instr} {t : State} {imm : BitVec 32} (hi : i ∈ realSetters imm)
      (ht : t = { s with
        attack := t.attack, decay := t.decay, sustain := t.sustain, release := t.release, glide := t.glide,
        gain := t.gain, cp := s.cp + 1 }) : Answer s i t
  | refused {i : Instr} {imm : BitVec 32} (hi : i ∈ realSetters imm) (hp : s.cfg.nanPolicy = .refuse)
      (hn : s.fmt.isNaN (s.fmt.toFLT imm) = true) : Answer s i (s.refuse (.word (encode i)) .nanPayload)

/-- A setter that writes one register, and has no value to write only for a refused NaN. -/
theorem finishSetter_answer {i : Instr} {v : Option Flt} {write : Flt → State → State} {s t : State}
    {imm : BitVec 32} (h : finishSetter i v write s = .next t) (hi : i ∈ realSetters imm)
    (hv : v = none → s.cfg.nanPolicy = .refuse ∧ s.fmt.isNaN (s.fmt.toFLT imm) = true)
    (hw : ∀ x, write x s = { s with
      attack := (write x s).attack, decay := (write x s).decay, sustain := (write x s).sustain,
      release := (write x s).release, glide := (write x s).glide, gain := (write x s).gain }) : Answer s i t := by
  rcases finishSetter_next h with ⟨x, -, rfl⟩ | ⟨hnone, rfl⟩
  · exact .stored hi (congrArg State.advance (hw x))
  · obtain ⟨hp, hn⟩ := hv hnone
    exact .refused hi hp hn

theorem exec_answer {i : Instr} {s t : State} (h : exec i s = .next t) : Answer s i t := by
  cases i with
  | noteOn note vel => cases h; exact .noteOn note vel
  | noteOff note => cases h; exact .noteOff note
  | sustainPedal down => cases h; exact .sustainPedal down
  | setWave u => cases h; exact .setWave u
  | setPoly u => cases h; exact .setPoly u
  | tick => cases h; exact .tick
  | render u => cases h; exact .render u
  | setAttack imm | setDecay imm | setRelease imm | setGlide imm =>
    simp only [exec, execSetAttack, execSetDecay, execSetRelease, execSetGlide] at h
    exact finishSetter_answer (imm := imm) h (by simp [realSetters]) sanTime_none fun _ => rfl
  | setSustain imm | setGain imm =>
    simp only [exec, execSetSustain, execSetGain] at h
    exact finishSetter_answer (imm := imm) h (by simp [realSetters]) sanUnit_none fun _ => rfl

/-- Settles O16: every answer but the refusal keeps STATUS and advances CP. -/
theorem cpAdvancesPerCompletedCommand : Obligations.CpAdvancesPerCompletedCommand := by
  intro i s t h
  cases exec_answer h with
  | noteOn note vel => exact .inl (by rw [noteOn_rest]; exact ⟨rfl, rfl⟩)
  | render u => exact .inl (by rw [ticks_rest]; exact ⟨rfl, rfl⟩)
  | noteOff | sustainPedal | setWave | setPoly | tick => exact .inl ⟨rfl, rfl⟩
  | stored _ ht => exact .inl (by rw [ht]; exact ⟨rfl, rfl⟩)
  | refused hi hp hn => exact .inr ⟨_, hi, hn, hp, rfl⟩

theorem tickCount_setter {i : Instr} {imm : BitVec 32} (h : i ∈ realSetters imm) : tickCount i = 0 := by
  have hall : ∀ j ∈ realSetters imm, tickCount j = 0 := by simp [realSetters, tickCount]
  exact hall i h

/-- OUT grows by one sample per tick (R46). -/
theorem exec_out {i : Instr} {s t : State} (h : exec i s = .next t) :
    ∃ ys : List Flt, t.out = s.out ++ ys ∧ ys.length = tickCount i := by
  cases exec_answer h with
  | tick => exact ⟨[s.tickSample], rfl, rfl⟩
  | render u => exact ticks_out u s
  | noteOn note vel => exact ⟨[], by rw [noteOn_rest]; simp, rfl⟩
  | noteOff | sustainPedal | setWave | setPoly => exact ⟨[], by simp, rfl⟩
  | stored hi ht => exact ⟨[], by rw [ht, List.append_nil], (tickCount_setter hi).symm⟩
  | refused hi => exact ⟨[], by simp, (tickCount_setter hi).symm⟩

/-- Only the ticks move MIX (R45). -/
theorem exec_mix {i : Instr} {s t : State} (h : exec i s = .next t) (hk : i ≠ .tick) (hr : ∀ u, i ≠ .render u) :
    t.mix = s.mix := by
  cases exec_answer h with
  | tick => exact absurd rfl hk
  | render u => exact absurd rfl (hr u)
  | noteOn note vel => rw [noteOn_rest]; rfl
  | noteOff | sustainPedal | setWave | setPoly | refused => rfl
  | stored _ ht => rw [ht]

/-- Settles O17: the samples of a command are those of its ticks, and MIX moves in no other command. -/
theorem onlyTicksEmitAndMoveMix : Obligations.OnlyTicksEmitAndMoveMix := by
  intro i s t h
  obtain ⟨ys, hout, hlen⟩ := exec_out h
  exact ⟨⟨ys, hout, hlen.trans (by cases i <;> rfl)⟩, exec_mix h⟩

end Sys2Proof.Machine
end

section
/-! O31, O32, O34 to O37: what the release commands, SET_POLY, SET_WAVE and the real-valued setters write. -/

namespace Sys2Proof.Machine

/-! ### NOTE_OFF and SUSTAIN_PEDAL (R156, R158) -/

/-- A release writes no field of a slot but key_down and gate, and sets neither. -/
structure Released (v v' : Voice) : Prop where
  rest    : v' = { v with keyDown := v'.keyDown, gate := v'.gate }
  keyDown : v'.keyDown = true → v.keyDown = true
  gate    : v'.gate = true → v.gate = true

theorem Released.refl (v : Voice) : Released v v := ⟨rfl, id, id⟩

theorem releaseNote_released (note : Nat) (pedal : Bool) (v : Voice) : Released v (releaseNote note pedal v) := by
  unfold releaseNote
  split
  · refine ⟨rfl, fun h => absurd h (by simp [Voice.keyUp]), fun h => ?_⟩
    cases pedal
    · simp [Voice.keyUp] at h
    · exact h
  · exact .refl v

theorem pedalUp_released (v : Voice) : Released v v.pedalUp := by
  refine ⟨rfl, id, fun h => ?_⟩
  simp only [Voice.pedalUp] at h
  split at h
  · exact h
  · exact absurd h Bool.false_ne_true

theorem pedalSlot_released (was down : Bool) (v : Voice) :
    Released v (if was && !down then v.pedalUp else v) := by
  split
  · exact pedalUp_released v
  · exact .refl v

/-- What SUSTAIN_PEDAL makes of a slot: it releases it, or leaves it. -/
theorem pedalVoices_eq_map (was down : Bool) (vs : List Voice) :
    pedalVoices was down vs = vs.map fun v => if was && !down then v.pedalUp else v := by
  unfold pedalVoices
  split <;> simp

/-- Settles O31: slot by slot, NOTE_OFF and SUSTAIN_PEDAL release or leave. -/
theorem releaseCommandsFrame : Obligations.ReleaseCommandsFrame := by
  intro s t i hi h
  rcases hi with ⟨note, rfl⟩ | ⟨down, rfl⟩
  · rw [exec_noteOff] at h
    cases h
    refine ⟨rfl, fun _ => rfl, List.length_map _, fun j v hv => ⟨releaseNote note s.pedal v, by simp [hv], ?_⟩⟩
    obtain ⟨hrest, hkey, hgate⟩ := releaseNote_released note s.pedal v
    exact ⟨hrest, hkey, hgate, fun ⟨_, hd⟩ => by cases hd⟩
  · rw [exec_sustainPedal, pedalVoices_eq_map] at h
    cases h
    refine ⟨rfl, (fun ⟨_, hn⟩ => by cases hn), List.length_map _, fun j v hv => ?_⟩
    refine ⟨if s.pedal && !down then v.pedalUp else v, by simp [hv], ?_⟩
    obtain ⟨hrest, hkey, hgate⟩ := pedalSlot_released s.pedal down v
    exact ⟨hrest, hkey, hgate, fun _ => by split <;> rfl⟩

/-- The pedal's release of a slot: one whose key is down is left (R158). -/
theorem pedalUp_eq (v : Voice) : v.pedalUp = if v.keyDown then v else { v with gate := false } := by
  unfold Voice.pedalUp
  split <;> rfl

/-- Settles O32: the release loop runs on the transition from held to released alone. -/
theorem sustainPedalReleases : Obligations.SustainPedalReleases := by
  intro s
  simp only [exec_sustainPedal, pedalVoices, Bool.not_true, Bool.and_false, Bool.not_false, Bool.and_true]
  refine ⟨rfl, fun hp => ?_, fun hp => ?_⟩
  · rw [hp, if_neg Bool.false_ne_true, ← hp]
  · rw [if_pos hp, funext pedalUp_eq]

/-! ### SET_POLY and SET_WAVE (R97, R160) -/

/-- The clamp of an unsigned operand (R160). -/
theorem clampCap_natCast (u : Nat) : clampCap u = if u < 1 then 1 else if 32 < u then 32 else u := by
  simp only [clampCap, capMin, capMax, gt_iff_lt, Nat.cast_lt, Int.toNat_natCast]

/-- Settles O34: the resized file, its length the clamped operand. -/
theorem setPolyResizesByPosition : Obligations.SetPolyResizesByPosition := by
  intro s u
  refine ⟨_, exec_setPoly u s, rfl, ?_, fun i hi => ?_⟩
  · rw [State.cap_eq, resize_length]
    exact clampCap_natCast u
  · rw [State.cap_eq, resize_length] at hi
    exact resize_getElem? _ _ _ hi

theorem waveOf_of_gt {u : Nat} (h : 3 < u) : waveOf u = .sine := by
  obtain ⟨k, rfl⟩ := Nat.exists_eq_add_of_le' h
  rfl

/-- Settles O35: the four selectors by R97's table, any other by `waveOf_of_gt`. -/
theorem setWaveSelects : Obligations.SetWaveSelects := by
  intro s
  refine ⟨rfl, rfl, rfl, rfl, fun u hu => ?_⟩
  rw [exec_setWave, waveOf_of_gt hu]

/-! ### The values the setters store (R111) -/

/-- Where a NaN is not refused, `sanTime` has a value. -/
theorem sanTime_some {F : FltFormat} {p : NanPolicy} {x : Flt} (h : p = .clampLow ∨ F.isNaN x = false) :
    sanTime F p x = some (if F.isNaN x then Flt.zero else if F.le x Flt.zero then Flt.zero else x) := by
  unfold sanTime
  split
  · rename_i hn
    obtain rfl : p = .clampLow := h.resolve_right (by simp [hn])
    rfl
  · split <;> rfl

theorem sanUnit_some {F : FltFormat} {p : NanPolicy} {x : Flt} (h : p = .clampLow ∨ F.isNaN x = false) :
    sanUnit F p x = some (if F.isNaN x then Flt.zero else if F.le x Flt.zero then Flt.zero
      else if F.ge x F.one then F.one else x) := by
  unfold sanUnit
  split
  · rename_i hn
    obtain rfl : p = .clampLow := h.resolve_right (by simp [hn])
    rfl
  · split
    · rfl
    · split <;> rfl

/-- Settles O36: the four time setters finish with the value of `sanTime_some`. -/
theorem timeSettersStoreSanitised : Obligations.TimeSettersStoreSanitised := by
  intro s imm x h hx
  have hsan : sanTime s.fmt s.cfg.nanPolicy (s.fmt.toFLT imm) = some x := by rw [hx]; exact sanTime_some h
  simp only [exec, execSetAttack, execSetDecay, execSetRelease, execSetGlide, hsan, finishSetter_some]
  exact ⟨rfl, rfl, rfl, rfl⟩

/-- Settles O37: the two unit setters finish with the value of `sanUnit_some`. -/
theorem unitSettersStoreSanitised : Obligations.UnitSettersStoreSanitised := by
  intro s imm x h hx
  have hsan : sanUnit s.fmt s.cfg.nanPolicy (s.fmt.toFLT imm) = some x := by rw [hx]; exact sanUnit_some h
  simp only [exec, execSetSustain, execSetGain, hsan, finishSetter_some]
  exact ⟨rfl, rfl⟩

end Sys2Proof.Machine
end

section
/-! O21, O20, O23: the invariant of R32 to R34 and the bound on MIX, at reset and under every step; the pitch
invariants at reset. -/

namespace Sys2Proof.Machine

/-! ### The parameter registers (R34, R44) -/

/-- A setter stores a legal value, or nothing (R34, R111). -/
theorem ParamsOk.setter {i : Instr} {imm : BitVec 32} {s t : State} (hs : ParamsOk s) (hi : i ∈ realSetters imm)
    (h : exec i s = .next t) : ParamsOk t := by
  simp only [realSetters, List.mem_cons, List.not_mem_nil, or_false] at hi
  rcases hi with rfl | rfl | rfl | rfl | rfl | rfl
  · rcases execSetAttack_next h with ⟨x, hx, rfl⟩ | ⟨-, rfl⟩
    · exact { hs with attack := sanTime_nonneg hx }
    · exact { hs with }
  · rcases execSetDecay_next h with ⟨x, hx, rfl⟩ | ⟨-, rfl⟩
    · exact { hs with decay := sanTime_nonneg hx }
    · exact { hs with }
  · rcases execSetSustain_next h with ⟨x, hx, rfl⟩ | ⟨-, rfl⟩
    · exact { hs with sustain := sanUnit_unit hx }
    · exact { hs with }
  · rcases execSetRelease_next h with ⟨x, hx, rfl⟩ | ⟨-, rfl⟩
    · exact { hs with release := sanTime_nonneg hx }
    · exact { hs with }
  · rcases execSetGlide_next h with ⟨x, hx, rfl⟩ | ⟨-, rfl⟩
    · exact { hs with glide := msToS_nonneg (sanTime_nonneg hx) }
    · exact { hs with }
  · rcases execSetGain_next h with ⟨x, hx, rfl⟩ | ⟨-, rfl⟩
    · exact { hs with gain := sanUnit_unit hx }
    · exact { hs with }

/-- Every command keeps the registers legal. -/
theorem ParamsOk.exec {i : Instr} {s t : State} (hs : ParamsOk s) (h : exec i s = .next t) : ParamsOk t := by
  cases exec_answer h with
  | noteOn note vel => rw [noteOn_rest]; exact { hs with }
  | render u => rw [ticks_rest]; exact { hs with }
  | noteOff | sustainPedal | setWave | setPoly | tick => exact { hs with }
  | stored hi _ | refused hi => exact hs.setter hi h

/-! ### Unique notes (R32 item 1) -/

theorem uniqueNotes_replicate_reset (n : Nat) : uniqueNotes (List.replicate n Voice.reset) :=
  List.pairwise_replicate.2 (.inr (by simp [Voice.reset]))

theorem uniqueNotes_resize {vs : List Voice} (n : Nat) (h : uniqueNotes vs) : uniqueNotes (resize n vs) := by
  unfold resize
  split
  · exact List.Pairwise.sublist (List.take_sublist n vs) h
  · refine List.pairwise_append.2 ⟨h, uniqueNotes_replicate_reset _, fun a _ b hb hc => ?_⟩
    rw [List.eq_of_mem_replicate hb] at hc
    exact Bool.false_ne_true hc.2.1

theorem toNat_ofNat_note {note : Nat} (h : note ≤ 127) : (BitVec.ofNat 7 note).toNat = note := by
  rw [BitVec.toNat_ofNat]
  omega

/-- A slot claimed for a note that no active slot holds. -/
theorem uniqueNotes_claim {s : State} (hu : uniqueNotes s.voices) {note : Nat} (hn : note ≤ 127)
    (hfind : s.findNote note = none) (k : Nat) (f vel : Flt) :
    uniqueNotes (s.voices.modify k (claim s note f vel)) := by
  refine uniqueNotes_modify hu fun v _ i w _ hw hwa hnote => ?_
  have hholds : w.holds note = true := by
    have : w.note.toNat = note := by rw [hnote]; exact toNat_ofNat_note hn
    simp [Voice.holds, hwa, this]
  rw [findNote_none hfind w (List.mem_of_getElem? hw)] at hholds
  exact Bool.false_ne_true hholds

/-- NOTE_ON retriggers the one holder of its note, or claims a slot where there is none (R155 item 1). -/
theorem uniqueNotes_noteOn {s : State} (hu : uniqueNotes s.voices) {note : Nat} (hn : note ≤ 127) (vel : Nat) :
    uniqueNotes (s.noteOn note vel).voices := by
  rcases noteOn_cases note vel s with ⟨j, hj, e⟩ | ⟨k, hnone, -, e⟩ | ⟨hnone, -, e⟩ <;>
    rw [e, State.modifySlot_voices]
  · obtain ⟨v, hv, hh, -⟩ := findNote_some hj
    have hva : v.active = true := by
      simp only [Voice.holds, Bool.and_eq_true] at hh
      exact hh.1
    refine uniqueNotes_modify hu fun v' hv' i w hij hw hwa hnote => ?_
    obtain rfl : v = v' := Option.some.inj (hv.symm.trans hv')
    rw [uniqueNotes_iff] at hu
    rcases Nat.lt_or_gt_of_ne hij with hlt | hgt
    · exact hu i j w v hw hv hlt ⟨hwa, hva, hnote⟩
    · exact hu j i v w hv hw hgt ⟨hva, hwa, hnote.symm⟩
  · exact uniqueNotes_claim hu hn hnone ..
  · exact uniqueNotes_claim hu hn hnone ..

theorem uniqueNotes_tickProc {s : State} (h : uniqueNotes s.voices) : uniqueNotes s.tickProc.voices := by
  have e : s.tickProc.voices = s.voices.map fun v => (tickSlot s v).1 := by simp [tickSlots]
  rw [e]
  refine uniqueNotes_map (fun v => ?_) (fun v => ?_) h
  · obtain ⟨hnote, -⟩ := tickSlot_keeps s v
    exact hnote
  · obtain ⟨-, -, -, -, -, hact⟩ := tickSlot_keeps s v
    exact hact

theorem uniqueNotes_released {vs : List Voice} {f : Voice → Voice} (hf : ∀ v, Released v (f v))
    (h : uniqueNotes vs) : uniqueNotes (vs.map f) :=
  uniqueNotes_map (fun v => by rw [(hf v).rest]) (fun v hv => by rw [(hf v).rest] at hv; exact hv) h

/-! ### The slots a command leaves (R30, R32, R33) -/

/-- A VEL operand that a word holds is a velocity (R67). -/
theorem vel_le_of_decode {w : Word} {note vel : Nat} (h : decode w = .ok (.noteOn note vel)) : vel ≤ 127 := by
  obtain ⟨r, -, -, hi⟩ := (decode_ok_iff w _).1 h
  cases hop : r.op <;> rw [hop] at hi <;> simp only [Op.assemble, reduceCtorEq] at hi
  obtain ⟨-, rfl⟩ := Instr.noteOn.inj hi
  have : field w 46 40 < 2 ^ (46 + 1 - 40) := BitVec.isLt _
  exact Nat.le_of_lt_succ this

theorem SlotAfter.ok {s : State} {i : Instr} {v : Voice} (h : SlotAfter s i v) (hs : ∀ u ∈ s.voices, u.Ok s.fmt)
    (hn : ∀ note vel, i = .noteOn note vel → vel ≤ 127) : v.Ok s.fmt := by
  cases h with
  | kept h => exact hs _ h
  | reset => exact Voice.reset_ok _
  | keyUp p h => exact keyUp_ok (hs _ h)
  | pedalUp h => exact pedalUp_ok (hs _ h)
  | retriggered note vel h ha => exact retrigger_ok (VELSCALE_unit _ (hn note vel rfl)) ha
  | claimed note vel h => exact claim_ok (VELSCALE_unit _ (hn note vel rfl))

/-! ### The invariant under a command -/

theorem Inv.tickProc {s : State} (h : Inv s) : Inv s.tickProc where
  cap_pos := by rw [State.tickProc_cap]; exact h.cap_pos
  cap_max := by rw [State.tickProc_cap]; exact h.cap_max
  voices v hv := by
    obtain ⟨u, hu, rfl⟩ := mem_tickProc hv
    exact tickSlot_ok h.params (h.voices u hu)
  unique := uniqueNotes_tickProc h.unique
  params := { h.params with }
  config := h.config

theorem Inv.ticks {s : State} (h : Inv s) (u : Nat) : Inv (s.ticks u) := by
  induction u generalizing s with
  | zero => exact h
  | succ u ih => exact ih h.tickProc

/-- A state with the slots of another, its parameters and registers legal. -/
theorem Inv.of_eq {s t : State} (h : Inv s) (hv : t.voices = s.voices) (hc : t.cfg = s.cfg) (hp : ParamsOk t) :
    Inv t := by
  have hf : t.fmt = s.fmt := congrArg Config.fmt hc
  refine ⟨?_, ?_, ?_, ?_, hp, ?_⟩ <;> simp only [State.cap_eq, hf, hv, hc]
  · exact h.cap_pos
  · exact h.cap_max
  · exact h.voices
  · exact h.unique
  · exact h.config

theorem noteOn_cap (s : State) (note vel : Nat) : (s.noteOn note vel).cap = s.cap := by
  rcases noteOn_cases note vel s with ⟨_, _, e⟩ | ⟨_, _, _, e⟩ | ⟨_, _, e⟩ <;> rw [e, State.modifySlot_cap]

/-- The capacity after a command (R42, R160). -/
theorem Inv.exec_cap {i : Instr} {s t : State} (hs : Inv s) (h : exec i s = .next t) : 1 ≤ t.cap ∧ t.cap ≤ 32 := by
  have hcap := And.intro hs.cap_pos hs.cap_max
  cases exec_answer h with
  | noteOn note vel => rw [State.advance_cap, noteOn_cap]; exact hcap
  | setPoly u =>
    rw [State.cap_eq, resize_length]
    exact clampCap_range u
  | tick => exact ⟨hs.tickProc.cap_pos, hs.tickProc.cap_max⟩
  | render u => exact ⟨(hs.ticks u).cap_pos, (hs.ticks u).cap_max⟩
  | noteOff note => rw [State.cap_eq, List.length_map]; exact hcap
  | sustainPedal down => rw [State.cap_eq, pedalVoices_eq_map, List.length_map]; exact hcap
  | setWave | refused => exact hcap
  | stored _ ht => rw [ht]; exact hcap

theorem Inv.exec_unique {i : Instr} {s t : State} (hs : Inv s) (h : exec i s = .next t)
    (hn : ∀ note vel, i = .noteOn note vel → note ≤ 127) : uniqueNotes t.voices := by
  cases exec_answer h with
  | noteOn note vel => exact uniqueNotes_noteOn hs.unique (hn note vel rfl) vel
  | noteOff note => exact uniqueNotes_released (releaseNote_released note s.pedal) hs.unique
  | sustainPedal down =>
    rw [pedalVoices_eq_map]
    exact uniqueNotes_released (pedalSlot_released s.pedal down) hs.unique
  | setPoly u => exact uniqueNotes_resize _ hs.unique
  | tick => exact hs.tickProc.unique
  | render u => exact (hs.ticks u).unique
  | setWave | refused => exact hs.unique
  | stored _ ht => rw [ht]; exact hs.unique

/-- Every command whose operands fit their fields keeps the invariant. -/
theorem Inv.exec {i : Instr} {s t : State} (hs : Inv s) (h : exec i s = .next t)
    (hn : ∀ note vel, i = .noteOn note vel → note ≤ 127 ∧ vel ≤ 127) : Inv t := by
  obtain ⟨hcfg, -, -, -⟩ := exec_fixed h
  have hfmt : t.fmt = s.fmt := congrArg Config.fmt hcfg
  obtain ⟨hpos, hmax⟩ := hs.exec_cap h
  have hok : ∀ v ∈ t.voices, v.Ok t.fmt := by
    intro v hv
    rw [hfmt]
    rcases exec_voices h with ⟨u, e⟩ | hv'
    · rw [← ticks_fmt s u]
      exact (hs.ticks u).voices v (e ▸ hv)
    · exact (hv' v hv).ok hs.voices fun note vel e => (hn note vel e).2
  exact ⟨hpos, hmax, hok, hs.exec_unique h fun note vel e => (hn note vel e).1, hs.params.exec h, hcfg ▸ hs.config⟩

/-! ### MIX (R33 item 5, R184) -/

/-- A DT of at most 1 is in [0,1] (log entry 29). -/
theorem ParamsOk.dt_unit {s : State} (h : ParamsOk s) (h1 : s.fmt.le s.dt s.fmt.one = true) :
    s.fmt.unit s.dt = true := by
  have hdt : s.fmt.nonneg s.dt = true := by rw [h.dt]; exact FltFormat.div_nonneg FltFormat.one_nonneg h.sr
  exact (FltFormat.unit_iff _).2
    ⟨((FltFormat.nonneg_iff _).1 hdt).1, (FltFormat.le_iff_mag hdt FltFormat.one_nonneg).1 h1⟩

theorem voicesOn_le_cap (s : State) : voicesOn s.fmt (tickSlots s) ≤ s.cap := by
  have h := List.countP_le_length (p := fun r : Voice × Flt => r.1.contributes s.fmt) (l := tickSlots s)
  rwa [tickSlots, List.length_map] at h

/-- A state with MIX, DT and parameters of another. -/
theorem MixInv.of_eq {s t : State} (h : MixInv s) (hc : t.cfg = s.cfg) (hd : t.dt = s.dt) (hm : t.mix = s.mix) :
    MixInv t := by
  have hf : t.fmt = s.fmt := congrArg Config.fmt hc
  refine ⟨?_, ?_⟩ <;> rw [hf]
  · rw [hc]; exact h.init
  · rw [hd, hm]; exact h.mix

theorem MixInv.tickProc {s : State} (h : MixInv s) (hs : Inv s) : MixInv s.tickProc where
  init := h.init
  mix hdt := mixNext_inRange (hs.params.dt_unit hdt) (h.mix hdt)
    (mixTarget_inRange _ (Nat.le_trans (voicesOn_le_cap s) hs.cap_max))

theorem MixInv.ticks {s : State} (h : MixInv s) (hs : Inv s) (u : Nat) : MixInv (s.ticks u) := by
  induction u generalizing s with
  | zero => exact h
  | succ u ih => exact ih (h.tickProc hs) hs.tickProc

theorem MixInv.exec {i : Instr} {s t : State} (hm : MixInv s) (hs : Inv s) (h : exec i s = .next t) : MixInv t := by
  obtain ⟨hcfg, -, hdt, -⟩ := exec_fixed h
  by_cases hk : i = .tick
  · subst hk
    cases h
    exact (hm.tickProc hs).of_eq rfl rfl rfl
  by_cases hr : ∃ u, i = .render u
  · obtain ⟨u, rfl⟩ := hr
    cases h
    exact (hm.ticks hs u).of_eq rfl rfl rfl
  · exact hm.of_eq hcfg hdt (exec_mix h hk fun u hu => hr ⟨u, hu⟩)

/-! ### RESET (R220, R221) -/

/-- RESET with an SR that is positive and finite establishes the invariant, the parameters being in range. -/
theorem restart_inv {s : State} {c : ResetConfig} (h : ConfigOk s.cfg) (hsr : s.fmt.posFinite c.sr = true) :
    Inv (s.restart c) where
  cap_pos := by rw [State.cap_eq, State.restart, List.length_replicate]; exact (clampCap_range _).1
  cap_max := by rw [State.cap_eq, State.restart, List.length_replicate]; exact (clampCap_range _).2
  voices v hv := by rw [List.eq_of_mem_replicate hv]; exact Voice.reset_ok _
  unique := uniqueNotes_replicate_reset _
  params := {
    attack := FltFormat.nonneg_mk (FltFormat.roundMag_le _ _)
    decay := h.decay
    sustain := h.sustain
    release := h.release
    glide := msToS_nonneg h.glide
    gain := h.gain
    sr := hsr
    dt := rfl }
  config := h

/-- RESET makes MIX MIX_GAIN_INIT. -/
theorem restart_mixInv {s : State} {c : ResetConfig} (h : mixInRange s.fmt s.cfg.mixGainInit = true) :
    MixInv (s.restart c) := ⟨h, fun _ => h⟩

theorem doReset_inv {s : State} (h : Inv s) (c : ResetConfig) : Inv (s.doReset c) := by
  rcases doReset_cases c s with ⟨hsr, e⟩ | ⟨-, e⟩ <;> rw [e]
  · exact restart_inv h.config hsr
  · exact h.of_eq rfl rfl { h.params with }

theorem doReset_mixInv {s : State} (h : MixInv s) (c : ResetConfig) : MixInv (s.doReset c) := by
  rcases doReset_cases c s with ⟨-, e⟩ | ⟨-, e⟩ <;> rw [e]
  · exact restart_mixInv h.init
  · exact h.of_eq rfl rfl rfl

/-! ### Every step -/

/-- Settles O21: a RESET establishes the invariant again, a command keeps it, and any other move takes
itself from the host's moves or sets STATUS. -/
theorem stepKeepsInv : Obligations.StepKeepsInv := by
  intro s t hs h
  rcases step_next h with ⟨-, rfl⟩ | ⟨c, rest, -, rfl⟩ | ⟨w, rest, -, hw⟩
  · exact ⟨hs, id⟩
  · have hs' : Inv (s.withInput rest) := hs.of_eq rfl rfl { hs.params with }
    exact ⟨doReset_inv hs' c, fun hm => doReset_mixInv (s := s.withInput rest) (hm.of_eq rfl rfl rfl) c⟩
  have hs' : Inv (s.withInput rest) := hs.of_eq rfl rfl { hs.params with }
  rcases hw with ⟨_, _, -, rfl⟩ | ⟨-, _, -, rfl⟩ | ⟨-, i, hd, he⟩
  · exact ⟨hs', fun hm => hm.of_eq rfl rfl rfl⟩
  · exact ⟨hs.of_eq rfl rfl { hs.params with }, fun hm => hm.of_eq rfl rfl rfl⟩
  · refine ⟨hs'.exec he fun note vel e => ?_, fun hm => ?_⟩
    · subst e
      exact ⟨note_le_of_decode hd, vel_le_of_decode hd⟩
    · exact MixInv.exec (s := s.withInput rest) (hm.of_eq rfl rfl rfl) hs' he

/-! ### At reset (R223) -/

/-- The pattern 0x3F800000 of `Config.default` is 1.0 (log entry 8). -/
theorem default_one : Config.default.fmt.one = ⟨false, 0x3F800000⟩ := by decide

theorem default_configOk : ConfigOk Config.default where
  decay := FltFormat.zero_nonneg
  sustain := FltFormat.zero_unit
  release := FltFormat.zero_nonneg
  glide := FltFormat.zero_nonneg
  gain := (congrArg Config.default.fmt.unit default_one).symm.trans FltFormat.one_unit

/-- MIX_GAIN_INIT is the target of a tick with no voice (R183). -/
theorem default_mixGainInit : mixInRange Config.default.fmt Config.default.mixGainInit = true :=
  (congrArg (mixInRange Config.default.fmt) default_one).symm.trans (mixTarget_inRange _ (Nat.zero_le 32))

theorem reset_sr_posFinite : State.reset.fmt.posFinite State.reset.sr = true :=
  FltFormat.ofNat_posFinite (by omega) (by omega)

/-- `State.reset` is what RESET(48000, 8) leaves, that RESET being valid (R220). -/
theorem reset_eq_restart : State.reset.restart ⟨State.reset.sr, 8⟩ = State.reset :=
  (if_pos reset_sr_posFinite).symm.trans reset_is_reset_of_default

/-- Settles O20: the state is what a valid RESET leaves, and the default parameters are in range. -/
theorem invHoldsAtReset : Obligations.InvHoldsAtReset := by
  have hinv := restart_inv (s := State.reset) (c := ⟨State.reset.sr, 8⟩) default_configOk reset_sr_posFinite
  have hmix := restart_mixInv (s := State.reset) (c := ⟨State.reset.sr, 8⟩) default_mixGainInit
  rw [reset_eq_restart] at hinv hmix
  exact ⟨hinv, hmix⟩

/-- Settles O23: every slot is the reset slot, and P.GLIDE, SR and DT are as the invariant has them. -/
theorem pitchInvHoldsAtReset : Obligations.PitchInvHoldsAtReset := by
  have hslot : ∀ v ∈ State.reset.voices, v = Voice.reset := fun v hv => List.eq_of_mem_replicate hv
  obtain ⟨hinv, -⟩ := invHoldsAtReset
  refine ⟨⟨fun v hv => ?_, hinv.params.glide, hinv.config.glide, reset_sr_posFinite, rfl⟩, fun v hv => ?_⟩ <;>
    rw [hslot v hv]
  · exact Voice.reset_pitchOk _
  · exact Voice.reset_tunedOk _

end Sys2Proof.Machine
end
section
/-! O45, O47, O51, O54: a TICK slot by slot (R96, R116), the slots the mixer counts (R182), RENDER (R187). -/

namespace Sys2Proof.Machine

/-! ### A slot after a TICK -/

/-- Deactivation leaves a slot active unless it is finished (R116). -/
theorem deactivate_active (F : FltFormat) {v : Voice} (ha : v.active = true) :
    (v.deactivate F).active = !v.finished F := by
  simp only [Voice.deactivate, ha]
  cases v.finished F <;> rfl

/-- Settles O45: deactivation is a tick's only write to `active`. -/
theorem deactivationRule : Obligations.DeactivationRule := by
  intro s t i v h hv
  refine ⟨_, exec_tick_slot h hv, fun ha => ?_, fun ha => ?_⟩
  · rw [tickSlot_fst, ha]; rfl
  · rw [tickSlot_active s ha]
    exact deactivate_active (v := stepVoice s v) s.fmt ha

/-- A product of a positive finite factor and a value from +0.0 to infinity is no NaN. -/
theorem mul_nonneg_of_posFinite {F : FltFormat} {a b : Flt} (ha : F.posFinite a = true) (hb : F.nonneg b = true) :
    F.nonneg (F.mul a b) = true := by
  have haf := FltFormat.posFinite_isFinite ha
  refine FltFormat.notNeg_nonneg
    (FltFormat.mul_notNeg (FltFormat.nonneg_notNeg (FltFormat.posFinite_nonneg ha)) (FltFormat.nonneg_notNeg hb)) ?_
  rw [FltFormat.not_isNaN_iff]
  rcases Nat.lt_or_eq_of_le ((FltFormat.nonneg_iff b).1 hb).2 with hlt | hinf
  · rw [FltFormat.mul_of_finite haf ((FltFormat.isFinite_iff b).2 hlt)]
    exact FltFormat.roundMag_le _ _
  · obtain ⟨hmul, -⟩ := FltFormat.mul_by_inf (FltFormat.isFinite_not_isNaN haf) ((FltFormat.isInf_iff b).2 hinf)
    rw [(hmul (FltFormat.posFinite_not_isZero ha)).1]

/-- Settles O47: the sum of the phase and its increment is no NaN, so wrapping it gives a phase in range. -/
theorem phaseAdvanceRule : Obligations.PhaseAdvanceRule := by
  intro s t i v x h hv ha
  refine ⟨_, exec_tick_slot h hv, ?_, ?_⟩ <;> rw [tickSlot_active s ha]
  · rintro rfl
    rfl
  · intro hsr hp hf
    exact wrapPhase_inRange_of_nonneg (FltFormat.add_nonneg (phase_nonneg hp)
      (FltFormat.div_nonneg (mul_nonneg_of_posFinite (twoPi_posFinite _) hf) hsr))

/-! ### The slots the mixer counts (R182) -/

/-- A slot that meets its invariant counts exactly while active: inactive, it is silent (R33 item 3). -/
theorem Voice.Ok.contributes_eq {F : FltFormat} {v : Voice} (h : v.Ok F) : v.contributes F = v.active := by
  unfold Voice.contributes
  cases ha : v.active with
  | true => rfl
  | false =>
    rw [h.silent ha]
    simp [FltFormat.gt, FltFormat.lt]

/-- Settles O51: the tick keeps the slot invariant, under which counting and activity agree. -/
theorem contributingIsActive : Obligations.ContributingIsActive := by
  intro s t hs h
  rw [exec_tick] at h
  cases h
  show _ = ((tickSlots s).map Prod.fst).countP fun v => v.active
  rw [List.countP_map]
  refine List.countP_congr fun r hr => ?_
  have hok : r.1.Ok s.fmt := hs.tickProc.voices r.1 (List.mem_map_of_mem hr)
  simp [hok.contributes_eq]

/-! ### RENDER (R187) -/

/-- While STATUS is Running a word that decodes runs as its command (R80). -/
theorem step_command {s : State} {w : Word} {i : Instr} (hs : s.status = .running) (hd : decode w = .ok i)
    (rest : List HostInput) : step { s with input := .command w :: rest } = exec i { s with input := rest } := by
  cases s
  cases hs
  simp only [step, hd]
  rfl

theorem step_tick_word {s : State} (hs : s.status = .running) (rest : List HostInput) :
    step { s with input := .command 0x2000000000000000#64 :: rest } =
      .next { s.tickProc with input := rest, cp := s.cp + 1 } :=
  step_command (w := 0x2000000000000000#64) (i := .tick) hs (by decide) rest

/-- The TICK words of a run take one tick each, and advance CP by one each. -/
theorem run_tick_words (u : Nat) (s : State) (rest : List HostInput) (hs : s.status = .running) :
    Sys2Proof.core.run u { s with input := List.replicate u (.command 0x2000000000000000#64) ++ rest } =
      .next { s.ticks u with input := rest, cp := s.cp + u } := by
  induction u generalizing s with
  | zero => rfl
  | succ u ih =>
    have hrun := ih { s.tickProc with cp := s.cp + 1 } hs
    have hticks := ticks_congr u s.tickProc (s.cp + 1) s.tickProc.input
    rw [List.replicate_succ, List.cons_append, run_succ (step_tick_word hs _), ticks_succ]
    refine hrun.trans ?_
    rw [hticks, Nat.add_assoc, Nat.add_comm 1 u]

/-- Settles O54: the run of the TICK words, RENDER's ticks leaving the host's moves and CP. -/
theorem renderIsTicksInARow : Obligations.RenderIsTicksInARow := by
  intro s u rest hs
  refine ⟨_, exec_render u _, ?_, ?_⟩
  · rw [run_tick_words u s rest hs, ticks_congr u s s.cp rest]
    rfl
  · rw [ticks_rest]; rfl

end Sys2Proof.Machine
end

section
/-! O7: the byte transport (R51, R52) and the binary32 encoding of a sample (R51, R70). -/

namespace Sys2Proof

/-! ### Words as bytes -/

theorem bytesOfWord_getElem? (w : Word) {k : Nat} (hk : k < 8) :
    (bytesOfWord w)[k]? = some (w.extractLsb' (8 * k) 8) := by
  simp [bytesOfWord, hk]

theorem decodeBytes_bytesOfWord (w : Word) (rest : List Byte) :
    decodeBytes (bytesOfWord w ++ rest) = some (decode w, rest) := by
  rw [bytesOfWord_eq]
  simp only [List.cons_append, List.nil_append, decodeBytes, wordOfBytes_bytesOfWord]

theorem decodeBytes_short {bs : List Byte} (h : bs.length < 8) : decodeBytes bs = none := by
  unfold decodeBytes
  split
  · simp only [List.length_cons] at h
    omega
  · rfl

theorem wordsOfBytes_bytesOfWord (w : Word) (rest : List Byte) :
    wordsOfBytes (bytesOfWord w ++ rest) = w :: wordsOfBytes rest := by
  rw [bytesOfWord_eq]
  simp only [List.cons_append, List.nil_append, wordsOfBytes, wordOfBytes_bytesOfWord]

theorem wordsOfBytes_short {bs : List Byte} (h : bs.length < 8) : wordsOfBytes bs = [] := by
  unfold wordsOfBytes
  split
  · simp only [List.length_cons] at h
    omega
  · rfl

/-- A stream of words, and the bytes of a partial word after it, deliver the words. -/
theorem wordsOfBytes_flatMap (ws : List Word) {bs : List Byte} (h : bs.length < 8) :
    wordsOfBytes (ws.flatMap bytesOfWord ++ bs) = ws := by
  induction ws with
  | nil => exact wordsOfBytes_short h
  | cons w ws ih => rw [List.flatMap_cons, List.append_assoc, wordsOfBytes_bytesOfWord, ih]

theorem sampleBytes_getElem? (F : FltFormat) (y : Flt) {k : Nat} (hk : k < 4) :
    (Machine.sampleBytes F y)[k]? = some ((F.toBits32 y).extractLsb' (8 * k) 8) := by
  simp [Machine.sampleBytes, hk]

/-! ### Payloads as samples -/

/-- Reading a pattern and writing it out again is the identity. -/
theorem Flt.bits32_ofBits32 (b : BitVec 32) : (Flt.ofBits32 b).bits32 = b := by
  apply BitVec.eq_of_toNat_eq
  have := b.isLt
  simp only [Flt.bits32, Flt.ofBits32, BitVec.toNat_ofNat, decide_eq_true_eq]
  split <;> omega

namespace FltFormat

theorem toBits32_inf {F : FltFormat} {y : Flt} (h : F.isInf y = true) :
    F.toBits32 y = Flt.bits32 ⟨y.sgn, binary32.infMag⟩ := by
  simp [toBits32, isInf_not_isNaN h, h]

theorem toBits32_finite {F : FltFormat} {y : Flt} (h : F.isFinite y = true) : F.toBits32 y =
    Flt.bits32 ⟨y.sgn, binary32.roundMag (F.units y * binary32.unitsPerOne) F.unitsPerOne⟩ := by
  simp [toBits32, isFinite_not_isNaN h, isFinite_not_isInf h]

/-- The encoding of a payload's value is the payload: an infinity stays one, and a finite value, which every
format has exactly, is rounded back to its own magnitude. -/
theorem toBits32_toFLT (F : FltFormat) {b : BitVec 32} (hb : binary32.isNaN (Flt.ofBits32 b) = false) :
    F.toBits32 (F.toFLT b) = b := by
  obtain ⟨hfinite, hinf, -⟩ := toFLT_class F b
  refine Eq.trans ?_ (Flt.bits32_ofBits32 b)
  rcases class_cases binary32 (Flt.ofBits32 b) with h | h | h
  · rw [h] at hb
    cases hb
  · rw [toBits32_inf (hinf h), toFLT_sgn, ← (isInf_iff _).1 h]
  · obtain ⟨hfin, hunits⟩ := hfinite h
    have hmag : binary32.roundMag (F.units (F.toFLT b) * binary32.unitsPerOne) F.unitsPerOne =
        (Flt.ofBits32 b).mag := by
      rw [hunits, roundMag_congr (d' := 1) (unitsPerOne_pos F) Nat.one_pos (Nat.mul_one _)]
      exact roundMag_unitsOf (Nat.le_of_lt ((isFinite_iff _).1 h))
    rw [toBits32_finite hfin, toFLT_sgn, hmag]

end FltFormat

/-- Settles O7: the words by the transport's two readers, the samples by `toBits32_toFLT`. -/
theorem byteTransportDeliversTheWords : Obligations.ByteTransportDeliversTheWords :=
  ⟨fun w _ hk => bytesOfWord_getElem? w hk, decodeBytes_bytesOfWord, fun _ h => decodeBytes_short h,
    fun ws _ h => wordsOfBytes_flatMap ws h, fun F y _ hk => sampleBytes_getElem? F y hk,
    fun F _ hb => FltFormat.toBits32_toFLT F hb⟩

end Sys2Proof
end

section
/-! O40: the setters and the releases done twice (R53, R111, R156, R158, R160). -/

namespace Sys2Proof.Machine

/-- NOTE_OFF reads neither of the flags it clears, so it releases a slot once (R156). -/
theorem releaseNote_idem (note : Nat) (pedal : Bool) (v : Voice) :
    releaseNote note pedal (releaseNote note pedal v) = releaseNote note pedal v := by
  have hholds : (v.keyUp pedal).holds note = v.holds note := rfl
  unfold releaseNote
  cases h : v.holds note with
  | false => simp [h]
  | true =>
    simp only [if_true, hholds, h]
    cases pedal <;> rfl

/-- A pedal that is already where the command puts it releases nothing (R158). -/
theorem pedalVoices_same (down : Bool) (vs : List Voice) : pedalVoices down down vs = vs := by
  cases down <;> rfl

theorem resize_self {n : Nat} {vs : List Voice} (h : vs.length = n) : resize n vs = vs := by
  simp [resize, h]

/-- A setter done twice with one sanitised value stores or is refused both times; what it writes is the same if
writing twice is writing once. -/
theorem finishSetter_twice {i : Instr} {v : Option Flt} {write : Flt → State → State} {s t t' : State}
    (h : finishSetter i v write s = .next t) (h' : finishSetter i v write t = .next t')
    (hw : ∀ x, write x (write x s).advance = (write x s).advance) : t' = { t with cp := t'.cp } := by
  cases v with
  | some x =>
    cases h
    cases h'
    rw [hw]
    rfl
  | none =>
    cases h
    cases h'
    rfl

/-- Settles O40: command by command; a setter's value depends on its payload and the parameters alone. -/
theorem settersAndReleasesAreIdempotent : Obligations.SettersAndReleasesAreIdempotent := by
  intro i s t t' hn hk hr h h'
  have hcfg : t.cfg = s.cfg := (exec_fixed h).1
  cases i with
  | noteOn note vel => exact absurd rfl (hn note vel)
  | tick => exact absurd rfl hk
  | render u => exact absurd rfl (hr u)
  | setWave u =>
    cases h
    cases h'
    rfl
  | noteOff note =>
    rw [exec_noteOff] at h h'
    cases h
    cases h'
    simp [Function.comp_def, releaseNote_idem]
  | sustainPedal down =>
    rw [exec_sustainPedal] at h h'
    cases h
    cases h'
    simp [pedalVoices_same]
  | setPoly u =>
    rw [exec_setPoly] at h h'
    cases h
    cases h'
    simp [resize_self (resize_length _ s.voices)]
  | setAttack imm | setDecay imm | setSustain imm | setRelease imm | setGlide imm | setGain imm =>
    simp only [exec, execSetAttack, execSetDecay, execSetSustain, execSetRelease, execSetGlide, execSetGain,
      State.fmt, hcfg] at h h'
    exact finishSetter_twice h h' fun _ => rfl

end Sys2Proof.Machine
end

section
/-! O55: what TICK and RENDER leave unchanged (R58, R180, R186, R187). -/

namespace Sys2Proof.Machine

/-- Ticks write no field of a slot but these four, and of an inactive slot none. -/
structure Ticked (v v' : Voice) : Prop where
  rest     : v' = { v with
    active := v'.active, freqCurrent := v'.freqCurrent, env := v'.env, phase := v'.phase }
  inactive : v.active = false → v' = v

theorem Ticked.refl (v : Voice) : Ticked v v := ⟨rfl, fun _ => rfl⟩

theorem Ticked.trans {u v w : Voice} (h : Ticked u v) (h' : Ticked v w) : Ticked u w where
  rest := by rw [h'.rest, h.rest]
  inactive ha := by
    obtain rfl := h.inactive ha
    exact h'.inactive ha

theorem tickSlot_ticked (s : State) (v : Voice) : Ticked v (tickSlot s v).1 := by
  rw [tickSlot_fst]
  split
  · rename_i ha
    exact ⟨rfl, fun hi => by simp [ha] at hi⟩
  · exact .refl v

theorem ticks_cap (u : Nat) (s : State) : (s.ticks u).cap = s.cap := by
  induction u generalizing s with
  | zero => rfl
  | succ u ih => rw [ticks_succ, ih, State.tickProc_cap]

/-- Each slot after ticks in a row is the slot before them, ticked. -/
theorem ticks_slot (u : Nat) {s : State} {j : Nat} {v : Voice} (hv : s.voices[j]? = some v) :
    ∃ v', (s.ticks u).voices[j]? = some v' ∧ Ticked v v' := by
  induction u generalizing s v with
  | zero => exact ⟨v, hv, .refl v⟩
  | succ u ih =>
    have hv₁ : s.tickProc.voices[j]? = some (tickSlot s v).1 := by
      rw [tickProc_voices_getElem?, hv]
      rfl
    obtain ⟨v', hv', h⟩ := ih hv₁
    exact ⟨v', hv', (tickSlot_ticked s v).trans h⟩

/-- Settles O55: TICK and RENDER are ticks in a row, then CP. -/
theorem tickAndRenderFrame : Obligations.TickAndRenderFrame := by
  intro s t i hi h
  obtain ⟨u, rfl⟩ : ∃ u, t = (s.ticks u).advance := by
    rcases hi with rfl | ⟨u, rfl⟩
    · cases h
      exact ⟨1, rfl⟩
    · cases h
      exact ⟨u, rfl⟩
  refine ⟨?_, ticks_cap u s, fun j v hv => ?_⟩
  · rw [ticks_rest]
    rfl
  · obtain ⟨v', hv', hrest, hinactive⟩ := ticks_slot u hv
    exact ⟨v', hv', hrest, hinactive⟩

end Sys2Proof.Machine
end

section
/-! O1 to O5: the round trip of a command and its word (R65 to R75), the match and mask table (R74), the unassigned
opcodes (R76) and the reserved bits (R66, R77). -/

namespace Sys2Proof

/-! ### The operand fields of a laid-out word (R65) -/

@[simp] theorem noteField_layout (op : BitVec 8) (n v : BitVec 7) (im : BitVec 32) :
    noteField (layout op n v im) = n.toNat := congrArg BitVec.toNat (layout_note op n v im)

@[simp] theorem velField_layout (op : BitVec 8) (n v : BitVec 7) (im : BitVec 32) :
    velField (layout op n v im) = v.toNat := congrArg BitVec.toNat (layout_vel op n v im)

@[simp] theorem immBits_layout (op : BitVec 8) (n v : BitVec 7) (im : BitVec 32) :
    immBits (layout op n v im) = im := layout_imm op n v im

@[simp] theorem immNat_layout (op : BitVec 8) (n v : BitVec 7) (im : BitVec 32) :
    immNat (layout op n v im) = im.toNat := congrArg BitVec.toNat (layout_imm op n v im)

/-- The pedal bit (R69) is the lowest of IMM. -/
theorem pedalField_eq (w : Word) : field w 0 0 = (immBits w).toNat % 2 := by
  simp only [field_eq, immBits, BitVec.extractLsb'_toNat, Nat.shiftRight_eq_div_pow]
  omega

/-- A field's number, as bits, is the field. -/
theorem ofNat_field (w : Word) (hi lo : Nat) :
    BitVec.ofNat (hi + 1 - lo) (field w hi lo) = w.extractLsb' lo (hi + 1 - lo) :=
  (BitVec.ofNat_toNat _ _).trans (BitVec.setWidth_eq _)

@[simp] theorem ofNat_noteField (w : Word) : BitVec.ofNat 7 (noteField w) = w.extractLsb' 48 7 := ofNat_field w 54 48

@[simp] theorem ofNat_velField (w : Word) : BitVec.ofNat 7 (velField w) = w.extractLsb' 40 7 := ofNat_field w 46 40

@[simp] theorem ofNat_immNat (w : Word) : BitVec.ofNat 32 (immNat w) = immBits w := ofNat_field w 31 0

/-! ### A command's row (R73, R74) -/

theorem encode_matches_row (i : Instr) : encode i &&& i.row.mask = i.row.matchWord := by
  cases i with
  | noteOn n v => exact Laws.EncodedWordMatchesRow.noteOn n v
  | noteOff n => exact Laws.EncodedWordMatchesRow.noteOff n
  | sustainPedal d => exact Laws.EncodedWordMatchesRow.sustainPedal d
  | setWave u => exact Laws.EncodedWordMatchesRow.setWave u
  | setAttack x => exact Laws.EncodedWordMatchesRow.setAttack x
  | setDecay x => exact Laws.EncodedWordMatchesRow.setDecay x
  | setSustain x => exact Laws.EncodedWordMatchesRow.setSustain x
  | setRelease x => exact Laws.EncodedWordMatchesRow.setRelease x
  | setGlide x => exact Laws.EncodedWordMatchesRow.setGlide x
  | setGain x => exact Laws.EncodedWordMatchesRow.setGain x
  | setPoly u => exact Laws.EncodedWordMatchesRow.setPoly u
  | tick => exact Laws.EncodedWordMatchesRow.tick
  | render u => exact Laws.EncodedWordMatchesRow.render u

/-- Operand assembly by a row of the table gives a command of that row. -/
theorem row_assemble {r : Row} (hr : r ∈ opcodeTable) (w : Word) : (r.op.assemble w).row = r := by
  have h : ∀ r ∈ opcodeTable, (r.op.assemble 0#64).row = r := by decide
  refine Eq.trans ?_ (h r hr)
  cases r.op <;> rfl

/-- A word decodes to a command exactly when it matches the command's row and has its operands. -/
theorem decode_ok_iff_row (w : Word) (i : Instr) :
    decode w = .ok i ↔ w &&& i.row.mask = i.row.matchWord ∧ i.row.op.assemble w = i := by
  rw [decode_ok_iff]
  constructor
  · rintro ⟨r, hr, hm, rfl⟩
    rw [row_assemble hr]
    exact ⟨hm, rfl⟩
  · rintro ⟨hm, ha⟩
    exact ⟨i.row, i.row_mem, hm, ha.symm⟩

/-! ### From a command to its word and back (R65 to R73) -/

/-- The operands of a command that can be spelled are read back from its word. -/
theorem assemble_encode {i : Instr} (h : i.wf = true) : i.row.op.assemble (encode i) = i := by
  cases i with
  | noteOn n v =>
    simp only [Instr.wf, fits7, Bool.and_eq_true, decide_eq_true_eq] at h
    obtain ⟨hn, hv⟩ := h
    simp [Instr.row, Op.assemble, encode, Nat.mod_eq_of_lt (Nat.lt_succ_of_le hn),
      Nat.mod_eq_of_lt (Nat.lt_succ_of_le hv)]
  | noteOff n =>
    simp only [Instr.wf, fits7, decide_eq_true_eq] at h
    simp [Instr.row, Op.assemble, encode, Nat.mod_eq_of_lt (Nat.lt_succ_of_le h)]
  | setWave u | setPoly u | render u =>
    simp only [Instr.wf, fits32, decide_eq_true_eq] at h
    simp [Instr.row, Op.assemble, encode, Nat.mod_eq_of_lt (Nat.lt_succ_of_le h)]
  | sustainPedal d => cases d <;> simp [Instr.row, Op.assemble, encode, pedalField_eq]
  | setAttack x | setDecay x | setSustain x | setRelease x | setGlide x | setGain x | tick =>
    simp [Instr.row, Op.assemble, encode]

theorem decode_encode {i : Instr} (h : i.wf = true) : decode (encode i) = .ok i :=
  (decode_ok_iff_row _ _).2 ⟨encode_matches_row i, assemble_encode h⟩

/-- Settles O1: the word matches the command's row, whose fields are the command's operands. -/
theorem decodeOfEncodeIsInstr : Obligations.DecodeOfEncodeIsInstr := fun _ h => decode_encode h

/-! ### From a word to its command and back (R65, R66, R75) -/

/-- Assembled operands lie in their fields. -/
theorem wf_assemble (o : Op) (w : Word) : (o.assemble w).wf = true := by
  cases o with
  | noteOn =>
    have hn : noteField w < 2 ^ 7 := BitVec.isLt _
    have hv : velField w < 2 ^ 7 := BitVec.isLt _
    simp only [Op.assemble, Instr.wf, fits7, Bool.and_eq_true, decide_eq_true_eq]
    omega
  | noteOff => exact decide_eq_true (Nat.le_of_lt_succ (BitVec.isLt _))
  | setWave | setPoly | render => exact decide_eq_true (Nat.le_of_lt_succ (BitVec.isLt _))
  | sustainPedal | setAttack | setDecay | setSustain | setRelease | setGlide | setGain | tick => rfl

theorem and_0x7F (x : BitVec 7) : x &&& 0x7F#7 = x := BitVec.and_allOnes

theorem and_0xFFFFFFFF (x : BitVec 32) : x &&& 0xFFFFFFFF#32 = x := BitVec.and_allOnes

/-- Where the mask keeps IMM but for bit 0, the payload is the pedal bit (R69). -/
theorem pedal_payload {w : Word} (h : immBits w &&& 0xFFFFFFFE#32 = 0#32) :
    (if field w 0 0 == 1 then 1#32 else 0#32) = immBits w := by
  have hhigh : (immBits w).toNat / 2 = 0 := by
    have h31 := (imm_high_kept w).1 h
    simp only [field_eq] at h31
    simp only [immBits, BitVec.extractLsb'_toNat, Nat.shiftRight_eq_div_pow]
    omega
  rw [pedalField_eq]
  apply BitVec.eq_of_toNat_eq
  split
  case isTrue h1 =>
    have h1 := eq_of_beq h1
    show 1 = _
    omega
  case isFalse h0 =>
    have h0 : ¬ (immBits w).toNat % 2 = 1 := fun h1 => h0 (beq_iff_eq.2 h1)
    show 0 = _
    omega

/-- A word that matches an FMT_U or FMT_F row is laid out from its opcode and its payload (R66). -/
theorem word_of_payload {w : Word} {op : BitVec 8}
    (h : w &&& 0xFFFFFFFF00000000#64 = parts op 0#1 0#7 0#1 0#7 0#8 0#32) :
    layout op 0#7 0#7 (immBits w) = w := by
  obtain ⟨hw, hn, hv, -⟩ := word_of_match (nm := 0x7F#7) (vm := 0x7F#7) (im := 0#32) h
  rw [and_0x7F] at hn hv
  rw [hn, hv] at hw
  exact hw.symm

/-- A word that matches its command's row is that command's encoding: what the row's mask leaves out are the
operands, and the rest is the match word's. -/
theorem encode_of_decode {w : Word} {i : Instr} (h : decode w = .ok i) : encode i = w := by
  obtain ⟨hm, ha⟩ := (decode_ok_iff_row w i).1 h
  cases i with
  | noteOn n v =>
    cases ha
    obtain ⟨hw, -, -, hi⟩ := word_of_match (op := 0x01#8) (nm := 0#7) (vm := 0#7) (im := 0xFFFFFFFF#32) hm
    rw [and_0xFFFFFFFF] at hi
    rw [hi] at hw
    simpa [encode, Instr.opcode] using hw.symm
  | noteOff n =>
    cases ha
    obtain ⟨hw, -, hv, hi⟩ := word_of_match (op := 0x02#8) (nm := 0#7) (vm := 0x7F#7) (im := 0xFFFFFFFF#32) hm
    rw [and_0x7F] at hv
    rw [and_0xFFFFFFFF] at hi
    rw [hi, hv] at hw
    simpa [encode, Instr.opcode] using hw.symm
  | sustainPedal d =>
    cases ha
    obtain ⟨hw, hn, hv, hi⟩ := word_of_match (op := 0x03#8) (nm := 0x7F#7) (vm := 0x7F#7) (im := 0xFFFFFFFE#32) hm
    rw [and_0x7F] at hn hv
    rw [hn, hv] at hw
    simp only [encode, pedal_payload hi]
    exact hw.symm
  | setWave u | setPoly u | render u =>
    cases ha
    simp only [encode, Instr.opcode, ofNat_immNat]
    exact word_of_payload hm
  | setAttack x | setDecay x | setSustain x | setRelease x | setGlide x | setGain x =>
    cases ha
    simp only [encode, Instr.opcode]
    exact word_of_payload hm
  | tick =>
    exact hm.symm.trans (BitVec.and_allOnes (x := w))

/-- Settles O2: the operands are fields of the word, and the word matches the command's row. -/
theorem encodeOfDecodedIsWord : Obligations.EncodeOfDecodedIsWord := by
  intro w i h
  refine ⟨?_, encode_of_decode h⟩
  rw [← ((decode_ok_iff_row w i).1 h).2]
  exact wf_assemble _ w

/-! ### The table (R74) -/

/-- Settles O3: a matching row's OP is the word's, and rows are told apart by OP. -/
theorem matchAndMaskSelectTheCommand : Obligations.MatchAndMaskSelectTheCommand := by
  refine ⟨rfl, fun r hr w => ?_, fun r hr r' hr' w h h' => ?_⟩
  · rw [decode_ok_iff_row, row_assemble hr]
    exact (and_iff_left rfl).symm
  · exact row_eq_of_op hr hr' ((op_of_match hr h).symm.trans (op_of_match hr' h'))

/-! ### Unassigned opcodes (R76) -/

/-- The opcodes of R73. -/
def assignedOps : List Nat := [0x01, 0x02, 0x03, 0x10, 0x11, 0x12, 0x13, 0x14, 0x15, 0x16, 0x17, 0x20, 0x21]

theorem opcodeTable_ops : (opcodeTable.map fun r => field r.matchWord 63 56) = assignedOps := by decide

theorem mem_assignedOps_iff (k : Nat) : k ∈ assignedOps ↔ ∃ r ∈ opcodeTable, field r.matchWord 63 56 = k := by
  rw [← opcodeTable_ops, List.mem_map]

theorem decode_unassigned_iff (w : Word) :
    decode w = .illegal .unassignedOpcode ↔ field w 63 56 ∉ assignedOps := by
  rw [mem_assignedOps_iff]
  constructor
  · rintro h ⟨r, hr, ho⟩
    simp only [decode, rowOf_of_mem hr ho.symm] at h
    split at h <;> cases h
  · intro h
    cases hrow : rowOf w with
    | none => simp only [decode, hrow]
    | some r => exact absurd ⟨r, rowOf_mem hrow⟩ h

/-- A word with a row's OP is illegal exactly when it does not match the row. -/
theorem decode_reserved_iff {w : Word} {r : Row} (hr : r ∈ opcodeTable)
    (ho : field w 63 56 = field r.matchWord 63 56) :
    decode w = .illegal .reservedBitNonZero ↔ ¬ w &&& r.mask = r.matchWord := by
  simp only [decode, rowOf_of_mem hr ho]
  split <;> simp_all

/-- Settles O4: the opcodes of R73 and the ranges of R76 are each other's complement. -/
theorem unassignedOpcodesAreIllegal : Obligations.UnassignedOpcodesAreIllegal := by
  refine ⟨fun w => ?_, by decide +kernel, by decide⟩
  rw [decode_unassigned_iff]
  simp only [assignedOps, List.mem_cons, List.not_mem_nil, or_false]
  omega

/-! ### Reserved bits (R66, R77) -/

/-- What the masks of R74 keep of NOTE, by opcode: the whole field where its format marks it 0 (R66). -/
def noteMask (k : Nat) : BitVec 7 := if k ∈ [0x01, 0x02] then 0#7 else 0x7F#7

/-- The same of VEL. -/
def velMask (k : Nat) : BitVec 7 := if k = 0x01 then 0#7 else 0x7F#7

/-- The same of IMM, of which FMT_B marks all but bit 0 (R69). -/
def immMask (k : Nat) : BitVec 32 :=
  if k ∈ [0x01, 0x02, 0x20] then 0xFFFFFFFF#32 else if k = 0x03 then 0xFFFFFFFE#32 else 0#32

/-- Every row of R74 has the mask of its opcode, and its match word is that opcode alone. -/
theorem row_eq_masks {r : Row} (hr : r ∈ opcodeTable) {k : Nat} (hk : field r.matchWord 63 56 = k) :
    r.mask = parts 0xFF#8 1#1 (noteMask k) 1#1 (velMask k) 0xFF#8 (immMask k) ∧
      r.matchWord = parts (BitVec.ofNat 8 k) 0#1 0#7 0#1 0#7 0#8 0#32 := by
  subst hk
  have h : ∀ r ∈ opcodeTable, r.mask = parts 0xFF#8 1#1 (noteMask (field r.matchWord 63 56)) 1#1
      (velMask (field r.matchWord 63 56)) 0xFF#8 (immMask (field r.matchWord 63 56)) ∧
      r.matchWord = parts (BitVec.ofNat 8 (field r.matchWord 63 56)) 0#1 0#7 0#1 0#7 0#8 0#32 := by decide
  exact h r hr

theorem noteMask_kept (w : Word) (k : Nat) :
    w.extractLsb' 48 7 &&& noteMask k = 0#7 ↔ (k ∉ [0x01, 0x02] → field w 54 48 = 0) := by
  unfold noteMask
  split
  case isTrue h => simp [h]
  case isFalse h => rw [noteField_kept, imp_iff_right h]

theorem velMask_kept (w : Word) (k : Nat) :
    w.extractLsb' 40 7 &&& velMask k = 0#7 ↔ (k ≠ 0x01 → field w 46 40 = 0) := by
  unfold velMask
  split
  case isTrue h => simp [h]
  case isFalse h => rw [velField_kept, imp_iff_right h]

theorem immMask_kept (w : Word) (k : Nat) : w.extractLsb' 0 32 &&& immMask k = 0#32 ↔
    (k ∈ [0x01, 0x02, 0x20] → field w 31 0 = 0) ∧ (k = 0x03 → field w 31 1 = 0) := by
  unfold immMask
  split
  case isTrue h =>
    have h3 : k ≠ 0x03 := by rintro rfl; simp at h
    rw [imm_kept, imp_iff_right h]
    exact (and_iff_left fun h' => absurd h' h3).symm
  case isFalse h =>
    split
    case isTrue h3 =>
      rw [imm_high_kept, imp_iff_right h3]
      exact (and_iff_right fun h' => absurd h' h).symm
    case isFalse h3 => simp [h, h3]

theorem extract_eq_zero_iff (w : Word) (hi lo : Nat) : w.extractLsb' lo (hi + 1 - lo) = 0 ↔ field w hi lo = 0 := by
  rw [← BitVec.toNat_inj]
  rfl

/-- A word with a row's OP matches it exactly when every bit that its format marks 0 is 0 (R66). -/
theorem match_iff_reserved_zero {w : Word} {r : Row} (hr : r ∈ opcodeTable)
    (ho : field r.matchWord 63 56 = field w 63 56) : w &&& r.mask = r.matchWord ↔
      field w 55 55 = 0 ∧ (field w 63 56 ∉ [0x01, 0x02] → field w 54 48 = 0) ∧ field w 47 47 = 0 ∧
        (field w 63 56 ≠ 0x01 → field w 46 40 = 0) ∧ field w 39 32 = 0 ∧
        (field w 63 56 ∈ [0x01, 0x02, 0x20] → field w 31 0 = 0) ∧ (field w 63 56 = 0x03 → field w 31 1 = 0) := by
  obtain ⟨hmask, hmatch⟩ := row_eq_masks hr ho
  rw [hmask, hmatch, and_mask_iff, noteMask_kept, velMask_kept, immMask_kept,
    ← extract_eq_zero_iff w 55 55, ← extract_eq_zero_iff w 47 47, ← extract_eq_zero_iff w 39 32]
  exact and_iff_right (ofNat_field w 63 56).symm

/-- Settles O5: a word with an assigned OP is illegal exactly when it does not match the row of its OP. -/
theorem reservedBitsAreIllegal : Obligations.ReservedBitsAreIllegal := by
  intro w
  by_cases hop : field w 63 56 ∈ assignedOps
  · refine Iff.trans ?_ (and_iff_right hop).symm
    obtain ⟨r, hr, ho⟩ := (mem_assignedOps_iff _).1 hop
    rw [decode_reserved_iff hr ho.symm, match_iff_reserved_zero hr ho]
    tauto
  · rw [(decode_unassigned_iff w).2 hop]
    exact ⟨nofun, fun h => absurd h.1 hop⟩

end Sys2Proof
end

section
/-! O9, O6, O8: the assembler (R81), the worked encodings (R83) and the pseudo-commands (R82). -/

namespace Sys2Proof.Machine

/-! ### A line (R81) -/

/-- A line with a mnemonic spells what its mnemonic and operands do. -/
theorem spelledCommands_of_head {line : List Char} {h : Head} (hh : lineHead line = some h) :
    spelledCommands line = parseLine h (lineOperands line) := by
  have hne : (lineText line).isEmpty = false := by
    rw [List.isEmpty_eq_false_iff]
    intro he
    rw [lineHead, he] at hh
    have hnone : heads.lookup ([] : List Char) = none := by decide
    rw [List.takeWhile_nil, hnone] at hh
    cases hh
  simp [spelledCommands, hne, hh]

/-- Of the lines that spell commands, exactly those are refused that give one an operand outside its field. -/
theorem assembleLine_of_spelled {line : List Char} {is : List Instr} (h : spelledCommands line = some is) :
    assembleLine line = if ∃ i ∈ is, i.wf = false then none else some is := by
  rw [assembleLine, h, Option.bind_some]
  by_cases hwf : ∀ i ∈ is, i.wf = true
  · rw [if_pos (List.all_eq_true.2 hwf), if_neg]
    rintro ⟨i, hi, hf⟩
    rw [hwf i hi] at hf
    cases hf
  · rw [if_neg (fun h => hwf (List.all_eq_true.1 h)), if_pos]
    simpa using hwf

/-- A line that spells one command gives it exactly when it can be spelled. -/
theorem assembleLine_of_parse {line : List Char} {h : Head} {ops : List (List Char)} {i : Instr}
    (hh : lineHead line = some h) (hops : lineOperands line = ops) (hp : parseLine h ops = some [i]) :
    assembleLine line = if i.wf = true then some [i] else none := by
  subst hops
  rw [assembleLine_of_spelled ((spelledCommands_of_head hh).trans hp)]
  cases hwf : i.wf <;> simp [hwf]

theorem assembleLine_of_parse_none {line : List Char} {h : Head} {ops : List (List Char)}
    (hh : lineHead line = some h) (hops : lineOperands line = ops) (hp : parseLine h ops = none) :
    assembleLine line = none := by
  subst hops
  rw [assembleLine, spelledCommands_of_head hh, hp, Option.bind_none]

/-- Whatever a line gives can be spelled. -/
theorem wf_of_assembleLine {line : List Char} {is : List Instr} (h : assembleLine line = some is) :
    ∀ i ∈ is, i.wf = true := by
  obtain ⟨js, -, h⟩ := Option.bind_eq_some_iff.1 h
  split at h
  · cases h
    exact List.all_eq_true.1 ‹_›
  · cases h

/-! ### One integer operand, by mnemonic (R66 to R71) -/

theorem assembleLine_noteOn {line a b : List Char} {n v : Nat} (hh : lineHead line = some (.op .noteOn))
    (hops : lineOperands line = [a, b]) (ha : parseInt a = some n) (hb : parseInt b = some v) :
    assembleLine line = if n ≤ 127 ∧ v ≤ 127 then some [.noteOn n v] else none := by
  rw [assembleLine_of_parse hh hops (i := .noteOn n v) (by simp [parseLine, ha, hb])]
  simp [Instr.wf, fits7]

theorem assembleLine_noteOff {line a : List Char} {n : Nat} (hh : lineHead line = some (.op .noteOff))
    (hops : lineOperands line = [a]) (ha : parseInt a = some n) :
    assembleLine line = if n ≤ 127 then some [.noteOff n] else none := by
  rw [assembleLine_of_parse hh hops (i := .noteOff n) (by simp [parseLine, ha])]
  simp [Instr.wf, fits7]

theorem parsePedal_eq {a : List Char} {n : Nat} (ha : parseInt a = some n) :
    parsePedal a = if n = 0 then some false else if n = 1 then some true else none := by
  rw [parsePedal, ha]
  match n with
  | 0 | 1 => rfl
  | n + 2 => simp

/-- Every pedal line, by what its operand parses to. -/
theorem assembleLine_parsePedal {line a : List Char} (hh : lineHead line = some (.op .sustainPedal))
    (hops : lineOperands line = [a]) : assembleLine line = (parsePedal a).map fun d => [.sustainPedal d] := by
  cases hp : parsePedal a with
  | none => exact assembleLine_of_parse_none hh hops (by simp [parseLine, hp])
  | some d => exact assembleLine_of_parse hh hops (i := .sustainPedal d) (by simp [parseLine, hp])

theorem assembleLine_sustainPedal {line a : List Char} {n : Nat} (hh : lineHead line = some (.op .sustainPedal))
    (hops : lineOperands line = [a]) (ha : parseInt a = some n) : assembleLine line =
      if n = 0 then some [.sustainPedal false] else if n = 1 then some [.sustainPedal true] else none := by
  rw [assembleLine_parsePedal hh hops, parsePedal_eq ha]
  split
  · rfl
  · split <;> rfl

/-- The three mnemonics of FMT_U (R71). -/
theorem assembleLine_fmtU {line : List Char} {h : Head} {ops : List (List Char)} {i : Instr} {n : Nat}
    (hh : lineHead line = some h) (hops : lineOperands line = ops) (hp : parseLine h ops = some [i])
    (hwf : i.wf = fits32 n) : assembleLine line = if n ≤ 2 ^ 32 - 1 then some [i] else none := by
  rw [assembleLine_of_parse hh hops hp, hwf]
  simp [fits32]

/-! ### A text (R81) -/

theorem assembleLines_cons_some {l : List Char} {ls : List (List Char)} {ws : List Word}
    (h : assembleLines (l :: ls) = some ws) :
    ∃ is ws', assembleLine l = some is ∧ assembleLines ls = some ws' ∧ ws = is.map encode ++ ws' := by
  rw [assembleLines] at h
  split at h
  · rename_i is ws' his hws'
    cases h
    exact ⟨is, ws', his, hws', rfl⟩
  · cases h

/-- Every line of an accepted text is accepted, and its words are those of its lines' commands. -/
theorem assembleLines_some {ls : List (List Char)} {ws : List Word} (h : assembleLines ls = some ws) :
    (∀ l ∈ ls, assembleLine l ≠ none) ∧ ∀ w ∈ ws, ∃ i : Instr, i.wf = true ∧ encode i = w := by
  induction ls generalizing ws with
  | nil =>
    cases h
    exact ⟨nofun, nofun⟩
  | cons l ls ih =>
    obtain ⟨is, ws', his, hws', rfl⟩ := assembleLines_cons_some h
    obtain ⟨hlines, hwords⟩ := ih hws'
    refine ⟨List.forall_mem_cons.2 ⟨by simp [his], hlines⟩, fun w hw => ?_⟩
    rcases List.mem_append.1 hw with hw | hw
    · obtain ⟨i, hi, rfl⟩ := List.mem_map.1 hw
      exact ⟨i, wf_of_assembleLine his i hi, rfl⟩
    · exact hwords w hw

/-- Settles O9: operand by operand, then line by line; the words decode by `decode_encode`. -/
theorem assembledWordsAreLegal : Obligations.AssembledWordsAreLegal := by
  refine ⟨fun line a n ha => ⟨fun b v hh hops hb => assembleLine_noteOn hh hops ha hb, fun hops => ?_⟩,
    fun line is h => assembleLine_of_spelled h, fun text line hl hnone => ?_, fun text ws h w hw => ?_⟩
  · exact ⟨fun hh => assembleLine_noteOff hh hops ha, fun hh => assembleLine_sustainPedal hh hops ha,
      fun hh => assembleLine_fmtU hh hops (by simp [parseLine, ha]) rfl,
      fun hh => assembleLine_fmtU hh hops (by simp [parseLine, ha]) rfl,
      fun hh => assembleLine_fmtU hh hops (by simp [parseLine, ha]) rfl⟩
  · rw [Option.eq_none_iff_forall_ne_some]
    exact fun ws h => (assembleLines_some h).1 line hl hnone
  · obtain ⟨i, hwf, rfl⟩ := (assembleLines_some h).2 w hw
    exact ⟨i, hwf, rfl, decode_encode hwf⟩

/-! ### The listed encodings and expansions (R82, R83) -/

/-- Settles O6: the text through the assembler, then each word through the decoder. -/
theorem workedEncodingsDecode : Obligations.WorkedEncodingsDecode := by
  refine ⟨by decide +kernel, ?_⟩
  decide

/-- Settles O8: each line through the assembler, the expansion of SET_ADSR by its definition. -/
theorem pseudoCommandsExpand : Obligations.PseudoCommandsExpand := by
  refine ⟨by decide +kernel, by decide +kernel, fun _ _ _ _ => rfl, ?_⟩
  decide +kernel

end Sys2Proof.Machine
end

section
/-! O10, O11: the step of a command word (R79, R80, R202). -/

namespace Sys2Proof.Machine

/-- While STATUS is Running an illegal word is refused (R79). -/
theorem step_illegal {s : State} {w : Word} {rest : List HostInput} {r : RefusalReason} (hs : s.status = .running)
    (hi : s.input = .command w :: rest) (hd : decode w = .illegal r) :
    step s = .next { s with input := rest, status := .refused (.word w) r } := by
  simp only [step, hi, hs, hd, State.withInput, State.refuse]

/-- While STATUS is Refused a word has no effect (R202). -/
theorem step_refused {s : State} {w : Word} {rest : List HostInput} {info : RefusalInfo} {r : RefusalReason}
    (hs : s.status = .refused info r) (hi : s.input = .command w :: rest) :
    step s = .next { s with input := rest } := by
  simp only [step, hi, hs, State.withInput]

/-- Settles O10, by `step_command`. -/
theorem stepRunsDecodedCommand : Obligations.StepRunsDecodedCommand := by
  intro s w rest i hs hi hd
  have hstep := step_command hs hd rest
  rw [← hi] at hstep
  exact hstep

/-- Settles O11: the refusal, then the word that finds the block Refused. -/
theorem illegalWordIsRefused : Obligations.IllegalWordIsRefused := by
  intro s w rest r hs hi hd
  refine ⟨step_illegal hs hi hd, ?_⟩
  rintro w' later rfl
  exact step_refused rfl rfl

end Sys2Proof.Machine
end

section
/-! O39, O41, O50: the frame of the setters (R97, R111), the TICK as the procedure writes it (R180 to R186), the
`mod 1` of the triangle (R94). -/

namespace Sys2Proof.Machine

/-! ### The setters (R97, R111) -/

/-- Settles O39: SET_WAVE completes, each real-valued setter stores its one register or is refused. -/
theorem settersFrame : Obligations.SettersFrame := by
  intro s t u imm
  refine ⟨fun h => ?_, fun h => ?_, fun h => ?_, fun h => ?_, fun h => ?_, fun h => ?_, fun h => ?_⟩
  · rw [exec_setWave] at h
    cases h
    rfl
  · rcases execSetAttack_next h with ⟨x, -, rfl⟩ | ⟨-, rfl⟩ <;> rfl
  · rcases execSetDecay_next h with ⟨x, -, rfl⟩ | ⟨-, rfl⟩ <;> rfl
  · rcases execSetSustain_next h with ⟨x, -, rfl⟩ | ⟨-, rfl⟩ <;> rfl
  · rcases execSetRelease_next h with ⟨x, -, rfl⟩ | ⟨-, rfl⟩ <;> rfl
  · rcases execSetGlide_next h with ⟨x, -, rfl⟩ | ⟨-, rfl⟩ <;> rfl
  · rcases execSetGain_next h with ⟨x, -, rfl⟩ | ⟨-, rfl⟩ <;> rfl

/-! ### The loop of the tick (R180) -/

/-- The rule's waveform formulas are the model's oscillator (R90 to R94). -/
theorem waveform_eq_osc (F : FltFormat) (w : Wave) (p : Flt) : Spec.waveform F w p = osc F w p := by
  cases w <;> rfl

/-- What the loop carries after one more slot: the slots done, the sum and the count, which only a contributing
slot enters (R180 step 7, R182). -/
def addSlot (F : FltFormat) (acc : List Voice × Flt × Nat) (r : Voice × Flt) : List Voice × Flt × Nat :=
  if r.1.contributes F then (acc.1 ++ [r.1], F.add acc.2.1 r.2, acc.2.2 + 1) else (acc.1 ++ [r.1], acc.2.1, acc.2.2)

/-- Deactivation writes nothing but a finished slot's `active` (R116). -/
theorem deactivate_eq (F : FltFormat) (v : Voice) :
    v.deactivate F = if v.finished F then { v with active := false } else v := by
  unfold Voice.deactivate
  cases v.finished F <;> rfl

/-- What a tick adds of a slot, were it to contribute (R180 step 3, R181). -/
theorem tickSlot_snd (s : State) (v : Voice) : (tickSlot s v).2 =
    if v.active then contribution s.fmt (osc s.fmt s.wave v.phase) (stepVoice s v)
    else if s.fmt.gt v.env Flt.zero then contribution s.fmt (osc s.fmt s.wave v.phase) v
    else Flt.zero := by
  unfold tickSlot
  split
  · rfl
  · split <;> rfl

/-- The body of the loop takes the slot's tick and adds its result (R180 steps 1 to 7). -/
theorem tickBody_eq_addSlot (s : State) (acc : List Voice × Flt × Nat) (v : Voice) :
    Spec.tickBody s acc v = addSlot s.fmt acc (tickSlot s v) := by
  rw [← Prod.mk.eta (p := tickSlot s v), tickSlot_fst, deactivate_eq, tickSlot_snd, ← waveform_eq_osc]
  rfl

/-- The loop over slot results is the three readings of them: the slots, the sum in slot order, the count. -/
theorem foldl_addSlot (F : FltFormat) (rs : List (Voice × Flt)) (acc : List Voice × Flt × Nat) :
    rs.foldl (addSlot F) acc =
      (acc.1 ++ rs.map Prod.fst, rs.foldl (fun sum r => if r.1.contributes F then F.add sum r.2 else sum) acc.2.1,
        acc.2.2 + voicesOn F rs) := by
  induction rs generalizing acc with
  | nil => simp [voicesOn]
  | cons r rs ih =>
    rw [List.foldl_cons, ih, addSlot]
    cases hc : r.1.contributes F <;> simp [voicesOn, hc, Nat.add_assoc, Nat.add_comm 1]

/-- The rule's loop gives the slots, the sum and the count that the model's tick computes one by one. -/
theorem foldl_tickBody (s : State) : s.voices.foldl (Spec.tickBody s) ([], Flt.zero, 0) =
    ((tickSlots s).map Prod.fst, mixSum s.fmt (tickSlots s), voicesOn s.fmt (tickSlots s)) := by
  have hbody : Spec.tickBody s = fun acc v => addSlot s.fmt acc (tickSlot s v) :=
    funext fun acc => funext (tickBody_eq_addSlot s acc)
  rw [hbody, ← List.foldl_map, foldl_addSlot, List.nil_append, Nat.zero_add]
  rfl

/-- Settles O41: with the loop's results named, MIX and the sample are R183 to R185 as the model writes them. -/
theorem tickFollowsTheProcedure : Obligations.TickFollowsTheProcedure := by
  intro s vs sum n hloop target m y htarget hm hy
  rw [foldl_tickBody] at hloop
  cases hloop
  subst htarget hm hy
  rfl

/-! ### The `mod 1` of the triangle (R94) -/

/-- Settles O50: the phase over TWO_PI is rounded to a value below 1, whose floor is +0.0. -/
theorem triangleModChangesNothing : Obligations.TriangleModChangesNothing := by
  intro F p hp
  have hlt := FltFormat.lt_of_le_below (FltFormat.one_posFinite F) (div_twoPi_le_below hp)
  exact ⟨hlt, fracPart_of_lt_one (phase_div_nonneg hp (twoPi_posFinite F)) hlt⟩

end Sys2Proof.Machine
end

section
/-! O42, O43, O44, O22: the envelope of a slot under a TICK (R110, R112 to R115, R123) and along a run (R122). -/

namespace Sys2Proof.FltFormat

open Flt (zero)

variable {F : FltFormat}

/-! ### Comparisons -/

theorem zero_le_zero : F.le zero zero = true := by simp [le_iff]

theorem lt_self (a : Flt) : F.lt a a = false := by simp [lt]

theorem le_eq_false_of_lt {a b : Flt} (h : F.lt a b = true) : F.le b a = false := by
  obtain ⟨-, -, hkey⟩ := (lt_iff a b).1 h
  have hkey' : ¬ b.key ≤ a.key := by omega
  simp [le, hkey']

theorem unit_bounds {e : Flt} (h : F.unit e = true) : F.le zero e = true ∧ F.le e F.one = true := by
  have he := unit_nonneg h
  rw [le_iff_mag zero_nonneg he, le_iff_mag he one_nonneg]
  exact ⟨Nat.zero_le _, ((unit_iff e).1 h).2⟩

end Sys2Proof.FltFormat

namespace Sys2Proof.Machine

/-! ### The transition rule, one equation per branch (R110, R112 to R114) -/

theorem envNext_attack {s : State} {e : Flt} (h1 : s.fmt.lt e s.fmt.one = true) :
    envNext s true e = attackStep s.fmt s.dt s.attack e := by simp [envNext, h1]

theorem envNext_decay {s : State} {e : Flt} (h1 : s.fmt.lt e s.fmt.one = false) (hs : s.fmt.gt e s.sustain = true) :
    envNext s true e = decayStep s.fmt s.dt s.decay s.sustain e := by simp [envNext, h1, hs]

theorem envNext_hold {s : State} {e : Flt} (h1 : s.fmt.lt e s.fmt.one = false) (hs : s.fmt.gt e s.sustain = false) :
    envNext s true e = e := by simp [envNext, h1, hs]

theorem envNext_release (s : State) (e : Flt) : envNext s false e = releaseStep s.fmt s.dt s.release e := rfl

/-- With attack 0 the attack is instant (R123). -/
theorem envNext_attack_zero {s : State} {e : Flt} (h0 : s.attack = Flt.zero) (h1 : s.fmt.lt e s.fmt.one = true) :
    envNext s true e = s.fmt.one := by
  rw [envNext_attack h1, h0, attackStep, if_pos FltFormat.zero_le_zero]

/-- With release 0 the release is instant (R123). -/
theorem envNext_release_zero {s : State} (h0 : s.release = Flt.zero) (e : Flt) : envNext s false e = Flt.zero := by
  rw [envNext_release, h0, releaseStep, if_pos FltFormat.zero_le_zero]

/-! ### One TICK (R110, R123) -/

theorem tickSlot_env (s : State) {v : Voice} (ha : v.active = true) :
    (tickSlot s v).1.env = envNext s v.gate v.env := by
  rw [tickSlot_active s ha]
  rfl

/-- An active slot's envelope after a TICK is the transition rule's (R110). -/
theorem exec_tick_env {s t : State} {i : Nat} {v : Voice} (h : exec .tick s = .next t)
    (hv : s.voices[i]? = some v) (ha : v.active = true) :
    ∃ v', t.voices[i]? = some v' ∧ v'.env = envNext s v.gate v.env :=
  ⟨_, exec_tick_slot h hv, tickSlot_env s ha⟩

/-- Settles O42: each clause is one branch of `envNext`. -/
theorem envelopeTransitionRule : Obligations.EnvelopeTransitionRule := by
  intro s t i v h hv ha
  obtain ⟨v', hv', henv⟩ := exec_tick_env h hv ha
  refine ⟨v', hv', fun hg h1 => ?_, fun hg h1 hs => ?_, fun hg => ?_, fun hg h1 hs => ?_⟩ <;> rw [henv, hg]
  · exact envNext_attack h1
  · exact envNext_decay h1 hs
  · exact envNext_release s v.env
  · exact envNext_hold h1 hs

/-- Settles O43: the attack and the release branch with their times at +0.0. -/
theorem zeroTimesAreInstant : Obligations.ZeroTimesAreInstant := by
  intro s t i v h hv ha
  obtain ⟨v', hv', henv⟩ := exec_tick_env h hv ha
  refine ⟨fun h0 hg h1 => ⟨v', hv', ?_⟩, fun h0 hg => ⟨v', hv', ?_⟩⟩ <;> rw [henv, hg]
  · exact envNext_attack_zero h0 h1
  · exact envNext_release_zero h0 v.env

/-! ### Two TICKs of a gated slot (R115) -/

theorem decayStep_of_pos {F : FltFormat} {decay : Flt} (h : F.gt decay Flt.zero = true) (dt sustain e : Flt) :
    decayStep F dt decay sustain e =
      F.max (F.sub e (F.div (F.mul dt (F.sub F.one sustain)) decay)) sustain := by
  rw [decayStep, FltFormat.le_eq_false_of_lt h, if_neg Bool.false_ne_true]

/-- Settles O44: at 1.0 the slot decays; below it, still gated and so still active, it attacks, and the attack is
instant. -/
theorem gatedEnvelopeHovers : Obligations.GatedEnvelopeHovers := by
  intro s t t' i v hinv h h' hv hg he hattack hsus hdecay
  have hok := hinv.voices v (List.mem_of_getElem? hv)
  have henv := tickSlot_env s (hok.gate_act hg)
  obtain ⟨-, -, hg1, -⟩ := tickSlot_keeps s v
  have ha1 : (tickSlot s v).1.active = true := (tickSlot_ok hinv.params hok).gate_act (hg1.trans hg)
  have hv1 := exec_tick_slot h hv
  obtain ⟨v2, hv2, henv2⟩ := exec_tick_env h' hv1 ha1
  refine ⟨_, v2, hv1, hv2, ?_, fun hlt => ?_⟩
  · rw [henv, hg, he, envNext_decay (FltFormat.lt_self _) hsus, decayStep_of_pos hdecay]
  · obtain rfl : s.tickProc.advance = t := by simpa [exec_tick] using h
    rw [henv2, hg1, hg]
    exact envNext_attack_zero (s := s.tickProc.advance) hattack hlt

/-! ### A run (R122) -/

/-- What every step keeps holds at the end of every run. -/
theorem run_keeps {P : State → Prop} (hstep : ∀ s t, P s → step s = .next t → P t) {k : Nat} {s t : State}
    (hs : P s) (h : Sys2Proof.core.run k s = .next t) : P t := by
  induction k generalizing s with
  | zero => cases h; exact hs
  | succ k ih =>
    cases hst : step s with
    | next u => exact ih (hstep s u hs hst) ((run_succ hst k).symm.trans h)
    | fault r => cases r
    | refused r =>
      simp [Host.Core.run, show Sys2Proof.core.step s = .refused r from hst] at h

theorem Inv.run {k : Nat} {s t : State} (hs : Inv s) (h : Sys2Proof.core.run k s = .next t) : Inv t :=
  run_keeps (fun u u' hu hstep => (stepKeepsInv u u' hu hstep).1) hs h

theorem run_cfg {k : Nat} {s t : State} (h : Sys2Proof.core.run k s = .next t) : t.cfg = s.cfg :=
  run_keeps (P := fun u => u.cfg = s.cfg)
    (fun u u' hu hstep => (rateAndParametersAreFixed u u' hstep).1.trans hu) rfl h

/-- Settles O22: the invariant holds at the end of the run, and the format is still that of its start. -/
theorem envelopeStaysInUnitRange : Obligations.EnvelopeStaysInUnitRange := by
  intro k s t hs h v hv
  have hfmt : t.fmt = s.fmt := congrArg Config.fmt (run_cfg h)
  rw [← hfmt]
  exact FltFormat.unit_bounds ((hs.run h).voices v hv).env

end Sys2Proof.Machine
end

section
/-! O38: a refused NaN payload (R111, R201, R202). -/

namespace Sys2Proof.Machine

/-- Under NAN_POLICY = Refuse a NaN has no sanitised value (R111): `sanTime_none` read the other way. -/
theorem sanTime_refuse {F : FltFormat} {x : Flt} (h : F.isNaN x = true) : sanTime F .refuse x = none := if_pos h

theorem sanUnit_refuse {F : FltFormat} {x : Flt} (h : F.isNaN x = true) : sanUnit F .refuse x = none := if_pos h

/-- Settles O38: none of the six setters has a value to store, so each ends in the refusal. -/
theorem nanPayloadIsRefused : Obligations.NanPayloadIsRefused := by
  intro s imm i hi hp hn
  have htime : sanTime s.fmt s.cfg.nanPolicy (s.fmt.toFLT imm) = none := by rw [hp, sanTime_refuse hn]
  have hunit : sanUnit s.fmt s.cfg.nanPolicy (s.fmt.toFLT imm) = none := by rw [hp, sanUnit_refuse hn]
  simp only [List.mem_cons, List.not_mem_nil, or_false] at hi
  rcases hi with rfl | rfl | rfl | rfl | rfl | rfl <;>
    simp only [exec, execSetAttack, execSetDecay, execSetSustain, execSetRelease, execSetGlide, execSetGain, htime,
      hunit, finishSetter_none, State.refuse]

end Sys2Proof.Machine
end

section
/-! O46, O25, O26, O27: the glide step of a slot under a TICK (R131), and the slot a NOTE_ON writes (R151 to R154). -/

namespace Sys2Proof.Machine

/-! ### The glide step (R131, R132) -/

theorem tickSlot_freqCurrent (s : State) {v : Voice} (ha : v.active = true) :
    (tickSlot s v).1.freqCurrent = glideNext s v.freqTarget v.freqCurrent := by
  rw [tickSlot_active s ha]
  rfl

/-- Settles O46: of the tick's steps only the glide step writes `freq_current`, and none writes the target. -/
theorem glideStepRule : Obligations.GlideStepRule := by
  intro s t i v h hv ha
  obtain ⟨-, -, -, htarget, -⟩ := tickSlot_keeps s v
  refine ⟨_, exec_tick_slot h hv, htarget, ?_⟩
  rw [tickSlot_freqCurrent s ha]
  exact if_congr Bool.or_eq_true_iff rfl rfl

/-! ### The slot NOTE_ON finds (R151, R153, R154) -/

/-- A slot holds the note when it is active with it (R151). -/
theorem Voice.holds_eq_true_iff {note : Nat} {v : Voice} :
    v.holds note = true ↔ v.active = true ∧ v.note.toNat = note := by
  simp [Voice.holds]

theorem Voice.holds_eq_false {note : Nat} {v : Voice} (h : ¬(v.active = true ∧ v.note.toNat = note)) :
    v.holds note = false :=
  Bool.eq_false_iff.2 (mt Voice.holds_eq_true_iff.1 h)

/-- The first slot of the lowest envelope is the only one of its kind, so STEAL_INDEX is it (R153). -/
theorem stealIndex_eq_of_first {F : FltFormat} {vs : List Voice} {k : Nat} {v : Voice}
    (hnan : ∀ u ∈ vs, F.isNaN u.env = false) (hv : vs[k]? = some v)
    (hle : ∀ u ∈ vs, F.le v.env u.env = true)
    (hlt : ∀ i < k, ∀ u, vs[i]? = some u → F.lt v.env u.env = true) : stealIndex F vs = k := by
  have hmem := List.mem_of_getElem? hv
  obtain ⟨b, hb, hble, hblt⟩ := stealIndex_spec F (List.ne_nil_of_mem hmem) hnan
  rcases Nat.lt_trichotomy (stealIndex F vs) k with hlow | heq | hhigh
  · have hnot := FltFormat.le_eq_false_of_lt (hlt _ hlow b hb)
    exact absurd (hble v hmem) (Bool.eq_false_iff.1 hnot)
  · exact heq
  · have hnot := FltFormat.le_eq_false_of_lt (hblt k hhigh v hv)
    exact absurd (hle b (List.mem_of_getElem? hb)) (Bool.eq_false_iff.1 hnot)

/-! ### What NOTE_ON writes (R151, R152, R154) -/

theorem modifySlot_eq_set {s : State} {k : Nat} {v : Voice} (f : Voice → Voice) (hv : s.voices[k]? = some v) :
    s.modifySlot k f = s.setVoices (s.voices.set k (f v)) := by
  rw [State.modifySlot, modify_eq_set hv]

/-- A held note retriggers the first slot that holds it (R154 step 1). -/
theorem noteOn_of_holder {s : State} {note j : Nat} {v : Voice} (vel : Nat) (hfind : s.findNote note = some j)
    (hv : s.voices[j]? = some v) : s.noteOn note vel =
      s.setVoices (s.voices.set j (retrigger s (FREQ s.fmt note) (VELSCALE s.fmt vel) v)) := by
  rw [State.noteOn, hfind]
  exact modifySlot_eq_set _ hv

/-- A new note claims the first free slot, or with none the one STEAL_INDEX names (R154 steps 2 and 3). -/
theorem noteOn_of_no_holder {s : State} {note k : Nat} {v : Voice} (vel : Nat) (hnone : s.findNote note = none)
    (hslot : s.findFree.getD (stealIndex s.fmt s.voices) = k) (hv : s.voices[k]? = some v) : s.noteOn note vel =
      s.setVoices (s.voices.set k (claim s note (FREQ s.fmt note) (VELSCALE s.fmt vel) v)) := by
  rw [← modifySlot_eq_set _ hv, ← hslot, State.noteOn, hnone]
  cases s.findFree <;> rfl

/-- Settles O25: the slot is the one the search for the note finds. -/
theorem noteOnRetriggersTheHolder : Obligations.NoteOnRetriggersTheHolder := by
  intro s note vel j v hv ha hn hfirst
  have hfind : s.findNote note = some j :=
    findNote_of_first hv (Voice.holds_eq_true_iff.2 ⟨ha, hn⟩)
      fun k hk u hu => Voice.holds_eq_false (hfirst k hk u hu)
  rw [exec_noteOn, noteOn_of_holder vel hfind hv]
  rfl

/-- Settles O26: no slot holds the note, and the slot is the one the search for a free slot finds. -/
theorem noteOnClaimsTheFirstFreeSlot : Obligations.NoteOnClaimsTheFirstFreeSlot := by
  intro s note vel k v hnew hv ha hfirst
  have hnone : s.findNote note = none := findNote_eq_none fun u hu => Voice.holds_eq_false (hnew u hu)
  have hslot : s.findFree.getD (stealIndex s.fmt s.voices) = k := by
    rw [findFree_of_first hv ha hfirst, Option.getD_some]
  rw [exec_noteOn, noteOn_of_no_holder vel hnone hslot hv]
  rfl

/-- Settles O27: no slot holds the note, none is free, and STEAL_INDEX is the first slot of the lowest envelope. -/
theorem noteOnStealsTheQuietestSlot : Obligations.NoteOnStealsTheQuietestSlot := by
  intro s note vel k v hall hv hle hlt
  have hnone : s.findNote note = none := findNote_eq_none fun u hu => by
    obtain ⟨-, hne, -⟩ := hall u hu
    exact Voice.holds_eq_false fun ⟨_, hn⟩ => hne hn
  have hfull : s.findFree = none := findFree_eq_none fun u hu => (hall u hu).1
  have hsteal : stealIndex s.fmt s.voices = k :=
    stealIndex_eq_of_first (fun u hu => (hall u hu).2.2) hv hle hlt
  have hslot : s.findFree.getD (stealIndex s.fmt s.voices) = k := by rw [hfull, Option.getD_none, hsteal]
  rw [exec_noteOn, noteOn_of_no_holder vel hnone hslot hv]
  rfl

end Sys2Proof.Machine
end

section
/-! O28, O29, O30, O33, O60: the one slot a NOTE_ON writes and what it makes of the counts (R154, R155), the release under
the pedal (R156, R159), and the velocity map (R150). -/

namespace Sys2Proof.Machine

/-! ### NOTE_OFF and the pedal (R156, R159) -/

/-- Settles O30: an active slot of the note is what `Voice.holds` tests, and `Voice.keyUp` what is written to it. -/
theorem noteOffReleasesTheNote : Obligations.NoteOffReleasesTheNote := by
  intro s note
  exact exec_noteOff note s

theorem releaseNote_held_gate (note : Nat) (v : Voice) : (releaseNote note true v).gate = v.gate := by
  unfold releaseNote
  split <;> rfl

theorem pedalUp_gate (v : Voice) : v.pedalUp.gate = (v.gate && v.keyDown) := by
  rw [pedalUp_eq]
  cases hkey : v.keyDown <;> simp

/-- Settles O33: a NOTE_OFF leaves the pedal held, so the release that follows is the transition. -/
theorem pedalHoldsUntilReleased : Obligations.PedalHoldsUntilReleased := by
  intro s note hpedal
  refine ⟨_, exec_noteOff note s, ?_, _, exec_sustainPedal false _, ?_⟩
  · simp [hpedal, releaseNote_held_gate]
  · simp [hpedal, pedalVoices, pedalUp_gate]

/-! ### The frame of NOTE_ON (R154, R161) -/

/-- NOTE_ON rewrites the slot its search names: the note's, else the first free one, else the one STEAL_INDEX
names. -/
theorem noteOn_eq_modifySlot (note vel : Nat) (s : State) : ∃ f, s.noteOn note vel =
    s.modifySlot ((s.findNote note).getD (s.findFree.getD (stealIndex s.fmt s.voices))) f := by
  rcases noteOn_cases note vel s with ⟨j, hfind, e⟩ | ⟨k, hnone, hfree, e⟩ | ⟨hnone, hfull, e⟩
  · exact ⟨_, by rw [e, hfind, Option.getD_some]⟩
  · exact ⟨_, by rw [e, hnone, hfree, Option.getD_none, Option.getD_some]⟩
  · exact ⟨_, by rw [e, hnone, hfull, Option.getD_none, Option.getD_none]⟩

/-- Settles O29: one slot is rewritten, and in a retriggered one neither note, activity nor phase. -/
theorem noteOnFrame : Obligations.NoteOnFrame := by
  intro s t note vel h
  rw [exec_noteOn] at h
  cases h
  obtain ⟨f, hmod⟩ := noteOn_eq_modifySlot note vel s
  refine ⟨?_, ?_, fun i hi => ?_, fun j v hfind hv => ?_⟩
  · rw [noteOn_rest]
    rfl
  · rw [hmod]
    exact List.length_modify ..
  · rw [hmod]
    exact List.getElem?_modify_ne _ _ hi.symm
  · obtain ⟨hj, -⟩ := List.getElem?_eq_some_iff.1 hv
    rw [noteOn_of_holder vel hfind hv]
    exact ⟨_, List.getElem?_set_self hj, rfl, rfl, rfl⟩

/-! ### The counts after NOTE_ON (R155) -/

/-- With unique notes, a note that is held is held once (R32 item 1). -/
theorem countP_holds_eq_one {vs : List Voice} {note : Nat} (hu : uniqueNotes vs) {v : Voice} (hv : v ∈ vs)
    (hh : v.holds note = true) : vs.countP (Voice.holds note) = 1 := by
  induction vs with
  | nil => exact absurd hv List.not_mem_nil
  | cons u us ih =>
    obtain ⟨hfirst, hrest⟩ := List.pairwise_cons.1 hu
    cases huh : u.holds note with
    | true =>
      have hnone : us.countP (Voice.holds note) = 0 := List.countP_eq_zero.2 fun w hw hwh => by
        obtain ⟨hua, hun⟩ := Voice.holds_eq_true_iff.1 huh
        obtain ⟨hwa, hwn⟩ := Voice.holds_eq_true_iff.1 hwh
        exact hfirst w hw ⟨hua, hwa, BitVec.eq_of_toNat_eq (hun.trans hwn.symm)⟩
      rw [List.countP_cons_of_pos huh, hnone]
    | false =>
      have hvu : v ≠ u := fun e => by simp [e, huh] at hh
      rw [List.countP_cons_of_neg (by simp [huh])]
      exact ih hrest ((List.mem_cons.1 hv).resolve_left hvu)

/-- An active slot written over an inactive one is one active slot more. -/
theorem countP_active_set {vs : List Voice} {k : Nat} {v w : Voice} (hv : vs[k]? = some v) (hw : w.active = true) :
    (vs.set k w).countP (fun u => u.active) = vs.countP (fun u => u.active) + if v.active then 0 else 1 := by
  obtain ⟨hk, rfl⟩ := List.getElem?_eq_some_iff.1 hv
  rw [List.countP_set hk, if_pos hw]
  split
  · rename_i ha
    have hpos : 0 < vs.countP fun u => u.active := List.countP_pos_iff.2 ⟨_, List.getElem_mem hk, ha⟩
    omega
  · rfl

/-- With a slot there is at all, the search for a free slot and STEAL_INDEX end at a slot, which is active only
where no slot is free. -/
theorem getElem?_free_or_steal {s : State} (hne : s.voices ≠ []) :
    ∃ v, s.voices[s.findFree.getD (stealIndex s.fmt s.voices)]? = some v ∧ (v.active = true ↔ s.findFree = none) := by
  cases hfree : s.findFree with
  | some k =>
    obtain ⟨v, hv, ha, -⟩ := findFree_some hfree
    exact ⟨v, hv, by simp [ha]⟩
  | none =>
    have hv := List.getElem?_eq_getElem (stealIndex_lt s.fmt hne)
    exact ⟨_, hv, by simp [findFree_none hfree _ (List.mem_of_getElem? hv)]⟩

/-- NOTE_ON writes a holder of the note over a slot that was active exactly where the note was held or no slot
was free (R154). -/
theorem noteOn_eq_set {s : State} (hne : s.voices ≠ []) {note : Nat} (hn : note ≤ 127) (vel : Nat) :
    ∃ k v w, s.voices[k]? = some v ∧ s.noteOn note vel = s.setVoices (s.voices.set k w) ∧
      w.holds note = true ∧ (v.active = true ↔ s.findNote note ≠ none ∨ s.findFree = none) := by
  cases hfind : s.findNote note with
  | some j =>
    obtain ⟨v, hv, hh, -⟩ := findNote_some hfind
    obtain ⟨ha, -⟩ := Voice.holds_eq_true_iff.1 hh
    exact ⟨j, v, _, hv, noteOn_of_holder vel hfind hv, hh, by simp [ha]⟩
  | none =>
    obtain ⟨v, hv, ha⟩ := getElem?_free_or_steal hne
    exact ⟨_, v, _, hv, noteOn_of_no_holder vel hfind rfl hv,
      Voice.holds_eq_true_iff.2 ⟨rfl, toNat_ofNat_note hn⟩, by simp [ha]⟩

theorem Inv.voices_ne_nil {s : State} (hs : Inv s) : s.voices ≠ [] :=
  List.ne_nil_of_length_pos hs.cap_pos

theorem findNote_ne_none {s : State} {note : Nat} {v : Voice} (hv : v ∈ s.voices) (hh : v.holds note = true) :
    s.findNote note ≠ none := fun hnone => by
  simp [findNote_none hnone v hv] at hh

theorem findFree_ne_none {s : State} {v : Voice} (hv : v ∈ s.voices) (ha : v.active = false) :
    s.findFree ≠ none := fun hnone => by
  simp [findFree_none hnone v hv] at ha

/-- Settles O28: the slot written holds the note, notes stay unique, and the count of active slots rises only where
the slot written over was inactive. -/
theorem noteOnLeavesOneHolder : Obligations.NoteOnLeavesOneHolder := by
  intro s note vel hs hn
  obtain ⟨k, v, w, hv, e, hw, hact⟩ := noteOn_eq_set hs.voices_ne_nil hn vel
  have hunique := uniqueNotes_noteOn hs.unique hn vel
  have hcount : (s.noteOn note vel).advance.activeCount = s.activeCount + if v.active then 0 else 1 := by
    rw [e]
    exact countP_active_set hv (Voice.holds_eq_true_iff.1 hw).1
  refine ⟨_, exec_noteOn note vel s, ?_, fun ⟨u, hu, huh⟩ => ?_,
    fun hnew => ⟨fun ⟨u, hu, hua⟩ => ?_, fun hall => ?_⟩⟩
  · refine countP_holds_eq_one hunique (v := w) ?_ hw
    rw [e]
    exact List.mem_set (List.getElem?_eq_some_iff.1 hv).1 w
  · have hva := hact.2 (.inl (findNote_ne_none hu (Voice.holds_eq_true_iff.2 huh)))
    rw [hcount, if_pos hva, Nat.add_zero]
  · have hnone := findNote_eq_none fun u hu => Voice.holds_eq_false (hnew u hu)
    have hva : ¬v.active = true := fun ha => (hact.1 ha).elim (· hnone) (findFree_ne_none hu hua)
    rw [hcount, if_neg hva]
  · rw [hcount, if_pos (hall v (List.mem_of_getElem? hv)), Nat.add_zero]
    exact List.countP_eq_length.2 hall

/-! ### The velocity map (R150) -/

/-- Settles O60: 0 and 127 are exact quotients, 100 is computed, and the range is `VELSCALE_unit`. -/
theorem velocityScale : Obligations.VelocityScale := by
  refine ⟨by decide +kernel, fun F => ?_⟩
  have hmax : F.posFinite F.velMax = true := FltFormat.ofNat_posFinite (by omega) (by omega)
  refine ⟨?_, FltFormat.div_self_eq_one hmax, fun vel hvel => ⟨rfl, FltFormat.unit_bounds (VELSCALE_unit F hvel)⟩⟩
  rw [VELSCALE, FltFormat.ofNat_zero, FltFormat.zero_div_posFinite hmax]

end Sys2Proof.Machine
end

section
/-! O52, O53: MIX at its target (R183, R184), the scrub and the clamp of the emitted sample (R185). -/

namespace Sys2Proof.FltFormat

open Flt (zero)

variable {F : FltFormat} {a b c : Flt}

/-! ### Zero as an operand -/

theorem sub_self_of_finite (ha : F.isFinite a = true) (hs : a.sgn = false) : F.sub a a = zero := by
  rw [sub_of_val_eq_zero ha ha (Int.sub_self _), hs]
  rfl

theorem zero_mul_of_finite (ha : F.isFinite a = true) (hs : a.sgn = false) : F.mul zero a = zero := by
  have hu : F.units zero = 0 := unitsOf_zero
  rw [mul_of_finite zero_isFinite ha, hu, Nat.zero_mul, roundMag_zero, hs]
  rfl

/-- Zero over anything above zero, infinity included, is zero. -/
theorem zero_div_of_gt_zero (ha : F.gt a zero = true) : F.div zero a = zero := by
  rcases class_cases F a with hnan | hinf | hfin
  · have hn := ((lt_iff zero a).1 ha).2.1
    rw [hn] at hnan
    exact absurd hnan Bool.false_ne_true
  · rw [div_by_inf zero_isFinite hinf, sgn_of_gt_zero ha]
    rfl
  · exact zero_div_posFinite (by rw [posFinite, hfin, ha]; rfl)

/-- Adding zero rounds the value itself, which changes nothing. -/
theorem add_zero_of_finite (ha : F.isFinite a = true) (hs : a.sgn = false) : F.add a zero = a := by
  have hn : F.nonneg a = true := (nonneg_iff a).2 ⟨hs, Nat.le_of_lt ((isFinite_iff a).1 ha)⟩
  have hs' : (F.add a zero).sgn = false := ((nonneg_iff _).1 (add_nonneg hn zero_nonneg)).1
  have hz : F.val zero = 0 := by simp [val, units]
  have hk := (key_add ha (zero_isFinite (F := F))).1
  rw [hz, Int.add_zero, key_ofUnits_val ha, Flt.key_of_sgn_false hs', Flt.key_of_sgn_false hs] at hk
  exact Flt.ext_sgn_mag (hs'.trans hs.symm) (Int.ofNat_inj.1 hk)

/-- A sum with a summand above zero is above zero, an infinite sum included. -/
theorem add_gt_zero (ha : F.posFinite a = true) (hb : F.isFinite b = true) (hs : b.sgn = false) :
    F.gt (F.add a b) zero = true := by
  have haf := posFinite_isFinite ha
  have hle : F.le a (F.add a b) = true := le_add_of haf hb haf (by linarith [toRat_nonneg_of_sgn (F := F) hs])
  exact gt_zero_of_ge ((gt_zero_iff (posFinite_nonneg ha)).2 ((posFinite_iff a).1 ha).2.1) hle

/-! ### `min` and `max` of values that are no NaN (R14) -/

theorem le_of_le_eq_false (ha : F.isNaN a = false) (hb : F.isNaN b = false) (h : F.le a b = false) :
    F.le b a = true := by
  have hkey : ¬a.key ≤ b.key := fun hk => by simp [(le_iff a b).2 ⟨ha, hb, hk⟩] at h
  exact (le_iff b a).2 ⟨hb, ha, by omega⟩

theorem le_self (ha : F.isNaN a = false) : F.le a a = true := (le_iff a a).2 ⟨ha, ha, Int.le_refl _⟩

theorem min_le_right (a : Flt) (hb : F.isNaN b = false) : F.le (F.min a b) b = true := by
  rcases min_eq (F := F) a b with ⟨e, hle⟩ | ⟨e, -⟩ <;> rw [e]
  · exact hle
  · exact le_self hb

theorem le_max_left (ha : F.isNaN a = false) (hb : F.isNaN b = false) : F.le a (F.max a b) = true := by
  rcases max_eq (F := F) a b with ⟨e, -⟩ | ⟨e, hge⟩ <;> rw [e]
  · exact le_self ha
  · exact le_of_le_eq_false hb ha hge

theorem max_le (ha : F.le a c = true) (hb : F.le b c = true) : F.le (F.max a b) c = true := by
  rcases max_eq (F := F) a b with ⟨e, -⟩ | ⟨e, -⟩ <;> rw [e] <;> assumption

theorem negOne_le_one (F : FltFormat) : F.le F.negOne F.one = true := by
  rw [le_iff_toRat negOne_isFinite one_isFinite, toRat_negOne, toRat_one]
  norm_num

/-! ### Constants of the mixer (R10, R183) -/

theorem tauMix_posFinite (F : FltFormat) : F.posFinite F.tauMix = true := by
  have hU : 8388608 ≤ F.unitsPerOne := by
    rw [unitsPerOne_eq]
    exact (frac_ge F).trans (Nat.le_mul_of_pos_right _ (Nat.pow_pos (by omega)))
  have hpos : 0 < F.tauMix.mag := ofRat_mag_pos (by omega) (by omega)
  have hle : F.tauMix.mag ≤ F.one.mag := ofRat_mag_le_one (by omega) (by omega)
  exact (posFinite_iff _).2 ⟨rfl, hpos, Nat.lt_of_le_of_lt hle (one_mag_lt F)⟩

/-- The reciprocal of any positive count is in [0,1]: a count too large for the format is an infinity. -/
theorem one_div_ofNat_unit (F : FltFormat) {n : Nat} (hn : 1 ≤ n) : F.unit (F.div F.one (F.ofNat n)) = true := by
  rcases Nat.lt_or_eq_of_le ((nonneg_iff _).1 (ofNat_nonneg (F := F) n)).2 with hlt | hinf
  · have hp : F.posFinite (F.ofNat n) = true := (posFinite_iff _).2 ⟨ofNat_sgn n, ofNat_mag_pos hn, hlt⟩
    have hle : F.units F.one ≤ F.units (F.ofNat n) :=
      units_le_of_mag (by rw [← ofNat_one]; exact ofNat_mono hn) (Nat.le_of_lt hlt)
    rw [div_of_finite one_isFinite (posFinite_isFinite hp) (posFinite_not_isZero hp), unit_iff]
    exact ⟨by simp, ofRat_mag_le_one (units_pos (posFinite_isFinite hp) (posFinite_not_isZero hp)) hle⟩
  · rw [div_by_inf one_isFinite ((isInf_iff _).2 hinf), unit_iff]
    exact ⟨by simp, Nat.zero_le _⟩

end Sys2Proof.FltFormat

namespace Sys2Proof.Machine

/-! ### MIX at its target (R183, R184) -/

theorem mixTarget_unit (F : FltFormat) (n : Nat) : F.unit (mixTarget F n) = true := by
  unfold mixTarget
  split
  · exact FltFormat.one_div_ofNat_unit F ‹_›
  · exact FltFormat.one_unit

/-- At the target the distance is zero, and so is the step, whatever TAU_MIX + DT rounds to (R184). -/
theorem mixNext_self {F : FltFormat} {dt m : Flt} (hdt : F.isFinite dt = true) (hdts : dt.sgn = false)
    (hm : F.isFinite m = true) (hms : m.sgn = false) : mixNext F dt m m = m := by
  have hden := FltFormat.add_gt_zero (FltFormat.tauMix_posFinite F) hdt hdts
  rw [mixNext, FltFormat.sub_self_of_finite hm hms, FltFormat.zero_mul_of_finite hdt hdts,
    FltFormat.zero_div_of_gt_zero hden, FltFormat.add_zero_of_finite hm hms]

/-- Settles O52: the target is finite and not negative, so MIX at it is a fixed point of the update. -/
theorem mixAtTargetStays : Obligations.MixAtTargetStays := by
  intro s t h hdt hdts hmix
  rw [exec_tick] at h
  cases h
  have hunit : s.fmt.unit s.mix = true := hmix ▸ mixTarget_unit s.fmt _
  show mixNext s.fmt s.dt s.mix (mixTarget s.fmt (voicesOn s.fmt (tickSlots s))) = s.mix
  rw [← hmix]
  exact mixNext_self hdt hdts (FltFormat.unit_isFinite hunit) ((FltFormat.unit_iff _).1 hunit).1

/-! ### The emitted sample (R185) -/

theorem scrub_isFinite (F : FltFormat) (y : Flt) : F.isFinite (scrub F y) = true := by
  unfold scrub
  split
  · assumption
  · exact FltFormat.zero_isFinite

/-- The clamp puts every value, a NaN included, in [-1, 1] (R185). -/
theorem clampOut_bounds (F : FltFormat) (y : Flt) :
    F.le F.negOne (clampOut F true y) = true ∧ F.le (clampOut F true y) F.one = true := by
  have hmin := FltFormat.min_le_right (F := F) y FltFormat.one_isNaN
  obtain ⟨hnan, -, -⟩ := (FltFormat.le_iff _ _).1 hmin
  exact ⟨FltFormat.le_max_left (FltFormat.isFinite_not_isNaN FltFormat.negOne_isFinite) hnan,
    FltFormat.max_le (FltFormat.negOne_le_one F) hmin⟩

theorem clampOut_isFinite {F : FltFormat} {y : Flt} (on : Bool) (hy : F.isFinite y = true) :
    F.isFinite (clampOut F on y) = true := by
  cases on with
  | false => exact hy
  | true =>
    obtain ⟨hlo, hhi⟩ := clampOut_bounds F y
    exact FltFormat.isFinite_of_le FltFormat.negOne_isFinite FltFormat.one_isFinite hlo hhi

/-- Settles O53: what is clamped has been scrubbed. -/
theorem emittedSampleIsFinite : Obligations.EmittedSampleIsFinite := by
  intro s t h
  rw [exec_tick] at h
  cases h
  refine ⟨s.tickSample, rfl, clampOut_isFinite _ (scrub_isFinite _ _), fun hon => ?_⟩
  unfold State.tickSample output
  rw [hon]
  exact clampOut_bounds _ _

end Sys2Proof.Machine
end

section
/-! O12, O13, O14, O15: a refused block executes nothing (R202, R216), a RESET restarts the block or is refused (R220,
R221), and every move of the host is answered with a next state (R200, R201). -/

namespace Sys2Proof.FltFormat

/-- The four ways a sample rate is bad are the ways it is not positive and finite (R221). -/
theorem posFinite_eq_false_iff {F : FltFormat} (x : Flt) :
    F.posFinite x = false ↔ x.isZero = true ∨ x.sgn = true ∨ F.isNaN x = true ∨ F.isInf x = true := by
  rw [← Bool.not_eq_true, posFinite_iff, isNaN_iff, isInf_iff, Flt.isZero, beq_iff_eq]
  cases x.sgn with
  | true => simp
  | false => simp only [true_and, Bool.false_eq_true, false_or]; omega

end Sys2Proof.FltFormat

namespace Sys2Proof.Machine

/-! ### The moves that are no command (R216, R220, R221) -/

/-- With nothing sent the block keeps all state (R216). -/
theorem step_of_no_input {s : State} (hi : s.input = []) : step s = .next s := by
  simp only [step, hi]

/-- A RESET is taken in any STATUS (R220). -/
theorem step_reset {s : State} {c : ResetConfig} {rest : List HostInput} (hi : s.input = .reset c :: rest) :
    step s = .next ((s.withInput rest).doReset c) := by
  simp only [step, hi]

theorem step_reset_restarts {s : State} {c : ResetConfig} {rest : List HostInput} (hi : s.input = .reset c :: rest)
    (hsr : s.fmt.posFinite c.sr = true) : step s = .next ((s.withInput rest).restart c) :=
  (step_reset hi).trans (congrArg Host.Outcome.next (if_pos hsr))

theorem step_reset_refused {s : State} {c : ResetConfig} {rest : List HostInput} (hi : s.input = .reset c :: rest)
    (hsr : s.fmt.posFinite c.sr = false) :
    step s = .next { s with input := rest, status := .refused (.config c) .badResetConfig } :=
  (step_reset hi).trans (congrArg Host.Outcome.next (if_neg (ne_true_of_eq_false hsr)))

/-- The clamp as `max` and `min` (R220). -/
theorem clampCap_eq (n : Int) : clampCap n = (min (max n 1) 32).toNat := by
  unfold clampCap capMin capMax
  split_ifs <;> omega

/-- Settles O12, by the step of a word that finds the block Refused and the step with nothing sent. -/
theorem refusedBlockExecutesNothing : Obligations.RefusedBlockExecutesNothing :=
  ⟨fun _ _ _ _ _ hs hi => step_refused hs hi, fun _ hi => step_of_no_input hi⟩

/-- Settles O13: the test is that SR is positive and finite, and the voice file is as long as the clamp says. -/
theorem resetSetsEveryRegister : Obligations.ResetSetsEveryRegister := by
  intro s c rest hi
  rw [← FltFormat.posFinite, ← clampCap_eq]
  cases hsr : s.fmt.posFinite c.sr with
  | true => exact step_reset_restarts hi hsr
  | false => exact step_reset_refused hi hsr

/-- Settles O14: the sample rates named are those that are not positive and finite; CAP0 only sets the length. -/
theorem badSampleRateIsRefused : Obligations.BadSampleRateIsRefused := by
  intro s c rest hi
  rw [← FltFormat.posFinite_eq_false_iff]
  refine ⟨fun hsr => ⟨step_reset_refused hi hsr, ?_⟩,
    fun hsr => ⟨_, step_reset_restarts hi (eq_true_of_ne_false hsr), rfl, ?_⟩⟩
  · rintro w later rfl
    exact step_refused rfl rfl
  · rw [← clampCap_eq, State.cap_eq]
    exact List.length_replicate

/-! ### Every move is answered (R200, R201) -/

/-- The setter template completes or takes the refusal: either way a next state (R111, R202). -/
theorem finishSetter_answers (i : Instr) (v : Option Flt) (write : Flt → State → State) (s : State) :
    ∃ t, finishSetter i v write s = .next t := by
  cases v with
  | some x => exact ⟨_, rfl⟩
  | none => exact ⟨_, finishSetter_none i write s⟩

theorem exec_answers (i : Instr) (s : State) : ∃ t, exec i s = .next t := by
  cases i with
  | noteOn note vel => exact ⟨_, exec_noteOn note vel s⟩
  | noteOff note => exact ⟨_, exec_noteOff note s⟩
  | sustainPedal down => exact ⟨_, exec_sustainPedal down s⟩
  | setWave u => exact ⟨_, exec_setWave u s⟩
  | setPoly u => exact ⟨_, exec_setPoly u s⟩
  | tick => exact ⟨_, exec_tick s⟩
  | render u => exact ⟨_, exec_render u s⟩
  | setAttack | setDecay | setSustain | setRelease | setGlide | setGain =>
    simp only [exec, execSetAttack, execSetDecay, execSetSustain, execSetRelease, execSetGlide, execSetGain]
    exact finishSetter_answers _ _ _ s

/-- Settles O15, by the host's next move: none, a RESET, or a word that is ignored, illegal or executed. -/
theorem everyStepAnswersNext : Obligations.EveryStepAnswersNext := by
  intro s
  cases hi : s.input with
  | nil => exact ⟨s, step_of_no_input hi⟩
  | cons move rest =>
    cases move with
    | reset c => exact ⟨_, step_reset hi⟩
    | command w =>
      cases hs : s.status with
      | refused info r => exact ⟨_, step_refused hs hi⟩
      | running =>
        cases hd : decode w with
        | illegal r => exact ⟨_, step_illegal hs hi hd⟩
        | ok i =>
          rw [stepRunsDecodedCommand s w rest i hs hi hd]
          exact exec_answers i _

end Sys2Proof.Machine
end
